-- ==== Sys2Proof/Word.lean ====
section
/-! DEFINITION. The words of the block: a byte of DBUF and of the A/C register file, a 32-bit duration of RAW and
PLAN, and a memory space as a list of (index, element) pairs. -/

namespace Sys2Proof

/-- One byte (20_memory.md R64, 10_state.md R47). -/
abbrev Byte := BitVec 8

/-- One duration in microseconds, an element of RAW or PLAN (20_memory.md R60, R62). -/
abbrev Duration := BitVec 32

/-- A memory space indexed by element number (20_memory.md): the elements that something has written, by rising
index. An index that is not listed holds no stored element; what a read of it gives is said in
Machine/Operands.lean (10_state.md R52, log 2). -/
abbrev Memory (w : Nat) := List (Nat × BitVec w)

end Sys2Proof
end

