-- ==== Sys2Proof/Syntax.lean ====
section
/-! DEFINITION. The commands of the block, one constructor for each row of the opcode map (30_encoding.md R104). -/

namespace Sys2Proof

/-- A command with its operand fields (30_encoding.md R94–R103). Numbers the rules count or compare are naturals
(R105, 00_scope.md R15); fields used as bits or codes are bytes. -/
inductive Instr where
  /-- CAL, format N (40_calibrator_extractor.md R128). -/
  | cal
  /-- EXTRACT, format X (R129). -/
  | extract (tsel : Bool) (n offset : Nat)
  /-- WORD_ENCODE, format E (41_word_codec.md R141). -/
  | wordEncode (device subdevice function : Byte)
  /-- WORD_SEND, format W (R143); `reps` is the field `repeat`. -/
  | wordSend (nbits reps : Nat)
  /-- WORD_DECODE, format D (R145). -/
  | wordDecode (strict : Bool) (nbits : Nat)
  /-- FRAME_SEND, format F (42_frame_codec.md R161); `reps` is the field `repeat`. -/
  | frameSend (nbytes reps : Nat)
  /-- FRAME_DECODE, format D (R162). -/
  | frameDecode (strict : Bool) (nbits : Nat)
  /-- CSUM_CALC, format I8 (43_validator.md R182). -/
  | csumCalc (len : Nat)
  /-- CSUM_VALID, format I8 (R183). -/
  | csumValid (len : Nat)
  /-- AC_RESET, format N (44_ac_register_file.md R191). -/
  | acReset
  /-- AC_GET_RAW, format N (R193). -/
  | acGetRaw
  /-- AC_SET_RAW, format N (R194). -/
  | acSetRaw
  /-- AC_SEND, format R (R195); `reps` is the field `repeat`. -/
  | acSend (reps : Nat)
  /-- AC_SET_MODEL, format I8 (R198); `variant` is the variant code. -/
  | acSetModel (variant : Byte)
  /-- AC_GET_MODEL, format N (R197). -/
  | acGetModel
  /-- AC_ON, format N (45_ac_accessors.md R210). -/
  | acOn
  /-- AC_OFF, format N (R211). -/
  | acOff
  /-- AC_SET_POWER, format B (R212). -/
  | acSetPower (b : Bool)
  /-- AC_GET_POWER, format N (R213). -/
  | acGetPower
  /-- AC_SET_MODE, format I8 (R217); `mode` is the mode code. -/
  | acSetMode (mode : Byte)
  /-- AC_GET_MODE, format N (R218). -/
  | acGetMode
  /-- AC_SET_TEMP, format T (R215); `t` is the temperature in °C, `rem` the remember bit. -/
  | acSetTemp (t : Nat) (rem : Bool)
  /-- AC_GET_TEMP, format N (R216). -/
  | acGetTemp
  /-- AC_SET_SWINGV, format I8 (R219); `e` is the elevation. -/
  | acSetSwingV (e : Nat)
  /-- AC_GET_SWINGV, format N (R220). -/
  | acGetSwingV
  /-- AC_SET_SWINGH, format I8 (R222); `dir` is the direction code. -/
  | acSetSwingH (dir : Byte)
  /-- AC_GET_SWINGH, format N (R223). -/
  | acGetSwingH
  /-- AC_SET_FAN, format I8 (R224). -/
  | acSetFan (speed : Nat)
  /-- AC_GET_FAN, format N (R225). -/
  | acGetFan
  /-- AC_SET_QUIET, format B (R227). -/
  | acSetQuiet (b : Bool)
  /-- AC_GET_QUIET, format N (R228). -/
  | acGetQuiet
  /-- AC_SET_POWERFUL, format B (R230). -/
  | acSetPowerful (b : Bool)
  /-- AC_GET_POWERFUL, format N (R231). -/
  | acGetPowerful
  deriving DecidableEq, Repr

/-- Why a command word is illegal (30_encoding.md R106). -/
inductive IllegalWord where
  /-- (a) bits 31:24 are not an opcode of R104. -/
  | unusedOpcode
  /-- (b) some bit the format reserves as 0 is 1. -/
  | reservedBits
  deriving DecidableEq, Repr

end Sys2Proof
end

