-- ==== Sys2Proof/WellFormed.lean ====
section
/-! DEFINITION. A command is well formed when each numeric operand fits its field of the command word
(30_encoding.md R94–R105). Fields whose type is their exact width need no check. -/

namespace Sys2Proof

/-- Each numeric operand is below 2 to the width of its field (30_encoding.md R105). -/
def Instr.wellFormed : Instr → Bool
  | .cal => true
  | .extract _ n offset => decide (n < 2 ^ 7) && decide (offset < 2 ^ 16)
  | .wordEncode _ _ _ => true
  | .wordSend nbits reps => decide (nbits < 2 ^ 8) && decide (reps < 2 ^ 16)
  | .wordDecode _ nbits => decide (nbits < 2 ^ 16)
  | .frameSend nbytes reps => decide (nbytes < 2 ^ 8) && decide (reps < 2 ^ 16)
  | .frameDecode _ nbits => decide (nbits < 2 ^ 16)
  | .csumCalc len => decide (len < 2 ^ 8)
  | .csumValid len => decide (len < 2 ^ 8)
  | .acReset => true
  | .acGetRaw => true
  | .acSetRaw => true
  | .acSend reps => decide (reps < 2 ^ 16)
  | .acSetModel _ => true
  | .acGetModel => true
  | .acOn => true
  | .acOff => true
  | .acSetPower _ => true
  | .acGetPower => true
  | .acSetMode _ => true
  | .acGetMode => true
  | .acSetTemp t _ => decide (t < 2 ^ 8)
  | .acGetTemp => true
  | .acSetSwingV e => decide (e < 2 ^ 8)
  | .acGetSwingV => true
  | .acSetSwingH _ => true
  | .acGetSwingH => true
  | .acSetFan speed => decide (speed < 2 ^ 8)
  | .acGetFan => true
  | .acSetQuiet _ => true
  | .acGetQuiet => true
  | .acSetPowerful _ => true
  | .acGetPowerful => true

end Sys2Proof
end

