-- ==== Sys2Proof/Decode.lean ====
section
/-! DEFINITION. The decoder of a 32-bit command word (30_encoding.md R93–R111), total, refusing an illegal word by
name (R106), and after it the encoder written from the same formats. -/

namespace Sys2Proof

/-- The field of `n` bits of `w` from bit `lo` up, as an unsigned number (00_scope.md R14). -/
def field (w : BitVec 32) (lo n : Nat) : Nat := (w.extractLsb' lo n).toNat

/-- Format N (R94): bits 23:0 are reserved. -/
def formatN (w : BitVec 32) (i : Instr) : Except IllegalWord Instr :=
  if field w 0 24 = 0 then .ok i else .error .reservedBits

/-- Format B (R95): bits 23:1 are reserved, bit 0 is `b`. -/
def formatB (w : BitVec 32) (k : Bool → Instr) : Except IllegalWord Instr :=
  if field w 1 23 = 0 then .ok (k (w.getLsbD 0)) else .error .reservedBits

/-- Format I8 (R96): bits 23:8 are reserved, bits 7:0 are `imm8`. -/
def formatI8 (w : BitVec 32) (k : Byte → Instr) : Except IllegalWord Instr :=
  if field w 8 16 = 0 then .ok (k (w.extractLsb' 0 8)) else .error .reservedBits

/-- Format T (R97): bit 23 is `rem`, bits 22:8 are reserved, bits 7:0 are `imm8`. -/
def formatT (w : BitVec 32) (k : Nat → Bool → Instr) : Except IllegalWord Instr :=
  if field w 8 15 = 0 then .ok (k (field w 0 8) (w.getLsbD 23)) else .error .reservedBits

/-- Format D (R98): bit 23 is `strict`, bits 22:16 are reserved, bits 15:0 are `nbits`. -/
def formatD (w : BitVec 32) (k : Bool → Nat → Instr) : Except IllegalWord Instr :=
  if field w 16 7 = 0 then .ok (k (w.getLsbD 23) (field w 0 16)) else .error .reservedBits

/-- Format W (R99): bits 23:16 are `nbits`, bits 15:0 are `repeat`. -/
def formatW (w : BitVec 32) (k : Nat → Nat → Instr) : Except IllegalWord Instr :=
  .ok (k (field w 16 8) (field w 0 16))

/-- Format F (R100): bits 23:16 are `nbytes`, bits 15:0 are `repeat`. -/
def formatF (w : BitVec 32) (k : Nat → Nat → Instr) : Except IllegalWord Instr :=
  .ok (k (field w 16 8) (field w 0 16))

/-- Format E (R101): bits 23:16 are `device`, 15:8 `subdevice`, 7:0 `function`. -/
def formatE (w : BitVec 32) (k : Byte → Byte → Byte → Instr) : Except IllegalWord Instr :=
  .ok (k (w.extractLsb' 16 8) (w.extractLsb' 8 8) (w.extractLsb' 0 8))

/-- Format X (R102): bit 23 is `tsel`, bits 22:16 are `n`, bits 15:0 are `offset`. -/
def formatX (w : BitVec 32) (k : Bool → Nat → Nat → Instr) : Except IllegalWord Instr :=
  .ok (k (w.getLsbD 23) (field w 16 7) (field w 0 16))

/-- Format R (R103): bits 23:16 are reserved, bits 15:0 are `repeat`. -/
def formatR (w : BitVec 32) (k : Nat → Instr) : Except IllegalWord Instr :=
  if field w 16 8 = 0 then .ok (k (field w 0 16)) else .error .reservedBits

/-- The opcode map (R104): bits 31:24 select the command and its format; every other opcode is illegal (R106, R107). -/
def decode (w : BitVec 32) : Except IllegalWord Instr :=
  match field w 24 8 with
  | 0x01 => formatN w .cal
  | 0x02 => formatX w .extract
  | 0x10 => formatE w .wordEncode
  | 0x11 => formatW w .wordSend
  | 0x12 => formatD w .wordDecode
  | 0x20 => formatF w .frameSend
  | 0x21 => formatD w .frameDecode
  | 0x30 => formatI8 w (fun b => .csumCalc b.toNat)
  | 0x31 => formatI8 w (fun b => .csumValid b.toNat)
  | 0x40 => formatN w .acReset
  | 0x41 => formatN w .acGetRaw
  | 0x42 => formatN w .acSetRaw
  | 0x43 => formatR w .acSend
  | 0x44 => formatI8 w .acSetModel
  | 0x45 => formatN w .acGetModel
  | 0x50 => formatN w .acOn
  | 0x51 => formatN w .acOff
  | 0x52 => formatB w .acSetPower
  | 0x53 => formatN w .acGetPower
  | 0x54 => formatI8 w .acSetMode
  | 0x55 => formatN w .acGetMode
  | 0x56 => formatT w .acSetTemp
  | 0x57 => formatN w .acGetTemp
  | 0x58 => formatI8 w (fun b => .acSetSwingV b.toNat)
  | 0x59 => formatN w .acGetSwingV
  | 0x5A => formatI8 w .acSetSwingH
  | 0x5B => formatN w .acGetSwingH
  | 0x5C => formatI8 w (fun b => .acSetFan b.toNat)
  | 0x5D => formatN w .acGetFan
  | 0x5E => formatB w .acSetQuiet
  | 0x5F => formatN w .acGetQuiet
  | 0x60 => formatB w .acSetPowerful
  | 0x61 => formatN w .acGetPowerful
  | _ => .error .unusedOpcode

/-- One row of the opcode table: a word is the row's command when its bits under `mask` are `pattern` (R111). -/
structure OpRow where
  mnemonic : String
  pattern : BitVec 32
  mask : BitVec 32
  deriving DecidableEq, Repr

/-- The table's rows of the calibrator and word codec (spec/opcode_table.json, R104). -/
def opRowsWord : List OpRow :=
  [⟨"CAL", 0x01000000#32, 0xFFFFFFFF#32⟩,
   ⟨"EXTRACT", 0x02000000#32, 0xFF000000#32⟩,
   ⟨"WORD_ENCODE", 0x10000000#32, 0xFF000000#32⟩,
   ⟨"WORD_SEND", 0x11000000#32, 0xFF000000#32⟩,
   ⟨"WORD_DECODE", 0x12000000#32, 0xFF7F0000#32⟩]

/-- The table's rows of the frame codec and validator (spec/opcode_table.json, R104). -/
def opRowsFrame : List OpRow :=
  [⟨"FRAME_SEND", 0x20000000#32, 0xFF000000#32⟩,
   ⟨"FRAME_DECODE", 0x21000000#32, 0xFF7F0000#32⟩,
   ⟨"CSUM_CALC", 0x30000000#32, 0xFFFFFF00#32⟩,
   ⟨"CSUM_VALID", 0x31000000#32, 0xFFFFFF00#32⟩]

/-- The table's rows of the A/C register file (spec/opcode_table.json, R104). -/
def opRowsRegister : List OpRow :=
  [⟨"AC_RESET", 0x40000000#32, 0xFFFFFFFF#32⟩,
   ⟨"AC_GET_RAW", 0x41000000#32, 0xFFFFFFFF#32⟩,
   ⟨"AC_SET_RAW", 0x42000000#32, 0xFFFFFFFF#32⟩,
   ⟨"AC_SEND", 0x43000000#32, 0xFFFF0000#32⟩,
   ⟨"AC_SET_MODEL", 0x44000000#32, 0xFFFFFF00#32⟩,
   ⟨"AC_GET_MODEL", 0x45000000#32, 0xFFFFFFFF#32⟩]

/-- The table's rows of the A/C accessors (spec/opcode_table.json, R104). -/
def opRowsAccessor : List OpRow :=
  [⟨"AC_ON", 0x50000000#32, 0xFFFFFFFF#32⟩,
   ⟨"AC_OFF", 0x51000000#32, 0xFFFFFFFF#32⟩,
   ⟨"AC_SET_POWER", 0x52000000#32, 0xFFFFFFFE#32⟩,
   ⟨"AC_GET_POWER", 0x53000000#32, 0xFFFFFFFF#32⟩,
   ⟨"AC_SET_MODE", 0x54000000#32, 0xFFFFFF00#32⟩,
   ⟨"AC_GET_MODE", 0x55000000#32, 0xFFFFFFFF#32⟩,
   ⟨"AC_SET_TEMP", 0x56000000#32, 0xFF7FFF00#32⟩,
   ⟨"AC_GET_TEMP", 0x57000000#32, 0xFFFFFFFF#32⟩,
   ⟨"AC_SET_SWINGV", 0x58000000#32, 0xFFFFFF00#32⟩,
   ⟨"AC_GET_SWINGV", 0x59000000#32, 0xFFFFFFFF#32⟩,
   ⟨"AC_SET_SWINGH", 0x5A000000#32, 0xFFFFFF00#32⟩,
   ⟨"AC_GET_SWINGH", 0x5B000000#32, 0xFFFFFFFF#32⟩,
   ⟨"AC_SET_FAN", 0x5C000000#32, 0xFFFFFF00#32⟩,
   ⟨"AC_GET_FAN", 0x5D000000#32, 0xFFFFFFFF#32⟩,
   ⟨"AC_SET_QUIET", 0x5E000000#32, 0xFFFFFFFE#32⟩,
   ⟨"AC_GET_QUIET", 0x5F000000#32, 0xFFFFFFFF#32⟩,
   ⟨"AC_SET_POWERFUL", 0x60000000#32, 0xFFFFFFFE#32⟩,
   ⟨"AC_GET_POWERFUL", 0x61000000#32, 0xFFFFFFFF#32⟩]

/-- The opcode table, all 33 rows (spec/opcode_table.json, R104). -/
def opcodeTable : List OpRow := opRowsWord ++ opRowsFrame ++ opRowsRegister ++ opRowsAccessor

/-- The command's mnemonic, as the opcode table spells it (R104). -/
def Instr.mnemonic : Instr → String
  | .cal => "CAL"
  | .extract _ _ _ => "EXTRACT"
  | .wordEncode _ _ _ => "WORD_ENCODE"
  | .wordSend _ _ => "WORD_SEND"
  | .wordDecode _ _ => "WORD_DECODE"
  | .frameSend _ _ => "FRAME_SEND"
  | .frameDecode _ _ => "FRAME_DECODE"
  | .csumCalc _ => "CSUM_CALC"
  | .csumValid _ => "CSUM_VALID"
  | .acReset => "AC_RESET"
  | .acGetRaw => "AC_GET_RAW"
  | .acSetRaw => "AC_SET_RAW"
  | .acSend _ => "AC_SEND"
  | .acSetModel _ => "AC_SET_MODEL"
  | .acGetModel => "AC_GET_MODEL"
  | .acOn => "AC_ON"
  | .acOff => "AC_OFF"
  | .acSetPower _ => "AC_SET_POWER"
  | .acGetPower => "AC_GET_POWER"
  | .acSetMode _ => "AC_SET_MODE"
  | .acGetMode => "AC_GET_MODE"
  | .acSetTemp _ _ => "AC_SET_TEMP"
  | .acGetTemp => "AC_GET_TEMP"
  | .acSetSwingV _ => "AC_SET_SWINGV"
  | .acGetSwingV => "AC_GET_SWINGV"
  | .acSetSwingH _ => "AC_SET_SWINGH"
  | .acGetSwingH => "AC_GET_SWINGH"
  | .acSetFan _ => "AC_SET_FAN"
  | .acGetFan => "AC_GET_FAN"
  | .acSetQuiet _ => "AC_SET_QUIET"
  | .acGetQuiet => "AC_GET_QUIET"
  | .acSetPowerful _ => "AC_SET_POWERFUL"
  | .acGetPowerful => "AC_GET_POWERFUL"

/-- The word of format N (R94). -/
def wordN (op : BitVec 8) : BitVec 32 := op ++ 0#24

/-- The word of format B (R95). -/
def wordB (op : BitVec 8) (b : Bool) : BitVec 32 := op ++ 0#23 ++ BitVec.ofBool b

/-- The word of format I8 (R96). -/
def wordI8 (op : BitVec 8) (imm8 : Byte) : BitVec 32 := op ++ 0#16 ++ imm8

/-- The word of format T (R97). -/
def wordT (op : BitVec 8) (imm8 : Nat) (rem : Bool) : BitVec 32 :=
  op ++ BitVec.ofBool rem ++ 0#15 ++ BitVec.ofNat 8 imm8

/-- The word of format D (R98). -/
def wordD (op : BitVec 8) (strict : Bool) (nbits : Nat) : BitVec 32 :=
  op ++ BitVec.ofBool strict ++ 0#7 ++ BitVec.ofNat 16 nbits

/-- The word of format W (R99). -/
def wordW (op : BitVec 8) (nbits reps : Nat) : BitVec 32 := op ++ BitVec.ofNat 8 nbits ++ BitVec.ofNat 16 reps

/-- The word of format F (R100). -/
def wordF (op : BitVec 8) (nbytes reps : Nat) : BitVec 32 := op ++ BitVec.ofNat 8 nbytes ++ BitVec.ofNat 16 reps

/-- The word of format E (R101). -/
def wordE (op : BitVec 8) (device subdevice function : Byte) : BitVec 32 := op ++ device ++ subdevice ++ function

/-- The word of format X (R102). -/
def wordX (op : BitVec 8) (tsel : Bool) (n offset : Nat) : BitVec 32 :=
  op ++ BitVec.ofBool tsel ++ BitVec.ofNat 7 n ++ BitVec.ofNat 16 offset

/-- The word of format R (R103). -/
def wordR (op : BitVec 8) (reps : Nat) : BitVec 32 := op ++ 0#8 ++ BitVec.ofNat 16 reps

/-- The word of a command: its opcode and its operands in its format (R104). -/
def encode : Instr → BitVec 32
  | .cal => wordN 0x01#8
  | .extract tsel n offset => wordX 0x02#8 tsel n offset
  | .wordEncode device subdevice function => wordE 0x10#8 device subdevice function
  | .wordSend nbits reps => wordW 0x11#8 nbits reps
  | .wordDecode strict nbits => wordD 0x12#8 strict nbits
  | .frameSend nbytes reps => wordF 0x20#8 nbytes reps
  | .frameDecode strict nbits => wordD 0x21#8 strict nbits
  | .csumCalc x => wordI8 0x30#8 (BitVec.ofNat 8 x)
  | .csumValid x => wordI8 0x31#8 (BitVec.ofNat 8 x)
  | .acReset => wordN 0x40#8
  | .acGetRaw => wordN 0x41#8
  | .acSetRaw => wordN 0x42#8
  | .acSend reps => wordR 0x43#8 reps
  | .acSetModel x => wordI8 0x44#8 x
  | .acGetModel => wordN 0x45#8
  | .acOn => wordN 0x50#8
  | .acOff => wordN 0x51#8
  | .acSetPower b => wordB 0x52#8 b
  | .acGetPower => wordN 0x53#8
  | .acSetMode x => wordI8 0x54#8 x
  | .acGetMode => wordN 0x55#8
  | .acSetTemp t rem => wordT 0x56#8 t rem
  | .acGetTemp => wordN 0x57#8
  | .acSetSwingV x => wordI8 0x58#8 (BitVec.ofNat 8 x)
  | .acGetSwingV => wordN 0x59#8
  | .acSetSwingH x => wordI8 0x5A#8 x
  | .acGetSwingH => wordN 0x5B#8
  | .acSetFan x => wordI8 0x5C#8 (BitVec.ofNat 8 x)
  | .acGetFan => wordN 0x5D#8
  | .acSetQuiet b => wordB 0x5E#8 b
  | .acGetQuiet => wordN 0x5F#8
  | .acSetPowerful b => wordB 0x60#8 b
  | .acGetPowerful => wordN 0x61#8

/-- The command the decoder reads from a word given as a number, bit 0 the least significant; every command is one
32-bit word (R108), so `nbits` adds nothing (log 12). -/
def decodeTableWord (_nbits w : Nat) : Option Instr :=
  if w < 2 ^ 32 then
    match decode (BitVec.ofNat 32 w) with
    | .ok i => some i
    | .error _ => none
  else none

end Sys2Proof
end

