-- ==== Sys2Proof/Config.lean ====
section
/-! DEFINITION. What an implementation fixes (the parameters of 00_scope.md R9, R10, R11, R13) and the values the
spec leaves free. -/

namespace Sys2Proof.Config

/-- The parameters a model may take as an argument: timing R9, tolerances R10, the two OPEN capacities of R11 and the
bit order R13 (00_scope.md). The spec's default values are `Machine.defaultParams`. -/
structure Params where
  /-- `TAU`, the nominal base tick in µs. -/
  tau : Nat
  /-- `SECTION_GAP` in µs. -/
  sectionGap : Nat
  /-- `MESSAGE_GAP` in µs. -/
  messageGap : Nat
  /-- `END_GAP` in µs. -/
  endGap : Nat
  /-- `CAPTURE_TIMEOUT` in µs. -/
  captureTimeout : Nat
  /-- `WORD_FRAME_T` in ticks. -/
  wordFrameT : Nat
  /-- `WORD_MINGAP_T` in ticks. -/
  wordMingapT : Nat
  /-- `T_WORD` in percent. -/
  tWord : Nat
  /-- `E_WORD` in µs. -/
  eWord : Nat
  /-- `T_AC` in percent. -/
  tAc : Nat
  /-- `E_AC` in µs. -/
  eAc : Nat
  /-- `T_GAP` in percent. -/
  tGap : Nat
  /-- `WORD_LSB_FIRST`. -/
  wordLsbFirst : Bool
  /-- `RAW_CAP`, OPEN. -/
  rawCap : Nat
  /-- `PLAN_CAP`, OPEN. -/
  planCap : Nat
  deriving DecidableEq, Repr

/-- What the spec requires of the parameters: `T_AC > T_WORD` (00_scope.md R10), tolerances are percentages of 0 to
100 (40_calibrator_extractor.md R120), `RAW_CAP ≥ 439` (00_scope.md R11), and every duration a plan can hold fits the
32 bits of a PLAN entry (20_memory.md R62; the model's own clause, log 8). -/
abbrev Params.wf (p : Params) : Prop :=
  p.tWord < p.tAc ∧ p.tAc ≤ 100 ∧ p.tGap ≤ 100 ∧ 439 ≤ p.rawCap ∧
  8 * p.tau < 2 ^ 32 ∧ p.wordFrameT * p.tau < 2 ^ 32 ∧ p.wordMingapT * p.tau < 2 ^ 32 ∧
  p.sectionGap < 2 ^ 32 ∧ p.messageGap < 2 ^ 32

/-- FREE VALUE (10_state.md R52, log 2): RAW entry `i` in draw number `d`. -/
opaque rawDraw (d i : Nat) : Duration

/-- FREE VALUE (10_state.md R52, 42_frame_codec.md R175, log 2, log 6): DBUF byte `i` in draw number `d`. -/
opaque dbufDraw (d i : Nat) : Byte

/-- FREE VALUE (10_state.md R52, log 2): PLAN entry `i` in draw number `d`. -/
opaque planDraw (d i : Nat) : Duration

/-- FREE VALUE (log 7): what the 16-bit `PLANLEN` holds, in draw number `d`, after a plan of 65536 or more entries. -/
opaque planLenDraw (d : Nat) : BitVec 16

end Sys2Proof.Config
end

