-- ==== Sys2Proof/Machine/Constants.lean ====
section
/-! DEFINITION. The spec's numbers: default parameters (00_scope.md R9–R13), sizes (R11) and the A/C protocol constants
(R12, 30_encoding.md R84–R91). Most are the spec's own decisions from general knowledge (93 I1–I16, log 15). -/

namespace Sys2Proof.Machine

/-- The default parameters of 00_scope.md R9, R10, R13. The OPEN capacities `RAW_CAP` and `PLAN_CAP` (R11) are the
model's choice (DESIGN CHOICE, log 5): the most that `RAWLEN` and `PLANLEN` can count. -/
def defaultParams : Config.Params where
  tau := 432
  sectionGap := 10000
  messageGap := 100000
  endGap := 5000
  captureTimeout := 15000
  wordFrameT := 378
  wordMingapT := 173
  tWord := 25
  eWord := 50
  tAc := 40
  eAc := 0
  tGap := 25
  wordLsbFirst := true
  rawCap := 65535
  planCap := 65535

/-- `WORD_BITS` (R11). -/
def wordBits : Nat := 48

/-- `SEC1_LEN` (R11). -/
def sec1Len : Nat := 8

/-- `L` (R11), also `DBUF_CAP`. -/
def acLen : Nat := 27

/-- `DBUF_CAP` (R11). -/
def dbufCap : Nat := 27

/-- `L_SHORT` (R11). -/
def acLenShort : Nat := 16

/-- `FRAME_MIN_LEN` (R11). -/
def frameMinLen : Nat := 16

/-- The widest value a word command or EXTRACT handles, the width of `VALUE` (R127, R143, R144). -/
def valueBits : Nat := 64

/-- `SEED`, the additive checksum's seed (30_encoding.md R91). -/
def checksumSeed : Nat := 0xF4

/-- The reset value of `MFR` (10_state.md R51). -/
def mfrReset : BitVec 16 := 0x4004#16

/-- `TEMP_MIN` (30_encoding.md R85). -/
def tempMin : Nat := 16

/-- `TEMP_MAX` (R85). -/
def tempMax : Nat := 30

/-- `TEMP_FAN` (R85). -/
def tempFan : Nat := 27

/-- The default of `TEMP_CACHE` (10_state.md R51, 44_ac_register_file.md R191). -/
def tempCacheReset : Byte := 25#8

/-- The middle direction, default of `SWINGH_CACHE` (R87, R191). -/
def swinghMiddle : Byte := 0x06#8

/-- The valid horizontal directions (30_encoding.md R87): auto, middle, full-left, left, right, full-right. -/
def swinghCodes : List Byte := [0x0D#8, 0x06#8, 0x09#8, 0x0A#8, 0x0B#8, 0x0C#8]

/-- Mode codes (30_encoding.md R84). -/
def modeAuto : Byte := 0#8
def modeDry : Byte := 2#8
def modeCool : Byte := 3#8
def modeHeat : Byte := 4#8
def modeFan : Byte := 6#8

/-- `SWINGV_AUTO` (30_encoding.md R86). -/
def swingvAuto : Nat := 0xF

/-- `SWINGV_UP` (R86). -/
def swingvUp : Nat := 1

/-- `SWINGV_DOWN` (R86). -/
def swingvDown : Nat := 5

/-- `FAN_MAX` (30_encoding.md R88). -/
def fanMax : Nat := 4

/-- `FAN_AUTO` (R88). -/
def fanAuto : Nat := 7

/-- `FAN_OFFSET` (R88). -/
def fanOffset : Nat := 3

/-- `TEMPLATE[0..26]` (30_encoding.md R91). -/
def acTemplate : Vector Byte 27 :=
  ⟨#[0x02#8, 0x20#8, 0xE0#8, 0x04#8, 0x00#8, 0x00#8, 0x00#8, 0x06#8, 0x02#8, 0x20#8, 0xE0#8, 0x04#8, 0x00#8, 0x00#8,
     0x00#8, 0x80#8, 0x00#8, 0x00#8, 0x00#8, 0x0E#8, 0xE0#8, 0x00#8, 0x00#8, 0x81#8, 0x00#8, 0x00#8, 0x00#8], rfl⟩

end Sys2Proof.Machine
end

