-- ==== Sys2Proof/Machine/State.lean ====
section
/-! DEFINITION. The state of the block as plain data: everything 10_state.md R30 names, the host's coming moves, and
the model's own counters and parameters (INVENTORY.md, State). -/

namespace Sys2Proof.Machine

/-- What the host port can name (10_state.md R31). The last three rows are reachable by no host access. -/
inductive Port where
  | cmd
  | status
  | proto
  | bits
  | valueLo
  | valueHi
  | address
  | command
  | mfr
  | rawlen
  | mtick
  | stick
  | used
  | result
  | planlen
  | raw (i : Nat)
  | dbuf (i : Nat)
  | plan (i : Nat)
  | acReg (i : Nat)
  | tempCache
  | swinghCache
  deriving DecidableEq, Repr

/-- One move of the world outside the block, taken between commands (00_scope.md R7, R8). A write of `Port.cmd`
issues the command word written (10_state.md R32). -/
inductive HostMove where
  /-- The host writes a value to a register or a memory element. -/
  | write (p : Port) (v : Nat)
  /-- The host reads a register or a memory element. -/
  | read (p : Port)
  /-- The platform asserts the block's reset (70_reset_and_hazards.md R260). -/
  | blockReset
  deriving DecidableEq, Repr

/-- Why a command fails (60_exceptions.md R240). No register records it: it is a ghost (R241, log 13). -/
inductive FailKind where
  | structural
  | timing
  | compliance
  deriving DecidableEq, Repr

/-- What stops the machine for good. Nothing does: the spec has no trap and no halting error (60_exceptions.md R247,
R248), failures and illegal words end in a next state (R243, R244), so no constructor exists (log 11). -/
inductive Fault where
  deriving DecidableEq, Repr

/-- What the model has no move for. -/
inductive Refusal where
  /-- Raised by exec's arm of a command that has no meaning yet; safe (no claim about it can be proved). -/
  | notModelled (mnemonic : String)
  /-- Raised by a host access outside the port table of 10_state.md R31: the spec gives it no effect and says the
  model refuses it (70_reset_and_hazards.md R266); safe. -/
  | hostAccess (move : HostMove)
  deriving DecidableEq, Repr

/-- The architectural state (10_state.md R30). -/
structure State where
  /-- MODEL's own: the host's moves still to come, first move first; the head `write .cmd w` is the word at `CMD`
  (10_state.md R32, log 1). -/
  pending : List HostMove
  /-- `STATUS`: bit 0 OK, bit 1 IGN, bit 2 ILL, bits 7:3 reserved (R33). -/
  status : BitVec 8
  /-- `PROTO` (R37). -/
  proto : BitVec 8
  /-- `BITS` (R38). -/
  bits : BitVec 16
  /-- `VALUE` (R39). -/
  value : BitVec 64
  /-- `ADDRESS` (R40). -/
  address : BitVec 32
  /-- `COMMAND` (R40). -/
  command : BitVec 32
  /-- `MFR` (R41). -/
  mfr : BitVec 16
  /-- `RAWLEN` (R42). -/
  rawlen : BitVec 16
  /-- `MTICK` (R43). -/
  mtick : BitVec 32
  /-- `STICK` (R43). -/
  stick : BitVec 32
  /-- `USED` (R44). -/
  used : BitVec 16
  /-- `RESULT` (R45). -/
  result : BitVec 8
  /-- `PLANLEN` (R46). -/
  planlen : BitVec 16
  /-- `S[0..L-1]`, the A/C state register file (R47). -/
  ac : Vector Byte 27
  /-- `TEMP_CACHE` (R48). -/
  tempCache : Byte
  /-- `SWINGH_CACHE` (R48). -/
  swinghCache : Byte
  /-- RAW (20_memory.md R60). -/
  raw : Memory 32
  /-- DBUF (20_memory.md R64). -/
  dbuf : List Host.Cell
  /-- PLAN (20_memory.md R62). -/
  plan : Memory 32
  /-- MODEL's own: the draw that an entry nothing has written since block reset reads (R52, log 3). -/
  memDraw : Nat
  /-- MODEL's own: the next fresh draw (42_frame_codec.md R175, log 3). -/
  draws : Nat
  /-- MODEL's own: the parameters, which no step changes (00_scope.md R9–R13, log 4). -/
  params : Config.Params
  deriving DecidableEq, Repr

/-- The block right after block reset (10_state.md R51, 70_reset_and_hazards.md R260): no memory entry is written, so
each reads its draw (R52); no host move is pending; the parameters are the defaults (log 5). -/
def State.reset : State where
  pending := []
  status := 0
  proto := 0
  bits := 0
  value := 0
  address := 0
  command := 0
  mfr := mfrReset
  rawlen := 0
  mtick := 0
  stick := 0
  used := 0
  result := 0
  planlen := 0
  ac := acTemplate
  tempCache := tempCacheReset
  swinghCache := swinghMiddle
  raw := []
  dbuf := []
  plan := []
  memDraw := 0
  draws := 1
  params := defaultParams

end Sys2Proof.Machine
end

