-- ==== Sys2Proof/Machine/Flags.lean ====
section
/-! DEFINITION. The bits of `STATUS` (10_state.md R33–R36) and the ways a command ends (00_scope.md R18). -/

namespace Sys2Proof.Machine

/-- `OK`, bit 0 of `STATUS` (R34). -/
def State.ok (s : State) : Bool := s.status.getLsbD 0

/-- `IGN`, bit 1 of `STATUS` (R35). -/
def State.ign (s : State) : Bool := s.status.getLsbD 1

/-- `ILL`, bit 2 of `STATUS` (R36). -/
def State.ill (s : State) : Bool := s.status.getLsbD 2

/-- Write `OK` and `IGN`, keeping `ILL` and the reserved bits (R34–R36). -/
def writeOutcome (ok ign : Bool) (s : State) : State :=
  { s with status :=
      s.status &&& 0xFC#8 ||| (if ok then 0x01#8 else 0#8) ||| (if ign then 0x02#8 else 0#8) }

/-- `IGN <- 0; succeed` (00_scope.md R18). -/
def succeed (s : State) : State := writeOutcome true false s

/-- `IGN <- 0; fail(kind)` (R18): `OK <- 0`. The kind is a ghost and is not recorded (60_exceptions.md R241). -/
def fail (_kind : FailKind) (s : State) : State := writeOutcome false false s

/-- `ignore` (R18, 10_state.md R35): the setter ends with `OK = 1` and `IGN = 1`. -/
def ignore (s : State) : State := writeOutcome true true s

/-- `IllegalCommand` (60_exceptions.md R244): `ILL <- 1; OK <- 0; IGN <- 0`, nothing else changes. -/
def raiseIllegalCommand (s : State) : State := { s with status := s.status &&& 0xF8#8 ||| 0x04#8 }

end Sys2Proof.Machine
end

