-- ==== Sys2Proof/Machine/Memory.lean ====
section
/-! DEFINITION. The operations on a memory space (20_memory.md): canonical form, the stored element at an index, and
the one write, of a run of consecutive elements. -/

namespace Sys2Proof

/-- The canonical form: indices strictly rising and below the capacity. An index not listed holds no stored element,
and a listed one holds one, so equal contents are equal lists (log 2). -/
def Memory.wf {w : Nat} (cap : Nat) (m : Memory w) : Bool :=
  decide ((m.map (·.1)).Pairwise (· < ·)) && m.all (fun c => decide (c.1 < cap))

/-- The stored element at index `i`, `none` where nothing has been written. -/
def Memory.stored {w : Nat} : Memory w → Nat → Option (BitVec w)
  | [], _ => none
  | (j, v) :: m, i => if j = i then some v else Memory.stored m i

/-- The elements `vs` at the indices from `base` up. -/
def Memory.indexed {w : Nat} : Nat → List (BitVec w) → Memory w
  | _, [] => []
  | base, v :: vs => (base, v) :: Memory.indexed (base + 1) vs

/-- Write the elements `vs` at the indices from `base` up, leaving every other index alone. -/
def Memory.writeRun {w : Nat} (m : Memory w) (base : Nat) (vs : List (BitVec w)) : Memory w :=
  m.filter (fun c => decide (c.1 < base)) ++ Memory.indexed base vs ++
    m.filter (fun c => decide (base + vs.length ≤ c.1))

/-- Write one element (00_scope.md R17). -/
def Memory.write {w : Nat} (m : Memory w) (i : Nat) (v : BitVec w) : Memory w := Memory.writeRun m i [v]

end Sys2Proof
end

