-- ==== Sys2Proof/Machine/Operands.lean ====
section
/-! DEFINITION. What a command reads: RAW samples with the absent mark ⊥, DBUF and PLAN elements, bytes of the A/C
register file, and the template set an EXTRACT selects (00_scope.md R17, 20_memory.md, 40_calibrator_extractor.md R125). -/

namespace Sys2Proof.Machine

/-- RAW[i]: the stored entry, or the draw of the last block reset where nothing wrote it (10_state.md R52). -/
def State.rawEntry (s : State) (i : Nat) : Duration :=
  (Memory.stored s.raw i).getD (Config.rawDraw s.memDraw i)

/-- PLAN[i] (20_memory.md R62, 10_state.md R52). -/
def State.planEntry (s : State) (i : Nat) : Duration :=
  (Memory.stored s.plan i).getD (Config.planDraw s.memDraw i)

/-- Byte i of a DBUF content, with the draw of unwritten bytes. -/
def dbufAt (memDraw : Nat) (m : Memory 8) (i : Nat) : Byte :=
  (Memory.stored m i).getD (Config.dbufDraw memDraw i)

/-- DBUF[i] (20_memory.md R64, 10_state.md R52). -/
def State.dbufByte (s : State) (i : Nat) : Byte := dbufAt s.memDraw s.dbuf i

/-- DBUF[0..n-1]. -/
def State.dbufBytes (s : State) (n : Nat) : List Byte := (List.range n).map s.dbufByte

/-- S[i] (00_scope.md R17). -/
def State.acByte (s : State) (i : Fin 27) : Byte := s.ac[i]

/-- `MemRead(RAW, i)`: the sample, or ⊥ (`none`) at or beyond `RAWLEN` (20_memory.md R61). -/
def State.sample (s : State) (i : Nat) : Option Nat :=
  if i < s.rawlen.toNat then some (s.rawEntry i).toNat else none

/-- A template set (40_calibrator_extractor.md R125). -/
structure Template where
  oneMark : Nat
  oneSpace : Nat
  zeroMark : Nat
  zeroSpace : Nat
  tol : Nat
  exc : Nat
  lsbFirst : Bool
  deriving DecidableEq, Repr

/-- `Tword(mt, st)` (R125). -/
def wordTemplate (p : Config.Params) (mt st : Nat) : Template where
  oneMark := 1 * mt
  oneSpace := 3 * st
  zeroMark := 1 * mt
  zeroSpace := 1 * st
  tol := p.tWord
  exc := p.eWord
  lsbFirst := p.wordLsbFirst

/-- `Tframe` (R125): nominal ticks, bytes least significant bit first. -/
def frameTemplate (p : Config.Params) : Template where
  oneMark := 1 * p.tau
  oneSpace := 3 * p.tau
  zeroMark := 1 * p.tau
  zeroSpace := 1 * p.tau
  tol := p.tAc
  exc := p.eAc
  lsbFirst := true

/-- The set EXTRACT uses: `Tword(MTICK, STICK)` for tsel = 0, `Tframe` for tsel = 1 (R129). -/
def selectTemplate (tsel : Bool) (s : State) : Template :=
  if tsel then frameTemplate s.params else wordTemplate s.params s.mtick.toNat s.stick.toNat

end Sys2Proof.Machine
end

