-- ==== Sys2Proof/Machine/Ops.lean ====
section
/-! DEFINITION. The shared operations on the state: result, A/C byte and DBUF writes, the plan write of a send, the
draws, the host port and block reset. IllegalCommand stands in Flags.lean (`raiseIllegalCommand`); there is no return
from it (60_exceptions.md R248). -/

namespace Sys2Proof.Machine

/-- `S[i] <- v` (00_scope.md R17). -/
def State.setAc (s : State) (i : Fin 27) (v : Byte) : State := { s with ac := s.ac.set i v }

/-- `RESULT <- v; IGN <- 0; succeed`, the end of every getter. -/
def giveResult (v : BitVec 8) (s : State) : State := succeed { s with result := v }

/-- Write the bytes `vs` to DBUF from index 0. -/
def State.storeDbuf (s : State) (vs : List Byte) : State := { s with dbuf := Memory.writeRun s.dbuf 0 vs }

/-- Give each of DBUF[0..n-1] an unspecified value, a fresh draw (42_frame_codec.md R175, log 6). -/
def drawDbuf (n : Nat) (s : State) : State :=
  { s with
    dbuf := Memory.writeRun s.dbuf 0 ((List.range n).map (Config.dbufDraw s.draws))
    draws := s.draws + 1 }

/-- `r + 1` copies of a frame, one after another (41_word_codec.md R142, 42_frame_codec.md R160). -/
def repeatFrame (frame : List Nat) (r : Nat) : List Nat := (List.replicate (r + 1) frame).flatten

/-- Write a plan of durations to PLAN from index 0 and its length to `PLANLEN` (20_memory.md R63). A length that 16
bits cannot hold leaves `PLANLEN` a free value (10_state.md R46, log 7). -/
def storePlan (p : List Nat) (s : State) : State :=
  { s with
    plan := Memory.writeRun s.plan 0 (p.map (BitVec.ofNat 32))
    planlen := if p.length < 2 ^ 16 then BitVec.ofNat 16 p.length else Config.planLenDraw s.draws
    draws := if p.length < 2 ^ 16 then s.draws else s.draws + 1 }

/-- The failure of a send: `PLANLEN <- 0; fail(structural)` (20_memory.md R63, 10_state.md R46). -/
def failSend (s : State) : State := fail .structural { s with planlen := 0 }

/-- Write the plan of `r + 1` copies of `frame` per 20_memory.md R63: wholly, or not at all where it is longer than
`PLAN_CAP`. -/
def writePlan (frame : List Nat) (r : Nat) (s : State) : State :=
  if s.params.planCap < frame.length * (r + 1) then failSend s
  else succeed (storePlan (repeatFrame frame r) s)

/-- What a host read gives, as an unsigned number (10_state.md R31, 20_memory.md R66, R69); `none` for an access the
table does not admit. -/
def hostRead (p : Port) (s : State) : Option Nat :=
  match p with
  | .cmd => none
  | .status => some s.status.toNat
  | .proto => some s.proto.toNat
  | .bits => some s.bits.toNat
  | .valueLo => some (s.value.extractLsb' 0 32).toNat
  | .valueHi => some (s.value.extractLsb' 32 32).toNat
  | .address => some s.address.toNat
  | .command => some s.command.toNat
  | .mfr => some s.mfr.toNat
  | .rawlen => some s.rawlen.toNat
  | .mtick => some s.mtick.toNat
  | .stick => some s.stick.toNat
  | .used => some s.used.toNat
  | .result => some s.result.toNat
  | .planlen => some s.planlen.toNat
  | .raw i => if i < s.params.rawCap then some (s.rawEntry i).toNat else none
  | .dbuf i => if i < dbufCap then some (s.dbufByte i).toNat else none
  | .plan i => if i < s.params.planCap then some (s.planEntry i).toNat else none
  | .acReg _ => none
  | .tempCache => none
  | .swinghCache => none

/-- What a host write of the value `v` does (10_state.md R31, 20_memory.md R66); `none` for an access the table does
not admit, one whose value the element cannot hold included (log 9). A write of `CMD` issues a command
(Machine/HostPort.lean). -/
def hostWrite (p : Port) (v : Nat) (s : State) : Option State :=
  match p with
  | .valueLo => if v < 2 ^ 32 then some { s with value := s.value.extractLsb' 32 32 ++ BitVec.ofNat 32 v } else none
  | .valueHi => if v < 2 ^ 32 then some { s with value := BitVec.ofNat 32 v ++ s.value.extractLsb' 0 32 } else none
  | .mfr => if v < 2 ^ 16 then some { s with mfr := BitVec.ofNat 16 v } else none
  | .rawlen => if v < 2 ^ 16 ∧ v ≤ s.params.rawCap then some { s with rawlen := BitVec.ofNat 16 v } else none
  | .raw i =>
    if v < 2 ^ 32 ∧ i < s.params.rawCap then some { s with raw := Memory.write s.raw i (BitVec.ofNat 32 v) } else none
  | .dbuf i =>
    if v < 2 ^ 8 ∧ i < dbufCap then some { s with dbuf := Memory.write s.dbuf i (BitVec.ofNat 8 v) } else none
  | .cmd => none
  | .status => none
  | .proto => none
  | .bits => none
  | .address => none
  | .command => none
  | .mtick => none
  | .stick => none
  | .used => none
  | .result => none
  | .planlen => none
  | .plan _ => none
  | .acReg _ => none
  | .tempCache => none
  | .swinghCache => none

/-- Block reset (70_reset_and_hazards.md R260): every piece of state takes its reset value and every memory entry a
fresh draw. The host's coming moves and the parameters are not the block's (log 10). -/
def applyBlockReset (s : State) : State :=
  { State.reset with pending := s.pending, params := s.params, memDraw := s.draws, draws := s.draws + 1 }

end Sys2Proof.Machine
end

