-- ==== Sys2Proof/Machine/Calibrator.lean ====
section
/-! DEFINITION. The timing calibrator and the bit/byte extractor (40_calibrator_extractor.md): matching primitives,
calibration, extraction, and the commands CAL and EXTRACT. -/

namespace Sys2Proof.Machine

/-- `Low(d, tol)` (R120). -/
def windowLow (d tol : Nat) : Nat := d * (100 - tol) / 100

/-- `High(d, tol)` (R121). -/
def windowHigh (d tol : Nat) : Nat := d * (100 + tol) / 100 + 1

/-- `Match(m, d, tol)` (R122); ⊥ (`none`) never matches. -/
def windowMatch (m : Option Nat) (d tol : Nat) : Bool :=
  match m with
  | none => false
  | some x => decide (windowLow d tol ≤ x) && decide (x ≤ windowHigh d tol)

/-- `MatchMark` (R123): the excess lengthens an expected mark. -/
def matchMark (m : Option Nat) (d tol exc : Nat) : Bool := windowMatch m (d + exc) tol

/-- `MatchSpace` (R123): the excess shortens an expected space, saturating at 0. -/
def matchSpace (m : Option Nat) (d tol exc : Nat) : Bool := windowMatch m (d - exc) tol

/-- `MatchAtLeast(m, d, tol)` (R124): ⊥ fails, a zero sample passes, the threshold is capped at `CAPTURE_TIMEOUT`. -/
def matchAtLeast (p : Config.Params) (m : Option Nat) (d tol : Nat) : Bool :=
  match m with
  | none => false
  | some x => x == 0 || decide (windowLow (min d p.captureTimeout) tol ≤ x)

/-- `Calibrate(hm, hs)` (R126): mark tick and space tick by floor division. -/
def calibrate (hm hs : Nat) : Nat × Nat := (hm / 8, hs / 4)

/-- The bit one mark/space pair carries (R127): the one template is tried first; `none` where neither matches. -/
def pairBit (t : Template) (mark space : Option Nat) : Option Bool :=
  if matchMark mark t.oneMark t.tol t.exc && matchSpace space t.oneSpace t.tol t.exc then some true
  else if matchMark mark t.zeroMark t.tol t.exc && matchSpace space t.zeroSpace t.tol t.exc then some false
  else none

/-- The value after the first `n` pairs of RAW from sample `off` (R127's loop). -/
def extractPairs (s : State) (off : Nat) (t : Template) : Nat → Option Nat
  | 0 => some 0
  | k + 1 =>
    match extractPairs s off t k with
    | none => none
    | some v =>
      match pairBit t (s.sample (off + 2 * k)) (s.sample (off + 2 * k + 1)) with
      | none => none
      | some b => some (if t.lsbFirst then v ||| b.toNat <<< k else v <<< 1 ||| b.toNat)

/-- `ExtractBits(off, n, T)` (R127): the value and the samples consumed. -/
def extractBits (s : State) (off n : Nat) (t : Template) : Option (Nat × Nat) :=
  if valueBits < n then none
  else
    match extractPairs s off t n with
    | none => none
    | some v => some (v, 2 * n)

/-- CAL (R128). -/
def execCal (s : State) : Host.Outcome State Fault Refusal :=
  if s.rawlen.toNat < 2 then .next (fail .structural s)
  else
    let ticks := calibrate (s.rawEntry 0).toNat (s.rawEntry 1).toNat
    .next (succeed { s with mtick := BitVec.ofNat 32 ticks.1, stick := BitVec.ofNat 32 ticks.2 })

/-- EXTRACT (R129). -/
def execExtract (tsel : Bool) (n offset : Nat) (s : State) : Host.Outcome State Fault Refusal :=
  if valueBits < n then .next (fail .structural s)
  else
    match extractBits s offset n (selectTemplate tsel s) with
    | none => .next (fail .timing s)
    | some (v, u) => .next (succeed { s with value := BitVec.ofNat 64 v, used := BitVec.ofNat 16 u })

end Sys2Proof.Machine
end

