-- ==== Sys2Proof/Machine/Validator.lean ====
section
/-! DEFINITION. The compliance validator (43_validator.md): the additive checksum, the XOR checksum of the word, the
sample-count bound, and the commands CSUM_CALC and CSUM_VALID. -/

namespace Sys2Proof.Machine

/-- `Checksum(b, n)` for the `n` bytes `bs` (R180): the seed and every byte but the last, modulo 256. -/
def checksum (bs : List Byte) : Byte := BitVec.ofNat 8 (checksumSeed + (bs.dropLast.map BitVec.toNat).sum)

/-- `ValidChecksum(b, n)` for the `n` bytes `bs` (R181). -/
def validChecksum (bs : List Byte) : Bool := decide (2 ≤ bs.length) && bs.getLast? == some (checksum bs)

/-- `WordChecksumOK(c)` (R184). -/
def wordChecksumOk (c : BitVec 32) : Bool :=
  c.extractLsb' 0 8 == c.extractLsb' 24 8 ^^^ c.extractLsb' 16 8 ^^^ c.extractLsb' 8 8

/-- `MinSamples(n)` (R185). -/
def minSamples (n : Nat) : Nat := 2 * n + 3

/-- CSUM_CALC (R182). -/
def execCsumCalc (len : Nat) (s : State) : Host.Outcome State Fault Refusal :=
  if dbufCap < len then .next (fail .structural s) else .next (giveResult (checksum (s.dbufBytes len)) s)

/-- CSUM_VALID (R183). -/
def execCsumValid (len : Nat) (s : State) : Host.Outcome State Fault Refusal :=
  if dbufCap < len then .next (fail .structural s)
  else if validChecksum (s.dbufBytes len) then .next (succeed s)
  else .next (fail .compliance s)

end Sys2Proof.Machine
end

