-- ==== Sys2Proof/Machine/WordCodec.lean ====
section
/-! DEFINITION. The single-word command codec (41_word_codec.md): WORD_ENCODE, WORD_SEND, WORD_DECODE. -/

namespace Sys2Proof.Machine

/-- `Encode48` (R140, 30_encoding.md R82): zero, manufacturer, device, subdevice, function, XOR checksum. -/
def encode48 (mfr : BitVec 16) (dev sub fn : Byte) : BitVec 64 :=
  0#16 ++ mfr ++ dev ++ sub ++ fn ++ (dev ^^^ sub ^^^ fn)

/-- The nominal mark and space of one bit (30_encoding.md R80). -/
def bitPair (p : Config.Params) (b : Bool) : List Nat := [1 * p.tau, if b then 3 * p.tau else 1 * p.tau]

/-- Header and data pairs and footer mark of one word frame (41_word_codec.md R142, 30_encoding.md R81): pair k carries
bit k, or bit n-1-k when `WORD_LSB_FIRST` is false. -/
def wordBody (p : Config.Params) (v : BitVec 64) (n : Nat) : List Nat :=
  [8 * p.tau, 4 * p.tau] ++
    (List.range n).flatMap (fun k => bitPair p (v.getLsbD (if p.wordLsbFirst then k else n - 1 - k))) ++
    [1 * p.tau]

/-- One frame of `WordPlan(v, n, r)` with its trailing gap (R142). -/
def wordFrame (p : Config.Params) (v : BitVec 64) (n : Nat) : List Nat :=
  wordBody p v n ++ [max (p.wordMingapT * p.tau) (p.wordFrameT * p.tau - (wordBody p v n).sum)]

/-- The trailing gap is checked only where a sample follows the footer (R144, 42_frame_codec.md R171). -/
def trailingGapOk (s : State) (off d : Nat) : Bool :=
  decide (s.rawlen.toNat ≤ off) || matchAtLeast s.params (s.sample off) d s.params.tGap

/-- `WordDecode`'s structural checks (R144). -/
def wordStructureOk (s : State) (strict : Bool) (nbits : Nat) : Bool :=
  decide (nbits ≤ valueBits) && decide (minSamples nbits ≤ s.rawlen.toNat) && (!strict || nbits == wordBits)

/-- `WordDecode`'s header check against the nominal 8τ and 4τ (R144). -/
def wordHeaderOk (s : State) : Bool :=
  matchMark (s.sample 0) (8 * s.params.tau) s.params.tWord s.params.eWord &&
    matchSpace (s.sample 1) (4 * s.params.tau) s.params.tWord s.params.eWord

/-- The private ticks of one decode (R144, 10_state.md R49). -/
def wordTicks (s : State) : Nat × Nat := calibrate (s.rawEntry 0).toNat (s.rawEntry 1).toNat

/-- `WordDecode`'s footer and optional gap, at sample `off` (R144): the footer matches the mark tick with no excess. -/
def wordFooterOk (s : State) (off : Nat) : Bool :=
  windowMatch (s.sample off) (wordTicks s).1 s.params.tWord && trailingGapOk s (off + 1) s.params.endGap

/-- The strict compliance checks of a decoded word (R144): manufacturer, then XOR checksum. -/
def wordCompliant (v : BitVec 64) (mfr : BitVec 16) : Bool :=
  v >>> 32 == mfr.setWidth 64 && wordChecksumOk (v.extractLsb' 0 32)

/-- `WordDecode(nbits, strict, mfr)` (R144): the value, or the kind of the first check that fails. -/
def wordDecode (s : State) (strict : Bool) (nbits : Nat) : Except FailKind (BitVec 64) :=
  if wordStructureOk s strict nbits then
    if wordHeaderOk s then
      match extractBits s 2 nbits (wordTemplate s.params (wordTicks s).1 (wordTicks s).2) with
      | none => .error .timing
      | some (v, u) =>
        if wordFooterOk s (2 + u) then
          if strict && !wordCompliant (BitVec.ofNat 64 v) s.mfr then .error .compliance
          else .ok (BitVec.ofNat 64 v)
        else .error .timing
    else .error .timing
  else .error .structural

/-- WORD_ENCODE (R141). -/
def execWordEncode (device subdevice function : Byte) (s : State) : Host.Outcome State Fault Refusal :=
  .next (succeed { s with value := encode48 s.mfr device subdevice function })

/-- WORD_SEND (R143). -/
def execWordSend (nbits reps : Nat) (s : State) : Host.Outcome State Fault Refusal :=
  if valueBits < nbits then .next (failSend s)
  else .next (writePlan (wordFrame s.params s.value nbits) reps s)

/-- WORD_DECODE (R145, R146). -/
def execWordDecode (strict : Bool) (nbits : Nat) (s : State) : Host.Outcome State Fault Refusal :=
  match wordDecode s strict nbits with
  | .error kind => .next (fail kind s)
  | .ok v =>
    .next (succeed { s with
      value := v
      address := v.extractLsb' 32 32
      command := v.extractLsb' 0 32
      proto := 1
      bits := BitVec.ofNat 16 nbits })

end Sys2Proof.Machine
end

