-- ==== Sys2Proof/Machine/FrameCodec.lean ====
section
/-! DEFINITION. The multi-section A/C frame codec (42_frame_codec.md): FRAME_SEND and FRAME_DECODE. -/

namespace Sys2Proof.Machine

/-- The eight pairs of one byte, least significant bit first (R160, 20_memory.md R67). -/
def bytePairs (p : Config.Params) (x : Byte) : List Nat :=
  (List.range 8).flatMap (fun k => bitPair p (x.getLsbD k))

/-- `Section(bs, gap)` (R160). -/
def frameSection (p : Config.Params) (bs : List Byte) (gap : Nat) : List Nat :=
  [8 * p.tau, 4 * p.tau] ++ bs.flatMap (bytePairs p) ++ [1 * p.tau, gap]

/-- One two-section sequence of `FramePlan` (R160). -/
def frameSequence (p : Config.Params) (bs : List Byte) : List Nat :=
  frameSection p (bs.take sec1Len) p.sectionGap ++ frameSection p (bs.drop sec1Len) p.messageGap

/-- FRAME_SEND (R161). -/
def execFrameSend (nbytes reps : Nat) (s : State) : Host.Outcome State Fault Refusal :=
  if nbytes < frameMinLen ∨ dbufCap < nbytes then .next (failSend s)
  else .next (writePlan (frameSequence s.params (s.dbufBytes nbytes)) reps s)

/-- The structural checks (R163, R173, R164): whole bytes, a strict width of 216 or 128, within DBUF, enough samples. -/
def frameStructureOk (s : State) (strict : Bool) (nbits : Nat) : Bool :=
  nbits % 8 == 0 && (!strict || nbits == 8 * acLen || nbits == 8 * acLenShort) &&
    decide (nbits / 8 ≤ dbufCap) && decide (minSamples nbits ≤ s.rawlen.toNat)

/-- Header1 and Header2 (R166, R169): the nominal 8τ and 4τ, no calibration. -/
def frameHeaderOk (s : State) (off : Nat) : Bool :=
  matchMark (s.sample off) (8 * s.params.tau) s.params.tAc s.params.eAc &&
    matchSpace (s.sample (off + 1)) (4 * s.params.tau) s.params.tAc s.params.eAc

/-- SectionFooter and SectionGap (R168). -/
def sectionEndOk (s : State) (off : Nat) : Bool :=
  matchMark (s.sample off) (1 * s.params.tau) s.params.tAc s.params.eAc &&
    matchSpace (s.sample (off + 1)) s.params.sectionGap s.params.tAc s.params.eAc

/-- MessageFooter and MessageGap (R171): the gap is checked only where a sample follows the footer. -/
def messageEndOk (s : State) (off : Nat) : Bool :=
  matchMark (s.sample off) (1 * s.params.tau) s.params.tAc s.params.eAc &&
    trailingGapOk s (off + 1) s.params.messageGap

/-- What the byte loop carries (R165): the sample offset, the byte counter and DBUF. -/
structure Cursor where
  off : Nat
  count : Nat
  buf : Memory 8
  deriving DecidableEq, Repr

/-- `ByteLoop(off, i, limit)` (R165), `fuel` bounding the rounds: it stops without failing when fewer than 16 samples
remain, and fails with kind timing on a pair that matches neither template. -/
def byteLoop (s : State) (limit : Nat) : Nat → Cursor → Except FailKind Cursor
  | 0, c => .ok c
  | fuel + 1, c =>
    if 16 ≤ s.rawlen.toNat - c.off ∧ c.count < limit then
      match extractBits s c.off 8 (frameTemplate s.params) with
      | none => .error .timing
      | some (x, u) => byteLoop s limit fuel ⟨c.off + u, c.count + 1, Memory.write c.buf c.count (BitVec.ofNat 8 x)⟩
    else .ok c

/-- Section 2 and the message's end, from the sample after the section gap (R169–R171). -/
def frameSection2 (s : State) (nbits : Nat) (c : Cursor) : Except FailKind Cursor :=
  if frameHeaderOk s c.off then
    match byteLoop s (nbits / 8) (nbits / 8) { c with off := c.off + 2 } with
    | .error kind => .error kind
    | .ok c' => if messageEndOk s c'.off then .ok c' else .error .timing
  else .error .timing

/-- The timing part of FRAME_DECODE (R162): Header1, Data1, SectionFooter, SectionGap, then section 2. -/
def frameTiming (s : State) (nbits : Nat) : Except FailKind Cursor :=
  if frameHeaderOk s 0 then
    match byteLoop s sec1Len sec1Len ⟨2, 0, s.dbuf⟩ with
    | .error kind => .error kind
    | .ok c => if sectionEndOk s c.off then frameSection2 s nbits { c with off := c.off + 2 } else .error .timing
  else .error .timing

/-- The strict signature check over DBUF as it stands (R172). -/
def signatureOk (memDraw : Nat) (m : Memory 8) : Bool :=
  dbufAt memDraw m 0 == 0x02#8 && dbufAt memDraw m 1 == 0x20#8 &&
    dbufAt memDraw m 8 == 0x02#8 && dbufAt memDraw m 9 == 0x20#8

/-- The strict checks: signature (R172), then checksum over the bytes decoded (R174). -/
def frameCompliant (s : State) (c : Cursor) : Bool :=
  signatureOk s.memDraw c.buf && validChecksum ((List.range c.count).map (dbufAt s.memDraw c.buf))

/-- FRAME_DECODE's verdict (R162): the decoded bytes, or the kind of the first check that fails. -/
def frameDecode (s : State) (strict : Bool) (nbits : Nat) : Except FailKind Cursor :=
  if frameStructureOk s strict nbits then
    match frameTiming s nbits with
    | .error kind => .error kind
    | .ok c => if strict && !frameCompliant s c then .error .compliance else .ok c
  else .error .structural

/-- The number of low DBUF bytes a decode that failed after its structural checks leaves unspecified (R175). -/
def drawnBytes (nbits : Nat) : Nat := min (max sec1Len (nbits / 8)) dbufCap

/-- FRAME_DECODE (R162, effects R175). -/
def execFrameDecode (strict : Bool) (nbits : Nat) (s : State) : Host.Outcome State Fault Refusal :=
  match frameDecode s strict nbits with
  | .ok c => .next (succeed { s with dbuf := c.buf, proto := 2, bits := BitVec.ofNat 16 (8 * c.count) })
  | .error .structural => .next (fail .structural s)
  | .error kind => .next (fail kind (drawDbuf (drawnBytes nbits) s))

end Sys2Proof.Machine
end

