-- ==== Sys2Proof/Machine/AcRegisters.lean ====
section
/-! DEFINITION. The A/C state register file as a whole (44_ac_register_file.md): reset, raw access, send, variants. -/

namespace Sys2Proof.Machine

/-- The variants (30_encoding.md R90). -/
inductive Variant where
  | unknown
  | lke
  | nke
  | dke
  | jke
  deriving DecidableEq, Repr

/-- Variant codes (R90). -/
def Variant.code : Variant → Byte
  | .unknown => 0
  | .lke => 1
  | .nke => 2
  | .dke => 3
  | .jke => 4

/-- `Classify(S)` (R196): the first signature that holds, in this order, wins. -/
def classify (ac : Vector Byte 27) : Variant :=
  if ac[17] == 0x00#8 && ac[23].getLsbD 7 then .jke
  else if ac[17] == 0x06#8 && ac[13] &&& 0x0F#8 == 0x02#8 then .lke
  else if ac[23] == 0x01#8 then .dke
  else if ac[17] == 0x06#8 then .nke
  else .unknown

/-- `FixChecksum` (R192): `S[L-1] <- Checksum(S, L)`. -/
def fixChecksum (s : State) : State := s.setAc 26 (checksum s.ac.toList)

/-- What the block can do with a horizontal direction, keyed by variant (30_encoding.md R87): the value written for a
valid request, `none` where nothing is written. -/
def swinghWritten (v : Variant) (d : Byte) : Option Byte :=
  match v with
  | .dke => some d
  | .nke => some swinghMiddle
  | .lke => some swinghMiddle
  | .jke => none
  | .unknown => none

/-- `SetSwingH(d)` (45_ac_accessors.md R221): `none` where the direction is ignored. -/
def setSwingH (d : Byte) (s : State) : Option State :=
  if swinghCodes.contains d then
    let s' := { s with swinghCache := d }
    match swinghWritten (classify s.ac) d with
    | none => some s'
    | some x => some (s'.setAc 17 x)
  else none

/-- AC_RESET (R191). -/
def execAcReset (s : State) : Host.Outcome State Fault Refusal :=
  .next (succeed { s with ac := acTemplate, tempCache := tempCacheReset, swinghCache := swinghMiddle })

/-- AC_GET_RAW (R193). -/
def execAcGetRaw (s : State) : Host.Outcome State Fault Refusal :=
  .next (succeed ((fixChecksum s).storeDbuf (fixChecksum s).ac.toList))

/-- DBUF[0..L-1] as the register file's bytes. -/
def dbufAsAc (s : State) : Vector Byte 27 := ⟨(s.dbufBytes 27).toArray, by simp [State.dbufBytes]⟩

/-- AC_SET_RAW (R194). -/
def execAcSetRaw (s : State) : Host.Outcome State Fault Refusal := .next (succeed { s with ac := dbufAsAc s })

/-- AC_SEND (R195): the checksum fix-up stays even where the plan does not fit. -/
def execAcSend (reps : Nat) (s : State) : Host.Outcome State Fault Refusal :=
  .next (writePlan (frameSequence s.params (fixChecksum s).ac.toList) reps (fixChecksum s))

/-- AC_SET_MODEL's first writes, the same for every variant (R198). -/
def clearVariant (s : State) : State :=
  (((s.setAc 13 (s.acByte 13 &&& 0xF0#8)).setAc 17 0x00#8).setAc 23 0x81#8).setAc 25 0x00#8

/-- AC_SET_MODEL's writes for LKE (R198). -/
def setLke (s : State) : State := (s.setAc 13 (s.acByte 13 ||| 0x02#8)).setAc 17 0x06#8

/-- AC_SET_MODEL's writes for NKE (R198). -/
def setNke (s : State) : State := s.setAc 17 0x06#8

/-- AC_SET_MODEL's writes for DKE (R198): the swing setter runs after the marker bytes, so it sees DKE. -/
def setDke (s : State) : State :=
  let s' := (s.setAc 23 0x01#8).setAc 25 0x06#8
  (setSwingH s'.swinghCache s').getD s'

/-- AC_SET_MODEL (R198). -/
def execAcSetModel (variant : Byte) (s : State) : Host.Outcome State Fault Refusal :=
  if variant == Variant.lke.code then .next (succeed (setLke (clearVariant s)))
  else if variant == Variant.nke.code then .next (succeed (setNke (clearVariant s)))
  else if variant == Variant.dke.code then .next (succeed (setDke (clearVariant s)))
  else if variant == Variant.jke.code then .next (succeed (clearVariant s))
  else .next (ignore s)

/-- AC_GET_MODEL (R197). -/
def execAcGetModel (s : State) : Host.Outcome State Fault Refusal := .next (giveResult (classify s.ac).code s)

end Sys2Proof.Machine
end

