-- ==== Sys2Proof/Machine/AcAccessors.lean ====
section
/-! DEFINITION. The A/C field accessors (45_ac_accessors.md). -/

namespace Sys2Proof.Machine

/-- Set the power bit `S[13][0]` (R210, R212). -/
def powerOn (s : State) : State := s.setAc 13 (s.acByte 13 ||| 0x01#8)

/-- Clear the power bit (R211, R212). -/
def powerOff (s : State) : State := s.setAc 13 (s.acByte 13 &&& 0xFE#8)

/-- `SetTemp(t, remember)` (R214). -/
def setTemp (t : Nat) (remember : Bool) (s : State) : State :=
  let t' := min (max t tempMin) tempMax
  { s.setAc 14 (BitVec.ofNat 8 (t' <<< 1)) with tempCache := if remember then BitVec.ofNat 8 t' else s.tempCache }

/-- Write the mode nibble `S[13][7:4]` (R217). -/
def setModeNibble (mode : Byte) (s : State) : State := s.setAc 13 (s.acByte 13 &&& 0x0F#8 ||| mode <<< 4)

/-- `SetQuiet(0)` (R226). -/
def clearQuiet (s : State) : State := s.setAc 21 (s.acByte 21 &&& 0xFE#8)

/-- `SetPowerful(0)` (R229). -/
def clearPowerful (s : State) : State := s.setAc 21 (s.acByte 21 &&& 0xDF#8)

/-- `SetQuiet(b)` (R226): setting it clears powerful first. -/
def setQuiet (b : Bool) (s : State) : State :=
  if b then (clearPowerful s).setAc 21 ((clearPowerful s).acByte 21 ||| 0x01#8) else clearQuiet s

/-- `SetPowerful(b)` (R229): setting it clears quiet first. -/
def setPowerful (b : Bool) (s : State) : State :=
  if b then (clearQuiet s).setAc 21 ((clearQuiet s).acByte 21 ||| 0x20#8) else clearPowerful s

/-- AC_ON (R210). -/
def execAcOn (s : State) : Host.Outcome State Fault Refusal := .next (succeed (powerOn s))

/-- AC_OFF (R211). -/
def execAcOff (s : State) : Host.Outcome State Fault Refusal := .next (succeed (powerOff s))

/-- AC_SET_POWER (R212). -/
def execAcSetPower (b : Bool) (s : State) : Host.Outcome State Fault Refusal :=
  .next (succeed (if b then powerOn s else powerOff s))

/-- AC_GET_POWER (R213). -/
def execAcGetPower (s : State) : Host.Outcome State Fault Refusal := .next (giveResult (s.acByte 13 &&& 0x01#8) s)

/-- AC_SET_TEMP (R215). -/
def execAcSetTemp (t : Nat) (rem : Bool) (s : State) : Host.Outcome State Fault Refusal :=
  .next (succeed (setTemp t rem s))

/-- AC_GET_TEMP (R216). -/
def execAcGetTemp (s : State) : Host.Outcome State Fault Refusal := .next (giveResult (s.acByte 14 >>> 1) s)

/-- AC_SET_MODE (R217): fan forces 27 without remembering, another recognised mode restores the remembered
temperature, an unrecognised one falls back to auto and leaves the temperature alone. -/
def execAcSetMode (mode : Byte) (s : State) : Host.Outcome State Fault Refusal :=
  if mode == modeFan then .next (succeed (setModeNibble modeFan (setTemp tempFan false s)))
  else if [modeAuto, modeCool, modeHeat, modeDry].contains mode then
    .next (succeed (setModeNibble mode (setTemp s.tempCache.toNat true s)))
  else .next (succeed (setModeNibble modeAuto s))

/-- AC_GET_MODE (R218). -/
def execAcGetMode (s : State) : Host.Outcome State Fault Refusal := .next (giveResult (s.acByte 13 >>> 4) s)

/-- The vertical swing nibble for a request (R219): auto as it is, anything else clamped into the range. -/
def swingvNibble (e : Nat) : Byte :=
  if e = swingvAuto then BitVec.ofNat 8 e else BitVec.ofNat 8 (min (max e swingvUp) swingvDown)

/-- AC_SET_SWINGV (R219). -/
def execAcSetSwingV (e : Nat) (s : State) : Host.Outcome State Fault Refusal :=
  .next (succeed (s.setAc 16 (s.acByte 16 &&& 0xF0#8 ||| swingvNibble e)))

/-- AC_GET_SWINGV (R220). -/
def execAcGetSwingV (s : State) : Host.Outcome State Fault Refusal := .next (giveResult (s.acByte 16 &&& 0x0F#8) s)

/-- AC_SET_SWINGH (R222). -/
def execAcSetSwingH (dir : Byte) (s : State) : Host.Outcome State Fault Refusal :=
  match setSwingH dir s with
  | none => .next (ignore s)
  | some s' => .next (succeed s')

/-- AC_GET_SWINGH (R223): the buffer byte, not the cache. -/
def execAcGetSwingH (s : State) : Host.Outcome State Fault Refusal := .next (giveResult (s.acByte 17) s)

/-- AC_SET_FAN (R224). -/
def execAcSetFan (speed : Nat) (s : State) : Host.Outcome State Fault Refusal :=
  if speed ≤ fanMax ∨ speed = fanAuto then
    .next (succeed (s.setAc 16
      (s.acByte 16 &&& 0x0F#8 ||| BitVec.ofNat 8 (((speed + fanOffset) % 16) <<< 4))))
  else .next (ignore s)

/-- AC_GET_FAN (R225): the nibble less the offset, wrapping modulo 256. -/
def execAcGetFan (s : State) : Host.Outcome State Fault Refusal :=
  .next (giveResult (BitVec.ofNat 8 ((s.acByte 16).toNat / 16 + 256 - fanOffset)) s)

/-- AC_SET_QUIET (R227). -/
def execAcSetQuiet (b : Bool) (s : State) : Host.Outcome State Fault Refusal := .next (succeed (setQuiet b s))

/-- AC_GET_QUIET (R228). -/
def execAcGetQuiet (s : State) : Host.Outcome State Fault Refusal := .next (giveResult (s.acByte 21 &&& 0x01#8) s)

/-- AC_SET_POWERFUL (R230). -/
def execAcSetPowerful (b : Bool) (s : State) : Host.Outcome State Fault Refusal := .next (succeed (setPowerful b s))

/-- AC_GET_POWERFUL (R231). -/
def execAcGetPowerful (s : State) : Host.Outcome State Fault Refusal :=
  .next (giveResult (s.acByte 21 >>> 5 &&& 0x01#8) s)

end Sys2Proof.Machine
end

