-- ==== Sys2Proof/Machine/Dispatch.lean ====
section
/-! DEFINITION. The meaning of every command (30_encoding.md R104): one arm per constructor. -/

namespace Sys2Proof.Machine

def exec (i : Instr) (s : State) : Host.Outcome State Fault Refusal :=
  match i with
  | .cal => Sys2Proof.Machine.execCal s
  | .extract tsel n offset => Sys2Proof.Machine.execExtract tsel n offset s
  | .wordEncode device subdevice function => Sys2Proof.Machine.execWordEncode device subdevice function s
  | .wordSend nbits reps => Sys2Proof.Machine.execWordSend nbits reps s
  | .wordDecode strict nbits => Sys2Proof.Machine.execWordDecode strict nbits s
  | .frameSend nbytes reps => Sys2Proof.Machine.execFrameSend nbytes reps s
  | .frameDecode strict nbits => Sys2Proof.Machine.execFrameDecode strict nbits s
  | .csumCalc len => Sys2Proof.Machine.execCsumCalc len s
  | .csumValid len => Sys2Proof.Machine.execCsumValid len s
  | .acReset => Sys2Proof.Machine.execAcReset s
  | .acGetRaw => Sys2Proof.Machine.execAcGetRaw s
  | .acSetRaw => Sys2Proof.Machine.execAcSetRaw s
  | .acSend reps => Sys2Proof.Machine.execAcSend reps s
  | .acSetModel variant => Sys2Proof.Machine.execAcSetModel variant s
  | .acGetModel => Sys2Proof.Machine.execAcGetModel s
  | .acOn => Sys2Proof.Machine.execAcOn s
  | .acOff => Sys2Proof.Machine.execAcOff s
  | .acSetPower b => Sys2Proof.Machine.execAcSetPower b s
  | .acGetPower => Sys2Proof.Machine.execAcGetPower s
  | .acSetMode mode => Sys2Proof.Machine.execAcSetMode mode s
  | .acGetMode => Sys2Proof.Machine.execAcGetMode s
  | .acSetTemp t rem => Sys2Proof.Machine.execAcSetTemp t rem s
  | .acGetTemp => Sys2Proof.Machine.execAcGetTemp s
  | .acSetSwingV e => Sys2Proof.Machine.execAcSetSwingV e s
  | .acGetSwingV => Sys2Proof.Machine.execAcGetSwingV s
  | .acSetSwingH dir => Sys2Proof.Machine.execAcSetSwingH dir s
  | .acGetSwingH => Sys2Proof.Machine.execAcGetSwingH s
  | .acSetFan speed => Sys2Proof.Machine.execAcSetFan speed s
  | .acGetFan => Sys2Proof.Machine.execAcGetFan s
  | .acSetQuiet b => Sys2Proof.Machine.execAcSetQuiet b s
  | .acGetQuiet => Sys2Proof.Machine.execAcGetQuiet s
  | .acSetPowerful b => Sys2Proof.Machine.execAcSetPowerful b s
  | .acGetPowerful => Sys2Proof.Machine.execAcGetPowerful s

end Sys2Proof.Machine
end

