-- ==== Sys2Proof/Machine/HostPort.lean ====
section
/-! DEFINITION. One turn of the host (10_state.md R31, R32; 20_memory.md R72): a command word written to `CMD`, a
write or read of the port, or block reset. -/

namespace Sys2Proof.Machine

/-- A word written to `CMD` (10_state.md R32): decoding comes first, an illegal word raises IllegalCommand
(60_exceptions.md R244, R245). -/
def issueWord (w : BitVec 32) (s : State) : Host.Outcome State Fault Refusal :=
  match decode w with
  | .ok i => exec i s
  | .error _ => .next (raiseIllegalCommand s)

/-- A host write: to `CMD`, a command; elsewhere as `hostWrite` says; refused where the table does not admit it
(70_reset_and_hazards.md R266, log 9). -/
def takeWrite (p : Port) (v : Nat) (s : State) : Host.Outcome State Fault Refusal :=
  if p = .cmd ∧ v < 2 ^ 32 then issueWord (BitVec.ofNat 32 v) s
  else
    match hostWrite p v s with
    | some s' => .next s'
    | none => .refused (.hostAccess (.write p v))

/-- A host read: no side effect (20_memory.md R69); refused where the table does not admit it. -/
def takeRead (p : Port) (s : State) : Host.Outcome State Fault Refusal :=
  match hostRead p s with
  | some _ => .next s
  | none => .refused (.hostAccess (.read p))

/-- One host move, in the state it finds. -/
def takeMove (m : HostMove) (s : State) : Host.Outcome State Fault Refusal :=
  match m with
  | .write p v => takeWrite p v s
  | .read p => takeRead p s
  | .blockReset => .next (applyBlockReset s)

/-- The block takes the next host move off the list; with none it is idle and holds its state (60_exceptions.md R255,
70_reset_and_hazards.md R271). -/
def takeTurn (s : State) : Host.Outcome State Fault Refusal :=
  match s.pending with
  | [] => .next s
  | m :: rest => takeMove m { s with pending := rest }

end Sys2Proof.Machine
end

