-- ==== Sys2Proof/Machine/Step.lean ====
section
/-! DEFINITION. The step of the machine, and the placing of a command word where the step takes its next one. -/

namespace Sys2Proof.Machine

/-- One step: the next host move (Machine/HostPort.lean). -/
def step (s : State) : Host.Outcome State Fault Refusal := takeTurn s

/-- `s` with the word `w` as the host's next write to `CMD` (10_state.md R32, log 1). -/
def State.withFetchWord (s : State) (_nbits w : Nat) : State := { s with pending := .write .cmd w :: s.pending }

end Sys2Proof.Machine
end

