-- ==== Sys2Proof/Safety.lean ====
section
/-! DEFINITION. The terms the claims use: what a command leaves unchanged, how it ends, and the invariant every step
keeps. -/

namespace Sys2Proof.Machine

/-- The registers of 10_state.md R30 but the A/C file, under the model's names. -/
inductive Reg where
  | status
  | proto
  | bits
  | value
  | address
  | command
  | mfr
  | rawlen
  | mtick
  | stick
  | used
  | result
  | planlen
  | tempCache
  | swinghCache
  deriving DecidableEq, Repr

/-- What a register holds, as an unsigned number (00_scope.md R16). -/
def State.reg (s : State) : Reg → Nat
  | .status => s.status.toNat
  | .proto => s.proto.toNat
  | .bits => s.bits.toNat
  | .value => s.value.toNat
  | .address => s.address.toNat
  | .command => s.command.toNat
  | .mfr => s.mfr.toNat
  | .rawlen => s.rawlen.toNat
  | .mtick => s.mtick.toNat
  | .stick => s.stick.toNat
  | .used => s.used.toNat
  | .result => s.result.toNat
  | .planlen => s.planlen.toNat
  | .tempCache => s.tempCache.toNat
  | .swinghCache => s.swinghCache.toNat

/-- From `s` to `t`, every register but `regs` and every byte of the A/C file but `bytes` is unchanged, as are the
host's coming moves and the parameters. -/
def KeepsBut (regs : List Reg) (bytes : List (Fin 27)) (s t : State) : Prop :=
  (∀ r, r ∉ regs → t.reg r = s.reg r) ∧ (∀ i, i ∉ bytes → t.acByte i = s.acByte i) ∧
    t.pending = s.pending ∧ t.params = s.params

/-- Every RAW entry reads as before. -/
def RawKept (s t : State) : Prop := ∀ i, t.rawEntry i = s.rawEntry i

/-- Every DBUF byte reads as before. -/
def DbufKept (s t : State) : Prop := ∀ i, t.dbufByte i = s.dbufByte i

/-- Every PLAN entry reads as before. -/
def PlanKept (s t : State) : Prop := ∀ i, t.planEntry i = s.planEntry i

/-- Every element of the three memories reads as before. -/
def MemoriesKept (s t : State) : Prop := RawKept s t ∧ DbufKept s t ∧ PlanKept s t

/-- The command ended with these values of `OK` and `IGN`; `ILL` and the reserved bits of `STATUS` are unchanged
(10_state.md R33–R36). -/
def EndsWith (ok ign : Bool) (s t : State) : Prop :=
  t.ok = ok ∧ t.ign = ign ∧ ∀ b, 2 ≤ b → t.status.getLsbD b = s.status.getLsbD b

/-- The parameters have the spec's default values, the two OPEN capacities aside (00_scope.md R9–R13). -/
def DefaultTiming (p : Config.Params) : Prop :=
  p = { defaultParams with rawCap := p.rawCap, planCap := p.planCap }

/-- The durations `e` from index 0 are a single-word message of the `n` low bits of `v` (30_encoding.md R80, R81): header,
data pairs, footer mark. -/
def WordLayout (p : Config.Params) (v : BitVec 64) (n : Nat) (e : Nat → Nat) : Prop :=
  e 0 = 8 * p.tau ∧ e 1 = 4 * p.tau ∧
  (∀ k, k < n → e (2 + 2 * k) = p.tau ∧
    e (3 + 2 * k) = if v.getLsbD (if p.wordLsbFirst then k else n - 1 - k) then 3 * p.tau else p.tau) ∧
  e (2 * n + 2) = p.tau

/-- The durations `e` from index 0 are a framed A/C message of the bytes `b 0 .. b (n-1)`, both gaps included
(30_encoding.md R80, R92). -/
def FrameLayout (p : Config.Params) (b : Nat → Byte) (n : Nat) (e : Nat → Nat) : Prop :=
  e 0 = 8 * p.tau ∧ e 1 = 4 * p.tau ∧
  (∀ k, k < 8 → ∀ j, j < 8 → e (2 + 16 * k + 2 * j) = p.tau ∧
    e (3 + 16 * k + 2 * j) = if (b k).getLsbD j then 3 * p.tau else p.tau) ∧
  e 130 = p.tau ∧ e 131 = p.sectionGap ∧ e 132 = 8 * p.tau ∧ e 133 = 4 * p.tau ∧
  (∀ k, 8 ≤ k → k < n → ∀ j, j < 8 → e (6 + 16 * k + 2 * j) = p.tau ∧
    e (7 + 16 * k + 2 * j) = if (b k).getLsbD j then 3 * p.tau else p.tau) ∧
  e (16 * n + 6) = p.tau ∧ e (16 * n + 7) = p.messageGap

/-- RAW holds a single-word message of `n` bits, pair `k` carrying `bit k`, as WORD_DECODE's lenient checks of
41_word_codec.md R144 want it: width and sample count, nominal header, data pairs against the calibrated templates,
footer against the mark tick, and a long enough gap where a sample follows. -/
def WordMatches (s : State) (n : Nat) (bit : Nat → Bool) : Prop :=
  n ≤ 64 ∧ 2 * n + 3 ≤ s.rawlen.toNat ∧
  matchMark (s.sample 0) (8 * s.params.tau) s.params.tWord s.params.eWord = true ∧
  matchSpace (s.sample 1) (4 * s.params.tau) s.params.tWord s.params.eWord = true ∧
  (∀ k, k < n → pairBit (wordTemplate s.params ((s.rawEntry 0).toNat / 8) ((s.rawEntry 1).toNat / 4))
    (s.sample (2 + 2 * k)) (s.sample (3 + 2 * k)) = some (bit k)) ∧
  windowMatch (s.sample (2 * n + 2)) ((s.rawEntry 0).toNat / 8) s.params.tWord = true ∧
  (2 * n + 3 < s.rawlen.toNat → matchAtLeast s.params (s.sample (2 * n + 3)) s.params.endGap s.params.tGap = true)

/-- RAW holds a framed message of the bytes `b 0 .. b (n-1)`, the first `m` of them in section 1, as the timing checks of
42_frame_codec.md R166–R171 want it: both headers, every pair, the section footer and gap, the message footer, and a
long enough gap where a sample follows. -/
def FrameMatches (s : State) (b : Nat → Byte) (m n : Nat) : Prop :=
  (∀ off, off = 0 ∨ off = 16 * m + 4 →
    matchMark (s.sample off) (8 * s.params.tau) s.params.tAc s.params.eAc = true ∧
    matchSpace (s.sample (off + 1)) (4 * s.params.tau) s.params.tAc s.params.eAc = true) ∧
  (∀ k, k < n → ∀ j, j < 8 → ∀ off, off = (if k < m then 2 else 6) + 16 * k + 2 * j →
    pairBit (frameTemplate s.params) (s.sample off) (s.sample (off + 1)) = some ((b k).getLsbD j)) ∧
  matchMark (s.sample (16 * m + 2)) s.params.tau s.params.tAc s.params.eAc = true ∧
  matchSpace (s.sample (16 * m + 3)) s.params.sectionGap s.params.tAc s.params.eAc = true ∧
  matchMark (s.sample (16 * n + 6)) s.params.tau s.params.tAc s.params.eAc = true ∧
  (16 * n + 7 < s.rawlen.toNat →
    matchAtLeast s.params (s.sample (16 * n + 7)) s.params.messageGap s.params.tGap = true)

/-- The additive checksum of the bytes `b 0 .. b (n-1)` as a number: the seed and every byte but the last, modulo 256
(43_validator.md R180). -/
def checksumNat (b : Nat → Byte) (n : Nat) : Nat := (0xF4 + ((List.range (n - 1)).map (fun k => (b k).toNat)).sum) % 256

/-- The host's run of commands, one after another. -/
def runCommands : List Instr → State → Host.Outcome State Fault Refusal
  | [], s => .next s
  | i :: is, s =>
    match exec i s with
    | .next t => runCommands is t
    | .fault f => .fault f
    | .refused r => .refused r

/-- The invariant of the block, kept by every step: the memories are canonical and within their capacities, the
reserved bits of `STATUS` are 0 and an ignored setter succeeded (10_state.md R33–R35), `PROTO` is a tag of R37,
`RAWLEN` is within `RAW_CAP` (R31), the ticks are within the bounds of 40_calibrator_extractor.md R128, the caches hold
a temperature of the range and a valid direction (R48, 44_ac_register_file.md R198), and `PLANLEN` is even and within
`PLAN_CAP` (20_memory.md R62) where 16 bits can count `PLAN_CAP` entries (log 7). And the model's own clause: the draw
that unlisted memory elements read is an earlier one than the next fresh draw (log 3). -/
def State.Inv (s : State) : Prop :=
  s.params.wf ∧
  Memory.wf s.params.rawCap s.raw = true ∧ Memory.wf dbufCap s.dbuf = true ∧
  Memory.wf s.params.planCap s.plan = true ∧
  s.status &&& 0xF8#8 = 0#8 ∧ (s.ign = true → s.ok = true) ∧
  s.proto.toNat ≤ 2 ∧ s.rawlen.toNat ≤ s.params.rawCap ∧ s.mtick.toNat < 2 ^ 29 ∧ s.stick.toNat < 2 ^ 30 ∧
  tempMin ≤ s.tempCache.toNat ∧ s.tempCache.toNat ≤ tempMax ∧ swinghCodes.contains s.swinghCache = true ∧
  (s.params.planCap < 2 ^ 16 → s.planlen.toNat ≤ s.params.planCap ∧ s.planlen.toNat % 2 = 0) ∧
  s.memDraw < s.draws

end Sys2Proof.Machine
end

