-- ==== Sys2Proof/Certificates/Slice0/Obligations.lean ====
section
/-! DEFINITION. The statements for the provers. Each docstring names the rules of spec/ it formalises; a clause that is
the model's own convention names its log entry. -/

open Sys2Proof Sys2Proof.Machine

/-! ### Encoding -/

/-- Decoding the word of a well-formed command gives the command back, with every operand at every value its field
admits (30_encoding.md R93–R105). -/
def Obligations.DecodeOfEncodeIsTheCommand : Prop :=
  ∀ i : Instr, i.wellFormed = true → decode (encode i) = .ok i

/-- Each legal word has one meaning: encoding what it decodes to gives the word back, and the command is well formed
(30_encoding.md R93–R106). -/
def Obligations.EncodeOfDecodeIsTheWord : Prop :=
  ∀ (w : BitVec 32) (i : Instr), decode w = .ok i → encode i = w ∧ i.wellFormed = true

/-- 30_encoding.md R111: every word matches exactly one row of the opcode table and decodes to that row's command, or
matches none and is illegal. -/
def Obligations.WordMatchesOneRowOrIsIllegal : Prop :=
  ∀ w : BitVec 32,
    (∃ r ∈ opcodeTable, w &&& r.mask = r.pattern ∧
      (∀ r' ∈ opcodeTable, w &&& r'.mask = r'.pattern → r' = r) ∧
      ∃ i, decode w = .ok i ∧ i.mnemonic = r.mnemonic) ∨
    ((∀ r ∈ opcodeTable, w &&& r.mask ≠ r.pattern) ∧ ∃ why, decode w = .error why)

/-- 30_encoding.md R106: a word is illegal exactly when its opcode is in no row, or it is and a reserved bit is 1; an
illegal word raises IllegalCommand; the all-zero word is illegal. -/
def Obligations.IllegalWordsAreUnusedOpcodesOrReservedBits : Prop :=
  (∀ w : BitVec 32,
    (decode w = .error .unusedOpcode ↔ ∀ r ∈ opcodeTable, w.extractLsb' 24 8 ≠ r.pattern.extractLsb' 24 8) ∧
    (decode w = .error .reservedBits ↔
      ∃ r ∈ opcodeTable, w.extractLsb' 24 8 = r.pattern.extractLsb' 24 8 ∧ w &&& r.mask ≠ r.pattern)) ∧
  (∀ (w : BitVec 32) (why : IllegalWord) (s : State), decode w = .error why →
    issueWord w s = .next (raiseIllegalCommand s)) ∧
  decode 0x00000000#32 = .error .unusedOpcode

/-- Words written out from the formats of 30_encoding.md R94–R104 decode to the commands they stand for. -/
def Obligations.SampleWordsDecodeAsTheSpecEncodesThem : Prop :=
  decode 0b00000001_00000000_00000000_00000000#32 = .ok .cal ∧
  decode 0b00000010_1_0001000_0000000000000010#32 = .ok (.extract true 8 2) ∧
  decode 0b00010000_00000001_00000010_00000011#32 = .ok (.wordEncode 1#8 2#8 3#8) ∧
  decode 0b00010010_1_0000000_0000000000110000#32 = .ok (.wordDecode true 48) ∧
  decode 0b00100000_00011011_0000000000000001#32 = .ok (.frameSend 27 1) ∧
  decode 0b00110001_0000000000000000_00011011#32 = .ok (.csumValid 27) ∧
  decode 0b01000011_00000000_0000000000000010#32 = .ok (.acSend 2) ∧
  decode 0b01010110_1_000000000000000_00101000#32 = .ok (.acSetTemp 40 true) ∧
  decode 0b01011110_00000000000000000000000_1#32 = .ok (.acSetQuiet true)

/-! ### The step and the host port -/

/-- 10_state.md R32: a write of a legal word to `CMD` performs that word's command in one step; each step takes one host
move and with none pending the block is idle and holds all its state (60_exceptions.md R255). That the host's moves
stand in `pending`, and that the step sees the list without the move it takes, is the model's form of the port (log 1). -/
def Obligations.StepRunsTheDecodedCommand : Prop :=
  (∀ (s : State) (w : Nat) (rest : List HostMove) (i : Instr),
    s.pending = .write .cmd w :: rest → w < 2 ^ 32 → decode (BitVec.ofNat 32 w) = .ok i →
    step s = exec i { s with pending := rest }) ∧
  (∀ (s : State) (m : HostMove) (rest : List HostMove), s.pending = m :: rest →
    step s = takeMove m { s with pending := rest }) ∧
  ∀ s : State, s.pending = [] → step s = .next s

/-- 60_exceptions.md R244: an illegal word written to `CMD` sets ILL, clears OK and IGN, and changes nothing else. -/
def Obligations.IllegalWordOnlyWritesThreeStatusBits : Prop :=
  ∀ (s : State) (w : Nat) (why : IllegalWord), w < 2 ^ 32 → decode (BitVec.ofNat 32 w) = .error why →
    ∃ t, takeMove (.write .cmd w) s = .next t ∧ t.ill = true ∧ t.ok = false ∧ t.ign = false ∧
      (∀ b, 3 ≤ b → t.status.getLsbD b = s.status.getLsbD b) ∧ KeepsBut [.status] [] s t ∧ MemoriesKept s t

/-- Every legal command runs to an end in every state (60_exceptions.md R243, R250). -/
def Obligations.EveryCommandEndsInANextState : Prop :=
  ∀ (i : Instr) (s : State), ∃ t, exec i s = .next t

/-- The host writes of 10_state.md R31: each reaches its register or element and nothing else; a write of one half of
VALUE leaves the other half (20_memory.md R66). -/
def Obligations.HostWritesReachOnlyTheirTarget : Prop :=
  ∀ s : State,
    (∀ v, v < 2 ^ 32 → ∃ t, takeWrite .valueLo v s = .next t ∧
      t.value.toNat = s.value.toNat / 2 ^ 32 * 2 ^ 32 + v ∧ KeepsBut [.value] [] s t ∧ MemoriesKept s t) ∧
    (∀ v, v < 2 ^ 32 → ∃ t, takeWrite .valueHi v s = .next t ∧
      t.value.toNat = v * 2 ^ 32 + s.value.toNat % 2 ^ 32 ∧ KeepsBut [.value] [] s t ∧ MemoriesKept s t) ∧
    (∀ v, v < 2 ^ 16 → ∃ t, takeWrite .mfr v s = .next t ∧ t.mfr.toNat = v ∧
      KeepsBut [.mfr] [] s t ∧ MemoriesKept s t) ∧
    (∀ v, v < 2 ^ 16 → v ≤ s.params.rawCap → ∃ t, takeWrite .rawlen v s = .next t ∧ t.rawlen.toNat = v ∧
      KeepsBut [.rawlen] [] s t ∧ MemoriesKept s t) ∧
    (∀ i v, i < s.params.rawCap → v < 2 ^ 32 → ∃ t, takeWrite (.raw i) v s = .next t ∧
      (t.rawEntry i).toNat = v ∧ (∀ j, j ≠ i → t.rawEntry j = s.rawEntry j) ∧
      KeepsBut [] [] s t ∧ DbufKept s t ∧ PlanKept s t) ∧
    (∀ i v, i < 27 → v < 2 ^ 8 → ∃ t, takeWrite (.dbuf i) v s = .next t ∧
      (t.dbufByte i).toNat = v ∧ (∀ j, j ≠ i → t.dbufByte j = s.dbufByte j) ∧
      KeepsBut [] [] s t ∧ RawKept s t ∧ PlanKept s t)

/-- The host reads of 10_state.md R31: every readable row of the table and every index below its capacity is admitted and
gives that register or element, the halves of VALUE as 20_memory.md R66 says, and reading has no side effect (R69). That
a read delivers no value into the state is the model's form (log 14). -/
def Obligations.HostReadsGiveTheirTargetWithoutSideEffect : Prop :=
  ∀ s : State,
    hostRead .status s = some s.status.toNat ∧ hostRead .proto s = some s.proto.toNat ∧
    hostRead .bits s = some s.bits.toNat ∧ hostRead .address s = some s.address.toNat ∧
    hostRead .command s = some s.command.toNat ∧ hostRead .mfr s = some s.mfr.toNat ∧
    hostRead .rawlen s = some s.rawlen.toNat ∧ hostRead .mtick s = some s.mtick.toNat ∧
    hostRead .stick s = some s.stick.toNat ∧ hostRead .used s = some s.used.toNat ∧
    hostRead .result s = some s.result.toNat ∧ hostRead .planlen s = some s.planlen.toNat ∧
    hostRead .valueLo s = some (s.value.toNat % 2 ^ 32) ∧ hostRead .valueHi s = some (s.value.toNat / 2 ^ 32) ∧
    (∀ i, i < s.params.rawCap → hostRead (.raw i) s = some (s.rawEntry i).toNat) ∧
    (∀ i, i < 27 → hostRead (.dbuf i) s = some (s.dbufByte i).toNat) ∧
    (∀ i, i < s.params.planCap → hostRead (.plan i) s = some (s.planEntry i).toNat) ∧
    ∀ p x, hostRead p s = some x → takeMove (.read p) s = .next s

/-- 70_reset_and_hazards.md R266 and 10_state.md R31: a host access outside the port table is refused. -/
def Obligations.HostAccessOutsideTheTableIsRefused : Prop :=
  ∀ s : State,
    (∀ p, p = .cmd ∨ p = .tempCache ∨ p = .swinghCache ∨ (∃ i, p = .acReg i) ∨
        (∃ i, p = .raw i ∧ s.params.rawCap ≤ i) ∨ (∃ i, p = .dbuf i ∧ 27 ≤ i) ∨
        (∃ i, p = .plan i ∧ s.params.planCap ≤ i) →
      takeRead p s = .refused (.hostAccess (.read p))) ∧
    (∀ p v, p ∈ [Port.status, .proto, .bits, .address, .command, .mtick, .stick, .used, .result, .planlen,
          .tempCache, .swinghCache] ∨ (∃ i, p = .plan i) ∨ (∃ i, p = .acReg i) ∨
        (p = .rawlen ∧ s.params.rawCap < v) ∨ (∃ i, p = .raw i ∧ s.params.rawCap ≤ i) ∨
        (∃ i, p = .dbuf i ∧ 27 ≤ i) →
      takeWrite p v s = .refused (.hostAccess (.write p v)))

/-! ### Reset -/

/-- 10_state.md R51 and R52: the state after block reset, register by register; every memory entry reads an unspecified
value, the draw of its index (the draw's number is the model's, log 2, log 3). The parameters have the default values of
00_scope.md R9, R10 and R13, and `DefaultTiming` says just those values; the two OPEN capacities of R11 are the model's
choice (log 5). -/
def Obligations.ResetLeavesTheSpecsValues : Prop :=
  let s := State.reset
  s.ok = false ∧ s.ign = false ∧ s.ill = false ∧ s.status = 0 ∧ s.proto = 0 ∧ s.bits = 0 ∧ s.used = 0 ∧
    s.result = 0 ∧ s.planlen = 0 ∧ s.rawlen = 0 ∧ s.value = 0 ∧ s.address = 0 ∧ s.command = 0 ∧
    s.mtick = 0 ∧ s.stick = 0 ∧ s.mfr = 0x4004#16 ∧
    s.ac.toList = [0x02#8, 0x20#8, 0xE0#8, 0x04#8, 0x00#8, 0x00#8, 0x00#8, 0x06#8, 0x02#8, 0x20#8, 0xE0#8, 0x04#8,
      0x00#8, 0x00#8, 0x00#8, 0x80#8, 0x00#8, 0x00#8, 0x00#8, 0x0E#8, 0xE0#8, 0x00#8, 0x00#8, 0x81#8, 0x00#8, 0x00#8,
      0x00#8] ∧
    s.tempCache = 25#8 ∧ s.swinghCache = 0x06#8 ∧
    (∀ i, s.rawEntry i = Config.rawDraw s.memDraw i ∧ s.dbufByte i = Config.dbufDraw s.memDraw i ∧
      s.planEntry i = Config.planDraw s.memDraw i) ∧
    (∀ p : Config.Params, p = s.params ∨ DefaultTiming p →
      p.tau = 432 ∧ p.sectionGap = 10000 ∧ p.messageGap = 100000 ∧ p.endGap = 5000 ∧ p.captureTimeout = 15000 ∧
      p.wordFrameT = 378 ∧ p.wordMingapT = 173 ∧ p.tWord = 25 ∧ p.eWord = 50 ∧ p.tAc = 40 ∧ p.eAc = 0 ∧ p.tGap = 25 ∧
      p.wordLsbFirst = true) ∧
    s.params.rawCap = 65535 ∧ s.params.planCap = 65535

/-- 70_reset_and_hazards.md R260: block reset gives every register and the A/C part its reset value from every state,
and every memory entry a fresh draw; the host's coming moves and the parameters stay (log 10). The numbering is the
model's (log 3): the draw taken is numbered by the counter, which moves on, no move turns the counter back, and no other
move changes which draw unlisted entries read. -/
def Obligations.BlockResetGivesTheResetState : Prop :=
  (∀ s : State, ∃ t, takeMove .blockReset s = .next t ∧ (∀ r, t.reg r = State.reset.reg r) ∧ t.ac = State.reset.ac ∧
    t.pending = s.pending ∧ t.params = s.params ∧ t.memDraw = s.draws ∧ t.draws = s.draws + 1 ∧
    ∀ i, t.rawEntry i = Config.rawDraw s.draws i ∧ t.dbufByte i = Config.dbufDraw s.draws i ∧
      t.planEntry i = Config.planDraw s.draws i) ∧
  ∀ (m : HostMove) (s t : State), takeMove m s = .next t →
    s.draws ≤ t.draws ∧ (m ≠ .blockReset → t.memDraw = s.memDraw)

/-! ### Rules of the whole machine -/

/-- Every step keeps the invariant of Safety.lean, from every state that meets it, reachable or not. -/
def Obligations.StepKeepsTheBlockInvariant : Prop :=
  ∀ s t : State, s.Inv → step s = .next t → t.Inv

/-- The reset state meets the invariant. -/
def Obligations.ResetMeetsTheBlockInvariant : Prop := State.reset.Inv

/-- 10_state.md R36: ILL is set by an illegal command word and by nothing else, and only block reset clears it. -/
def Obligations.IllIsStickyUntilBlockReset : Prop :=
  (∀ (m : HostMove) (s t : State), takeMove m s = .next t →
    (s.ill = true → t.ill = true ∨ m = .blockReset) ∧
    (s.ill = false → t.ill = true →
      ∃ w why, m = .write .cmd w ∧ w < 2 ^ 32 ∧ decode (BitVec.ofNat 32 w) = .error why) ∧
    (m = .blockReset → t.ill = false)) ∧
  ∀ (s : State) (w : Nat) (why : IllegalWord), w < 2 ^ 32 → decode (BitVec.ofNat 32 w) = .error why →
    ∃ t, takeMove (.write .cmd w) s = .next t ∧ t.ill = true

/-- 20_memory.md R77: no command writes RAW or RAWLEN. -/
def Obligations.CommandsNeverWriteRaw : Prop :=
  ∀ (i : Instr) (s t : State), exec i s = .next t →
    RawKept s t ∧ t.rawlen = s.rawlen ∧ ∀ k, t.sample k = s.sample k

/-- 20_memory.md R78: the only commands that write DBUF are FRAME_DECODE and AC_GET_RAW. -/
def Obligations.OnlyFrameDecodeAndGetRawWriteDbuf : Prop :=
  ∀ (i : Instr) (s t : State), exec i s = .next t →
    (∀ strict nbits, i ≠ .frameDecode strict nbits) → i ≠ .acGetRaw → DbufKept s t

/-- 20_memory.md R79: the only commands that write PLAN and PLANLEN are the three sends. -/
def Obligations.OnlySendsWritePlan : Prop :=
  ∀ (i : Instr) (s t : State), exec i s = .next t →
    (∀ nbits reps, i ≠ .wordSend nbits reps) → (∀ nbytes reps, i ≠ .frameSend nbytes reps) →
    (∀ reps, i ≠ .acSend reps) → PlanKept s t ∧ t.planlen = s.planlen

/-- Which commands write which result and argument registers (10_state.md R37–R45, the table of R31). -/
def Obligations.ResultRegistersHaveOnlyTheirWriters : Prop :=
  ∀ (i : Instr) (s t : State), exec i s = .next t →
    t.mfr = s.mfr ∧
    (i ≠ .cal → t.mtick = s.mtick ∧ t.stick = s.stick) ∧
    ((∀ x n o, i ≠ .extract x n o) → t.used = s.used) ∧
    ((∀ b n, i ≠ .wordDecode b n) → t.address = s.address ∧ t.command = s.command) ∧
    ((∀ b n, i ≠ .wordDecode b n) → (∀ b n, i ≠ .frameDecode b n) → t.proto = s.proto ∧ t.bits = s.bits) ∧
    ((∀ x n o, i ≠ .extract x n o) → (∀ a b c, i ≠ .wordEncode a b c) → (∀ b n, i ≠ .wordDecode b n) →
      t.value = s.value) ∧
    (i ∉ [.acGetPower, .acGetTemp, .acGetMode, .acGetSwingV, .acGetSwingH, .acGetFan, .acGetQuiet,
        .acGetPowerful, .acGetModel] → (∀ n, i ≠ .csumCalc n) → t.result = s.result)

/-- Which commands write the A/C file and the caches (10_state.md R47, R48; 44_ac_register_file.md R190): commands that
are not of the A/C file and the getters write none of it, and byte 26 is written only by AC_RESET, AC_SET_RAW and the
checksum fix-up of AC_GET_RAW and AC_SEND. -/
def Obligations.AcFileHasOnlyItsWriters : Prop :=
  ∀ (i : Instr) (s t : State), exec i s = .next t →
    (i.mnemonic ∈ ["CAL", "EXTRACT", "WORD_ENCODE", "WORD_SEND", "WORD_DECODE", "FRAME_SEND", "FRAME_DECODE",
        "CSUM_CALC", "CSUM_VALID", "AC_GET_MODEL", "AC_GET_POWER", "AC_GET_MODE", "AC_GET_TEMP", "AC_GET_SWINGV",
        "AC_GET_SWINGH", "AC_GET_FAN", "AC_GET_QUIET", "AC_GET_POWERFUL"] →
      t.ac = s.ac ∧ t.tempCache = s.tempCache ∧ t.swinghCache = s.swinghCache) ∧
    (i ∉ [.acReset, .acSetRaw, .acGetRaw] → (∀ reps, i ≠ .acSend reps) → t.acByte 26 = s.acByte 26) ∧
    (i ≠ .acReset → (∀ x b, i ≠ .acSetTemp x b) → (∀ d, i ≠ .acSetMode d) → t.tempCache = s.tempCache) ∧
    (i ≠ .acReset → (∀ d, i ≠ .acSetSwingH d) → (∀ m, i ≠ .acSetModel m) → t.swinghCache = s.swinghCache)

/-- 10_state.md R35: IGN is written by every command, and set to 1 exactly by the three setters on an input they do not
accept, which then change nothing else but STATUS. -/
def Obligations.IgnIsSetExactlyByIgnoringSetters : Prop :=
  ∀ (i : Instr) (s t : State), exec i s = .next t →
    (t.ign = true ↔
      (∃ m, i = .acSetModel m ∧ m ∉ [1#8, 2#8, 3#8, 4#8]) ∨
      (∃ d, i = .acSetSwingH d ∧ d ∉ [0x0D#8, 0x06#8, 0x09#8, 0x0A#8, 0x0B#8, 0x0C#8]) ∨
      (∃ n, i = .acSetFan n ∧ 4 < n ∧ n ≠ 7)) ∧
    (t.ign = true → t.ok = true ∧ KeepsBut [.status] [] s t ∧ MemoriesKept s t)

/-! ### Matching, calibration, extraction -/

/-- The matching primitives (40_calibrator_extractor.md R120–R124) without division: `m` is in the window of `d` exactly
when `d·(100−tol)` is below `100·(m+1)` and `100·(m−1)` is at most `d·(100+tol)`; ⊥ matches nothing; the excess lengthens
a mark and shortens a space, saturating at 0; a trailing gap passes as a zero sample or at the low bound of its threshold
capped at CAPTURE_TIMEOUT. And the bit a pair carries (R127): the one template is tried first, then the zero template. -/
def Obligations.MatchPrimitivesAreTheToleranceWindows : Prop :=
  (∀ d tol exc m : Nat,
    (windowMatch (some m) d tol = true ↔ d * (100 - tol) < 100 * (m + 1) ∧ 100 * m ≤ d * (100 + tol) + 100) ∧
    windowMatch none d tol = false ∧
    matchMark (some m) d tol exc = windowMatch (some m) (d + exc) tol ∧
    (exc ≤ d → matchSpace (some m) d tol exc = windowMatch (some m) (d - exc) tol) ∧
    (d ≤ exc → matchSpace (some m) d tol exc = windowMatch (some m) 0 tol)) ∧
  (∀ (p : Config.Params) (d tol m : Nat),
    matchAtLeast p none d tol = false ∧ matchAtLeast p (some 0) d tol = true ∧
    (0 < m → (matchAtLeast p (some m) d tol = true ↔ min d p.captureTimeout * (100 - tol) < 100 * (m + 1)))) ∧
  ∀ (t : Template) (m x : Option Nat),
    (pairBit t m x = some true ↔
      matchMark m t.oneMark t.tol t.exc = true ∧ matchSpace x t.oneSpace t.tol t.exc = true) ∧
    (pairBit t m x = some false ↔
      ¬(matchMark m t.oneMark t.tol t.exc = true ∧ matchSpace x t.oneSpace t.tol t.exc = true) ∧
      matchMark m t.zeroMark t.tol t.exc = true ∧ matchSpace x t.zeroSpace t.tol t.exc = true)

/-- The template sets of 40_calibrator_extractor.md R125 field by field, which set EXTRACT's tsel selects (R129), and the
windows of R130 for `Tword(432, 432)` and `Tframe` under the default parameters: no sample is in both space windows of a
set. -/
def Obligations.TemplateSetsAndTheirDefaultWindows : Prop :=
  (∀ (p : Config.Params) (mt st : Nat) (t : Template), t = wordTemplate p mt st →
    t.oneMark = mt ∧ t.oneSpace = 3 * st ∧ t.zeroMark = mt ∧ t.zeroSpace = st ∧
    t.tol = p.tWord ∧ t.exc = p.eWord ∧ t.lsbFirst = p.wordLsbFirst) ∧
  (∀ (p : Config.Params) (t : Template), t = frameTemplate p →
    t.oneMark = p.tau ∧ t.oneSpace = 3 * p.tau ∧ t.zeroMark = p.tau ∧ t.zeroSpace = p.tau ∧
    t.tol = p.tAc ∧ t.exc = p.eAc ∧ t.lsbFirst = true) ∧
  (∀ s : State, selectTemplate false s = wordTemplate s.params s.mtick.toNat s.stick.toNat ∧
    selectTemplate true s = frameTemplate s.params) ∧
  ∀ p : Config.Params, DefaultTiming p → ∀ m : Nat,
    (∀ t, t = wordTemplate p 432 432 →
      (matchMark (some m) t.oneMark t.tol t.exc = true ↔ 361 ≤ m ∧ m ≤ 603) ∧
      (matchMark (some m) t.zeroMark t.tol t.exc = true ↔ 361 ≤ m ∧ m ≤ 603) ∧
      (matchSpace (some m) t.oneSpace t.tol t.exc = true ↔ 934 ≤ m ∧ m ≤ 1558) ∧
      (matchSpace (some m) t.zeroSpace t.tol t.exc = true ↔ 286 ≤ m ∧ m ≤ 478)) ∧
    (∀ t, t = frameTemplate p →
      (matchMark (some m) t.oneMark t.tol t.exc = true ↔ 259 ≤ m ∧ m ≤ 605) ∧
      (matchMark (some m) t.zeroMark t.tol t.exc = true ↔ 259 ≤ m ∧ m ≤ 605) ∧
      (matchSpace (some m) t.oneSpace t.tol t.exc = true ↔ 777 ≤ m ∧ m ≤ 1815) ∧
      (matchSpace (some m) t.zeroSpace t.tol t.exc = true ↔ 259 ≤ m ∧ m ≤ 605)) ∧
    ∀ t, t = wordTemplate p 432 432 ∨ t = frameTemplate p →
      ¬(matchSpace (some m) t.oneSpace t.tol t.exc = true ∧ matchSpace (some m) t.zeroSpace t.tol t.exc = true)

/-- CAL (40_calibrator_extractor.md R126, R128): the ticks are the header durations divided by 8 and 4; with fewer than
two samples it fails and changes only STATUS. -/
def Obligations.CalDerivesTicksFromTheHeader : Prop :=
  decode 0x01000000#32 = .ok .cal ∧ ∀ s : State,
    (2 ≤ s.rawlen.toNat → ∃ t, exec .cal s = .next t ∧
      t.mtick.toNat = (s.rawEntry 0).toNat / 8 ∧ t.stick.toNat = (s.rawEntry 1).toNat / 4 ∧
      EndsWith true false s t ∧ KeepsBut [.status, .mtick, .stick] [] s t ∧ MemoriesKept s t) ∧
    (s.rawlen.toNat < 2 → ∃ t, exec .cal s = .next t ∧
      EndsWith false false s t ∧ KeepsBut [.status] [] s t ∧ MemoriesKept s t)

/-- EXTRACT on pairs that all match (40_calibrator_extractor.md R127, R129): VALUE holds the bits, pair 0 lowest when the
set is LSB first and highest otherwise, zero above; USED is 2n. -/
def Obligations.ExtractPutsEachPairsBitInItsPlace : Prop :=
  ∀ (s : State) (tsel : Bool) (n offset : Nat) (bit : Nat → Bool), n ≤ 64 →
    (∀ k, k < n → pairBit (selectTemplate tsel s) (s.sample (offset + 2 * k)) (s.sample (offset + 2 * k + 1)) =
      some (bit k)) →
    ∃ t, exec (.extract tsel n offset) s = .next t ∧
      (∀ k, k < 64 → t.value.getLsbD k =
        (decide (k < n) && bit (if (selectTemplate tsel s).lsbFirst then k else n - 1 - k))) ∧
      t.used.toNat = 2 * n ∧ EndsWith true false s t ∧ KeepsBut [.status, .value, .used] [] s t ∧
      MemoriesKept s t

/-- EXTRACT fails for more than 64 bits and for a pair that matches neither template or reaches past RAWLEN, and then
changes only STATUS (40_calibrator_extractor.md R127, R129). -/
def Obligations.ExtractFailsWithoutEffect : Prop :=
  ∀ (s : State) (tsel : Bool) (n offset : Nat),
    (64 < n ∨ ∃ k, k < n ∧
      (pairBit (selectTemplate tsel s) (s.sample (offset + 2 * k)) (s.sample (offset + 2 * k + 1)) = none ∨
        s.rawlen.toNat ≤ offset + 2 * k + 1)) →
    ∃ t, exec (.extract tsel n offset) s = .next t ∧
      EndsWith false false s t ∧ KeepsBut [.status] [] s t ∧ MemoriesKept s t

/-! ### The single-word codec -/

/-- WORD_ENCODE (41_word_codec.md R140, R141; 30_encoding.md R82): the fields of VALUE and its XOR checksum. -/
def Obligations.WordEncodeBuildsTheCommand48 : Prop :=
  ∀ (s : State) (device subdevice function : Byte),
    decode (0x10#8 ++ device ++ subdevice ++ function) = .ok (.wordEncode device subdevice function) ∧
    ∃ t, exec (.wordEncode device subdevice function) s = .next t ∧
      t.value.extractLsb' 48 16 = 0#16 ∧ t.value.extractLsb' 32 16 = s.mfr ∧ t.value.extractLsb' 24 8 = device ∧
      t.value.extractLsb' 16 8 = subdevice ∧ t.value.extractLsb' 8 8 = function ∧
      t.value.extractLsb' 0 8 = device ^^^ subdevice ^^^ function ∧
      EndsWith true false s t ∧ KeepsBut [.status, .value] [] s t ∧ MemoriesKept s t

/-- WORD_SEND (41_word_codec.md R142, R143; 30_encoding.md R80, R81): PLAN holds `repeat + 1` identical frames, each
ending with the gap that fills it to `WORD_FRAME_T` ticks but at least `WORD_MINGAP_T`; PLANLEN is their length where
16 bits hold it (log 7). -/
def Obligations.WordSendWritesRepeatedWordFrames : Prop :=
  ∀ (s : State) (nbits reps : Nat), s.params.wf → nbits ≤ 64 →
    (2 * nbits + 4) * (reps + 1) ≤ s.params.planCap →
    ∃ t, exec (.wordSend nbits reps) s = .next t ∧
      ((2 * nbits + 4) * (reps + 1) < 2 ^ 16 → t.planlen.toNat = (2 * nbits + 4) * (reps + 1)) ∧
      (∀ j, j ≤ reps → ∀ e : Nat → Nat, (∀ i, e i = (t.planEntry (j * (2 * nbits + 4) + i)).toNat) →
        WordLayout s.params s.value nbits e ∧
        e (2 * nbits + 3) = max (s.params.wordMingapT * s.params.tau)
          (s.params.wordFrameT * s.params.tau - ((List.range (2 * nbits + 3)).map e).sum)) ∧
      (∀ i, (2 * nbits + 4) * (reps + 1) ≤ i → t.planEntry i = s.planEntry i) ∧
      EndsWith true false s t ∧ KeepsBut [.status, .planlen] [] s t ∧ RawKept s t ∧ DbufKept s t

/-- A send whose operands or plan do not fit fails with PLANLEN 0 and leaves PLAN as it was (20_memory.md R63; 41_word_codec.md
R143; 42_frame_codec.md R161; 44_ac_register_file.md R195): AC_SEND's checksum fix-up stays. -/
def Obligations.SendThatDoesNotFitWritesNoPlan : Prop :=
  (∀ (s : State) (nbits reps : Nat), (64 < nbits ∨ s.params.planCap < (2 * nbits + 4) * (reps + 1)) →
    ∃ t, exec (.wordSend nbits reps) s = .next t ∧ t.planlen = 0 ∧ EndsWith false false s t ∧
      KeepsBut [.status, .planlen] [] s t ∧ MemoriesKept s t) ∧
  (∀ (s : State) (nbytes reps : Nat),
    (nbytes < 16 ∨ 27 < nbytes ∨ s.params.planCap < (16 * nbytes + 8) * (reps + 1)) →
    ∃ t, exec (.frameSend nbytes reps) s = .next t ∧ t.planlen = 0 ∧ EndsWith false false s t ∧
      KeepsBut [.status, .planlen] [] s t ∧ MemoriesKept s t) ∧
  (∀ (s : State) (reps : Nat), s.params.planCap < 440 * (reps + 1) →
    ∃ t, exec (.acSend reps) s = .next t ∧ t.planlen = 0 ∧ EndsWith false false s t ∧
      (∀ f : Nat → Byte, (∀ i : Fin 27, f i = s.acByte i) → (t.acByte 26).toNat = checksumNat f 27) ∧
      KeepsBut [.status, .planlen] [26] s t ∧ MemoriesKept s t)

/-- WORD_DECODE's effects (41_word_codec.md R145, R146): a decode that gives v writes VALUE, ADDRESS = v >> 32,
COMMAND = v[31:0], PROTO = 1 and BITS = nbits; one that fails changes only STATUS. -/
def Obligations.WordDecodeWritesAllFieldsOrNone : Prop :=
  ∀ (s : State) (strict : Bool) (nbits : Nat),
    (∀ v, wordDecode s strict nbits = .ok v → ∃ t, exec (.wordDecode strict nbits) s = .next t ∧
      t.value = v ∧ t.address.toNat = v.toNat / 2 ^ 32 ∧ t.command.toNat = v.toNat % 2 ^ 32 ∧
      t.proto.toNat = 1 ∧ t.bits.toNat = nbits ∧ EndsWith true false s t ∧
      KeepsBut [.status, .value, .address, .command, .proto, .bits] [] s t ∧ MemoriesKept s t) ∧
    (∀ kind, wordDecode s strict nbits = .error kind → ∃ t, exec (.wordDecode strict nbits) s = .next t ∧
      EndsWith false false s t ∧ KeepsBut [.status] [] s t ∧ MemoriesKept s t)

/-- WORD_DECODE's lenient verdict on RAW (41_word_codec.md R144): it succeeds exactly when RAW holds a matching message
(`WordMatches`), and gives the pairs' bits, pair 0 lowest when LSB first. -/
def Obligations.LenientWordDecodeAcceptsExactlyMatchingMessages : Prop :=
  ∀ (s : State) (n : Nat),
    (∀ bit : Nat → Bool, WordMatches s n bit →
      ∃ t, exec (.wordDecode false n) s = .next t ∧ EndsWith true false s t ∧
        (∀ k, k < 64 → t.value.getLsbD k = (decide (k < n) && bit (if s.params.wordLsbFirst then k else n - 1 - k))) ∧
        t.address.toNat = t.value.toNat / 2 ^ 32 ∧ t.command.toNat = t.value.toNat % 2 ^ 32 ∧
        t.proto.toNat = 1 ∧ t.bits.toNat = n) ∧
    ∀ t, exec (.wordDecode false n) s = .next t → t.ok = true →
      WordMatches s n (fun k => t.value.getLsbD (if s.params.wordLsbFirst then k else n - 1 - k))

/-- The strict checks of WORD_DECODE (41_word_codec.md R144, 43_validator.md R184): a strict decode succeeds exactly when
the lenient one does, the width is 48, the address is MFR and the low byte is the XOR of the three above it. -/
def Obligations.StrictWordDecodeAddsItsChecks : Prop :=
  ∀ (s : State) (n : Nat) (v : BitVec 64),
    wordDecode s true n = .ok v ↔
      wordDecode s false n = .ok v ∧ n = 48 ∧ v.toNat / 2 ^ 32 = s.mfr.toNat ∧
      v.extractLsb' 0 8 = v.extractLsb' 24 8 ^^^ v.extractLsb' 16 8 ^^^ v.extractLsb' 8 8

/-- 41_word_codec.md R147: WORD_ENCODE, WORD_SEND 48, a copy of PLAN (or of a prefix of at least 99 entries) into RAW,
and a strict WORD_DECODE 48 recover the manufacturer and the command, for all fields and repeat counts. -/
def Obligations.WordRoundTripRecoversTheFields : Prop :=
  ∀ (s s1 s2 u : State) (device subdevice function : Byte) (reps : Nat),
    DefaultTiming s.params → 100 * (reps + 1) ≤ s.params.planCap →
    exec (.wordEncode device subdevice function) s = .next s1 → exec (.wordSend 48 reps) s1 = .next s2 →
    DefaultTiming u.params → u.mfr = s.mfr → 99 ≤ u.rawlen.toNat → u.rawlen.toNat ≤ 100 * (reps + 1) →
    (∀ i, i < u.rawlen.toNat → u.rawEntry i = s2.planEntry i) →
    ∃ t, exec (.wordDecode true 48) u = .next t ∧ EndsWith true false u t ∧
      t.address.toNat = s.mfr.toNat ∧
      t.command = device ++ subdevice ++ function ++ (device ^^^ subdevice ^^^ function) ∧ t.value = s1.value

/-! ### The frame codec -/

/-- FRAME_SEND (42_frame_codec.md R160, R161; 30_encoding.md R80, R92): PLAN holds `repeat + 1` copies of the two-section
frame of DBUF[0..nbytes-1]. -/
def Obligations.FrameSendWritesRepeatedFrames : Prop :=
  ∀ (s : State) (nbytes reps : Nat), s.params.wf → 16 ≤ nbytes → nbytes ≤ 27 →
    (16 * nbytes + 8) * (reps + 1) ≤ s.params.planCap →
    ∃ t, exec (.frameSend nbytes reps) s = .next t ∧
      ((16 * nbytes + 8) * (reps + 1) < 2 ^ 16 → t.planlen.toNat = (16 * nbytes + 8) * (reps + 1)) ∧
      (∀ j, j ≤ reps → FrameLayout s.params s.dbufByte nbytes
        (fun i => (t.planEntry (j * (16 * nbytes + 8) + i)).toNat)) ∧
      (∀ i, (16 * nbytes + 8) * (reps + 1) ≤ i → t.planEntry i = s.planEntry i) ∧
      EndsWith true false s t ∧ KeepsBut [.status, .planlen] [] s t ∧ RawKept s t ∧ DbufKept s t

/-- The structural checks of FRAME_DECODE (42_frame_codec.md R163, R164, R173, R175): a width that is no multiple of 8, a
strict width other than 216 and 128, one beyond DBUF, or too few samples fails whatever RAW holds, and leaves DBUF and
every register but STATUS. -/
def Obligations.FrameDecodeFailsStructurallyFirst : Prop :=
  ∀ (s : State) (strict : Bool) (nbits : Nat),
    (nbits % 8 ≠ 0 ∨ (strict = true ∧ nbits ≠ 216 ∧ nbits ≠ 128) ∨ 27 < nbits / 8 ∨
      s.rawlen.toNat < 2 * nbits + 3) →
    frameDecode s strict nbits = .error .structural ∧
    ∃ t, exec (.frameDecode strict nbits) s = .next t ∧
      EndsWith false false s t ∧ KeepsBut [.status] [] s t ∧ MemoriesKept s t

/-- FRAME_DECODE that fails on timing or compliance (42_frame_codec.md R175): PROTO, BITS and the DBUF bytes from
`min(max(8, nbits div 8), 27)` up are unchanged; the bytes below hold an unspecified value, a fresh draw: the one numbered
`draws`, and the counter moves on (the numbering is the model's, log 3). -/
def Obligations.FailedFrameDecodeDrawsTheLowBytes : Prop :=
  ∀ (s : State) (strict : Bool) (nbits : Nat) (kind : FailKind),
    frameDecode s strict nbits = .error kind → kind ≠ .structural →
    ∃ t, exec (.frameDecode strict nbits) s = .next t ∧
      EndsWith false false s t ∧ KeepsBut [.status] [] s t ∧
      (∀ k, min (max 8 (nbits / 8)) 27 ≤ k → t.dbufByte k = s.dbufByte k) ∧
      (∀ k, k < min (max 8 (nbits / 8)) 27 → t.dbufByte k = Config.dbufDraw s.draws k) ∧ t.draws = s.draws + 1 ∧
      RawKept s t ∧ PlanKept s t

/-- FRAME_DECODE that succeeds (42_frame_codec.md R162, R172, R174, R175): with i bytes decoded PROTO is 2, BITS is 8·i, DBUF
is as it stands after the loops and its bytes from i up are unchanged; a strict success leaves the signatures and a valid
checksum over the i bytes in DBUF. And the strict verdict on any RAW: a strict decode succeeds exactly when the lenient
one does, the width is 216 or 128 (R173), the signatures stand in DBUF after the loops, bytes this decode did not write
included (R172), and the checksum over the i bytes holds (R174). -/
def Obligations.FrameDecodeSuccessKeepsTheHighBytesAndStrictAddsItsChecks : Prop :=
  (∀ (s : State) (strict : Bool) (nbits : Nat) (c : Cursor), frameDecode s strict nbits = .ok c →
    c.count ≤ 27 ∧ ∃ t, exec (.frameDecode strict nbits) s = .next t ∧
      t.proto.toNat = 2 ∧ t.bits.toNat = 8 * c.count ∧
      (∀ k, t.dbufByte k = dbufAt s.memDraw c.buf k) ∧ (∀ k, c.count ≤ k → t.dbufByte k = s.dbufByte k) ∧
      (strict = true → t.dbufByte 0 = 0x02#8 ∧ t.dbufByte 1 = 0x20#8 ∧ t.dbufByte 8 = 0x02#8 ∧
        t.dbufByte 9 = 0x20#8 ∧ 2 ≤ c.count ∧ (t.dbufByte (c.count - 1)).toNat = checksumNat t.dbufByte c.count) ∧
      EndsWith true false s t ∧ KeepsBut [.status, .proto, .bits] [] s t ∧ RawKept s t ∧ PlanKept s t) ∧
  ∀ (s : State) (nbits : Nat) (c : Cursor) (b : Nat → Byte), (∀ k, b k = dbufAt s.memDraw c.buf k) →
    (frameDecode s true nbits = .ok c ↔
      frameDecode s false nbits = .ok c ∧ (nbits = 216 ∨ nbits = 128) ∧
      b 0 = 0x02#8 ∧ b 1 = 0x20#8 ∧ b 8 = 0x02#8 ∧ b 9 = 0x20#8 ∧
      2 ≤ c.count ∧ (b (c.count - 1)).toNat = checksumNat b c.count)

/-- FRAME_DECODE's lenient verdict on RAW (42_frame_codec.md R165–R171): past the structural checks it succeeds exactly
when RAW holds a matching frame (`FrameMatches`). Section 1 holds 8 bytes or as many as have 16 samples each, whatever the
width is; section 2 goes on from there, up to the width or the samples; the bytes decoded go to DBUF from index 0. -/
def Obligations.LenientFrameDecodeAcceptsExactlyMatchingFrames : Prop :=
  ∀ (u : State) (nbits m n : Nat), nbits % 8 = 0 → nbits ≤ 216 → 2 * nbits + 3 ≤ u.rawlen.toNat →
    m = min 8 ((u.rawlen.toNat - 2) / 16) →
    n = max m (min (nbits / 8) (m + (u.rawlen.toNat - (16 * m + 6)) / 16)) →
    (∀ b : Nat → Byte, FrameMatches u b m n →
      ∃ t, exec (.frameDecode false nbits) u = .next t ∧ EndsWith true false u t ∧
        (∀ k, k < n → t.dbufByte k = b k) ∧ (∀ k, n ≤ k → t.dbufByte k = u.dbufByte k) ∧
        t.bits.toNat = 8 * n ∧ t.proto.toNat = 2) ∧
    ∀ t, exec (.frameDecode false nbits) u = .next t → t.ok = true → FrameMatches u t.dbufByte m n

/-- 42_frame_codec.md R176 (and the short length of R173): a frame of 27 or 16 bytes with nominal durations and its message
gap, under the default timing, decodes strictly exactly when its signatures and its checksum hold. -/
def Obligations.StrictDecodeOfANominalFrameSucceedsExactlyWhenCompliant : Prop :=
  ∀ (u : State) (b : Nat → Byte) (n : Nat), DefaultTiming u.params → (n = 27 ∨ n = 16) →
    u.rawlen.toNat = 16 * n + 8 → FrameLayout u.params b n (fun i => (u.rawEntry i).toNat) →
    ∃ t, exec (.frameDecode true (8 * n)) u = .next t ∧
      (t.ok = true ↔ b 0 = 0x02#8 ∧ b 1 = 0x20#8 ∧ b 8 = 0x02#8 ∧ b 9 = 0x20#8 ∧
        (b (n - 1)).toNat = checksumNat b n) ∧
      (t.ok = true → (∀ k, k < n → t.dbufByte k = b k) ∧ t.bits.toNat = 8 * n ∧ t.proto.toNat = 2)

/-- 42_frame_codec.md R176: a compliant frame of 27 bytes in RAW decodes strictly; with one byte below the checksum
changed, and not the checksum, the strict decode fails with kind compliance while the lenient one still succeeds. -/
def Obligations.OneChangedByteFailsOnlyTheStrictDecode : Prop :=
  ∀ (u : State) (b : Nat → Byte), DefaultTiming u.params → u.rawlen.toNat = 440 →
    b 0 = 0x02#8 → b 1 = 0x20#8 → b 8 = 0x02#8 → b 9 = 0x20#8 → (b 26).toNat = checksumNat b 27 →
    (FrameLayout u.params b 27 (fun i => (u.rawEntry i).toNat) →
      ∃ t, exec (.frameDecode true 216) u = .next t ∧ EndsWith true false u t) ∧
    ∀ (k : Nat) (x : Byte), k < 26 → x ≠ b k →
      FrameLayout u.params (fun i => if i = k then x else b i) 27 (fun i => (u.rawEntry i).toNat) →
      frameDecode u true 216 = .error .compliance ∧
      (∃ t, exec (.frameDecode true 216) u = .next t ∧ EndsWith false false u t) ∧
      ∃ t, exec (.frameDecode false 216) u = .next t ∧ EndsWith true false u t

/-! ### The validator -/

/-- CSUM_CALC (43_validator.md R180, R182): RESULT is the seed and every byte but the last of DBUF[0..len-1], modulo 256;
a length above 27 fails and keeps RESULT. -/
def Obligations.CsumCalcSumsAllButTheLastByte : Prop :=
  (∀ x : Byte, decode (0x30#8 ++ 0#16 ++ x) = .ok (.csumCalc x.toNat)) ∧ ∀ (s : State) (len : Nat),
    (len ≤ 27 → ∃ t, exec (.csumCalc len) s = .next t ∧ t.result.toNat = checksumNat s.dbufByte len ∧
      EndsWith true false s t ∧ KeepsBut [.status, .result] [] s t ∧ MemoriesKept s t) ∧
    (27 < len → ∃ t, exec (.csumCalc len) s = .next t ∧
      EndsWith false false s t ∧ KeepsBut [.status] [] s t ∧ MemoriesKept s t)

/-- CSUM_VALID (43_validator.md R181, R183): OK exactly when there are 2 to 27 bytes and the last is the checksum of the
others; only STATUS is written. -/
def Obligations.CsumValidChecksTheLastByte : Prop :=
  (∀ x : Byte, decode (0x31#8 ++ 0#16 ++ x) = .ok (.csumValid x.toNat)) ∧ ∀ (s : State) (len : Nat),
    ((2 ≤ len ∧ len ≤ 27 ∧ (s.dbufByte (len - 1)).toNat = checksumNat s.dbufByte len) →
      ∃ t, exec (.csumValid len) s = .next t ∧ EndsWith true false s t ∧
        KeepsBut [.status] [] s t ∧ MemoriesKept s t) ∧
    (¬(2 ≤ len ∧ len ≤ 27 ∧ (s.dbufByte (len - 1)).toNat = checksumNat s.dbufByte len) →
      ∃ t, exec (.csumValid len) s = .next t ∧ EndsWith false false s t ∧
        KeepsBut [.status] [] s t ∧ MemoriesKept s t)

/-! ### The A/C register file -/

/-- AC_RESET (44_ac_register_file.md R191) loads the template of 30_encoding.md R91 and the cache defaults; the A/C part is
then as block reset leaves it, with byte 26 stale at 0 where the valid checksum is 0xF5 (70_reset_and_hazards.md R261). -/
def Obligations.AcResetLoadsTheTemplate : Prop :=
  decode 0x40000000#32 = .ok .acReset ∧ ∀ s : State, ∃ t, exec .acReset s = .next t ∧
    t.ac.toList = [0x02#8, 0x20#8, 0xE0#8, 0x04#8, 0x00#8, 0x00#8, 0x00#8, 0x06#8, 0x02#8, 0x20#8, 0xE0#8, 0x04#8,
      0x00#8, 0x00#8, 0x00#8, 0x80#8, 0x00#8, 0x00#8, 0x00#8, 0x0E#8, 0xE0#8, 0x00#8, 0x00#8, 0x81#8, 0x00#8, 0x00#8,
      0x00#8] ∧
    t.tempCache = 25#8 ∧ t.swinghCache = 0x06#8 ∧
    EndsWith true false s t ∧ KeepsBut [.status, .tempCache, .swinghCache] (List.finRange 27) s t ∧ MemoriesKept s t ∧
    t.ac = (applyBlockReset s).ac ∧ t.tempCache = (applyBlockReset s).tempCache ∧
    t.swinghCache = (applyBlockReset s).swinghCache ∧ checksum t.ac.toList = 0xF5#8

/-- AC_GET_RAW (44_ac_register_file.md R192, R193): byte 26 becomes the checksum of the others, DBUF[0..26] the file. -/
def Obligations.AcGetRawFixesTheChecksumAndCopies : Prop :=
  decode 0x41000000#32 = .ok .acGetRaw ∧ ∀ s : State, ∃ t, exec .acGetRaw s = .next t ∧
    (∀ f : Nat → Byte, (∀ i : Fin 27, f i = s.acByte i) → (t.acByte 26).toNat = checksumNat f 27) ∧
    (∀ i : Fin 27, t.dbufByte i = t.acByte i) ∧ (∀ i, 27 ≤ i → t.dbufByte i = s.dbufByte i) ∧
    validChecksum (t.dbufBytes 27) = true ∧
    EndsWith true false s t ∧ KeepsBut [.status] [26] s t ∧ RawKept s t ∧ PlanKept s t

/-- AC_SET_RAW (44_ac_register_file.md R194): S becomes DBUF[0..26]; the caches and everything else stay. -/
def Obligations.AcSetRawCopiesDbufAndKeepsTheCaches : Prop :=
  decode 0x42000000#32 = .ok .acSetRaw ∧ ∀ s : State, ∃ t, exec .acSetRaw s = .next t ∧
    (∀ i : Fin 27, t.acByte i = s.dbufByte i) ∧
    EndsWith true false s t ∧ KeepsBut [.status] (List.finRange 27) s t ∧ MemoriesKept s t

/-- AC_SEND (44_ac_register_file.md R195): the checksum is fixed and PLAN holds `repeat + 1` copies of the 27-byte frame
of the file. -/
def Obligations.AcSendFixesTheChecksumAndWritesThePlan : Prop :=
  ∀ (s : State) (reps : Nat), s.params.wf → 440 * (reps + 1) ≤ s.params.planCap →
    ∃ t, exec (.acSend reps) s = .next t ∧
      (440 * (reps + 1) < 2 ^ 16 → t.planlen.toNat = 440 * (reps + 1)) ∧
      (∀ f : Nat → Byte, (∀ i : Fin 27, f i = s.acByte i) → (t.acByte 26).toNat = checksumNat f 27) ∧
      (∀ f : Nat → Byte, (∀ i : Fin 27, f i = t.acByte i) → ∀ j, j ≤ reps →
        FrameLayout s.params f 27 (fun i => (t.planEntry (j * 440 + i)).toNat)) ∧
      (∀ i, 440 * (reps + 1) ≤ i → t.planEntry i = s.planEntry i) ∧
      EndsWith true false s t ∧ KeepsBut [.status, .planlen] [26] s t ∧ RawKept s t ∧ DbufKept s t

/-- AC_GET_MODEL (44_ac_register_file.md R196, R197): the first signature that holds, in the order JKE, LKE, DKE, NKE. -/
def Obligations.AcGetModelTakesTheFirstSignature : Prop :=
  decode 0x45000000#32 = .ok .acGetModel ∧ ∀ s : State, ∃ t, exec .acGetModel s = .next t ∧
    (∀ jke lke dke nke : Prop,
      (jke ↔ s.acByte 17 = 0x00#8 ∧ 128 ≤ (s.acByte 23).toNat) →
      (lke ↔ s.acByte 17 = 0x06#8 ∧ (s.acByte 13).toNat % 16 = 2) →
      (dke ↔ s.acByte 23 = 0x01#8) → (nke ↔ s.acByte 17 = 0x06#8) →
      (t.result.toNat = 4 ↔ jke) ∧ (t.result.toNat = 1 ↔ ¬jke ∧ lke) ∧
      (t.result.toNat = 3 ↔ ¬jke ∧ ¬lke ∧ dke) ∧ (t.result.toNat = 2 ↔ ¬jke ∧ ¬lke ∧ ¬dke ∧ nke) ∧
      (t.result.toNat = 0 ↔ ¬jke ∧ ¬lke ∧ ¬dke ∧ ¬nke)) ∧
    EndsWith true false s t ∧ KeepsBut [.status, .result] [] s t ∧ MemoriesKept s t

/-- AC_SET_MODEL (44_ac_register_file.md R198, R199 (a); 30_encoding.md R90): the bytes each variant writes, and the
classification they give. For DKE byte 17 takes SWINGH_CACHE, which holds a valid direction (the premise is the clause of
the invariant that says so). -/
def Obligations.AcSetModelWritesTheVariantBytes : Prop :=
  ∀ (s : State) (m : Byte), m ∈ [1#8, 2#8, 3#8, 4#8] → swinghCodes.contains s.swinghCache = true →
    ∃ t, exec (.acSetModel m) s = .next t ∧
      (t.acByte 13).toNat = (s.acByte 13).toNat / 16 * 16 + (if m = 1#8 then 2 else 0) ∧
      t.acByte 17 = (if m = 3#8 then s.swinghCache else if m = 4#8 then 0x00#8 else 0x06#8) ∧
      t.acByte 23 = (if m = 3#8 then 0x01#8 else 0x81#8) ∧
      t.acByte 25 = (if m = 3#8 then 0x06#8 else 0x00#8) ∧
      (classify t.ac).code = m ∧
      EndsWith true false s t ∧ KeepsBut [.status] [13, 17, 23, 25] s t ∧ MemoriesKept s t

/-- How commands move the classification (44_ac_register_file.md R199 (b), (c); 70_reset_and_hazards.md R268): files that
agree on the low nibble of byte 13 and on bytes 17 and 23 classify alike (R196), AC_ON on an LKE file whose byte 23 is not
the DKE marker makes it NKE, no file classified LKE has its power bit set, and the mode, temperature, vertical swing, fan,
quiet and powerful setters never change the classification. -/
def Obligations.OnlyVariantBytesMoveTheClassification : Prop :=
  (∀ ac ac' : Vector Byte 27, ac[13].toNat % 16 = ac'[13].toNat % 16 → ac[17] = ac'[17] → ac[23] = ac'[23] →
    classify ac = classify ac') ∧
  (∀ ac : Vector Byte 27, classify ac = .lke → ac[13].getLsbD 0 = false) ∧
  (∀ s : State, classify s.ac = .lke → s.acByte 23 ≠ 0x01#8 →
    ∃ t, exec .acOn s = .next t ∧ classify t.ac = .nke) ∧
  ∀ (i : Instr) (s t : State),
    i.mnemonic ∈ ["AC_SET_MODE", "AC_SET_TEMP", "AC_SET_SWINGV", "AC_SET_FAN", "AC_SET_QUIET", "AC_SET_POWERFUL"] →
    exec i s = .next t → classify t.ac = classify s.ac

/-! ### The A/C accessors -/

/-- AC_ON, AC_OFF, AC_SET_POWER, AC_GET_POWER (45_ac_accessors.md R210–R213): bit 0 of byte 13, the other bits kept. -/
def Obligations.PowerCommandsMoveOneBit : Prop :=
  decode 0x50000000#32 = .ok .acOn ∧ decode 0x51000000#32 = .ok .acOff ∧
  (∀ b, decode (0x52#8 ++ 0#23 ++ BitVec.ofBool b) = .ok (.acSetPower b)) ∧
  decode 0x53000000#32 = .ok .acGetPower ∧ ∀ s : State,
    (∀ i b, i = .acOn ∧ b = true ∨ i = .acOff ∧ b = false ∨ i = .acSetPower b →
      ∃ t, exec i s = .next t ∧ (t.acByte 13).toNat = (s.acByte 13).toNat / 2 * 2 + b.toNat ∧
        EndsWith true false s t ∧ KeepsBut [.status] [13] s t ∧ MemoriesKept s t) ∧
    ∃ t, exec .acGetPower s = .next t ∧ t.result.toNat = (s.acByte 13).toNat % 2 ∧
      EndsWith true false s t ∧ KeepsBut [.status, .result] [] s t ∧ MemoriesKept s t

/-- AC_SET_TEMP and AC_GET_TEMP (45_ac_accessors.md R214–R216): twice the clamped temperature in byte 14, remembered only
when asked. -/
def Obligations.TempCommandsClampAndRemember : Prop :=
  (∀ (x : Byte) (rem : Bool), decode (0x56#8 ++ BitVec.ofBool rem ++ 0#15 ++ x) = .ok (.acSetTemp x.toNat rem)) ∧
  decode 0x57000000#32 = .ok .acGetTemp ∧ ∀ s : State,
    (∀ x rem, ∃ t, exec (.acSetTemp x rem) s = .next t ∧
      (t.acByte 14).toNat = 2 * min (max x 16) 30 ∧
      t.tempCache.toNat = (if rem then min (max x 16) 30 else s.tempCache.toNat) ∧
      EndsWith true false s t ∧ KeepsBut [.status, .tempCache] [14] s t ∧ MemoriesKept s t) ∧
    ∃ t, exec .acGetTemp s = .next t ∧ t.result.toNat = (s.acByte 14).toNat / 2 ∧
      EndsWith true false s t ∧ KeepsBut [.status, .result] [] s t ∧ MemoriesKept s t

/-- AC_SET_MODE and AC_GET_MODE (45_ac_accessors.md R217, R218; 30_encoding.md R84, R85): fan stores 27 °C and remembers
nothing, another recognised mode restores the remembered temperature, an unrecognised one gives auto and leaves the
temperature; the low nibble stays. -/
def Obligations.ModeCommandsFollowTheFanRule : Prop :=
  (∀ x : Byte, decode (0x54#8 ++ 0#16 ++ x) = .ok (.acSetMode x)) ∧
  decode 0x55000000#32 = .ok .acGetMode ∧ ∀ s : State,
    (∀ d : Byte, ∃ t, exec (.acSetMode d) s = .next t ∧
      (t.acByte 13).toNat =
        (if d ∈ [0#8, 2#8, 3#8, 4#8, 6#8] then d.toNat else 0) * 16 + (s.acByte 13).toNat % 16 ∧
      (d = 6#8 → (t.acByte 14).toNat = 54 ∧ t.tempCache = s.tempCache) ∧
      (d ∈ [0#8, 2#8, 3#8, 4#8] → (t.acByte 14).toNat = 2 * min (max s.tempCache.toNat 16) 30 ∧
        t.tempCache.toNat = min (max s.tempCache.toNat 16) 30) ∧
      (d ∉ [0#8, 2#8, 3#8, 4#8, 6#8] → t.acByte 14 = s.acByte 14 ∧ t.tempCache = s.tempCache) ∧
      EndsWith true false s t ∧ KeepsBut [.status, .tempCache] [13, 14] s t ∧ MemoriesKept s t) ∧
    ∃ t, exec .acGetMode s = .next t ∧ t.result.toNat = (s.acByte 13).toNat / 16 ∧
      EndsWith true false s t ∧ KeepsBut [.status, .result] [] s t ∧ MemoriesKept s t

/-- AC_SET_SWINGV and AC_GET_SWINGV (45_ac_accessors.md R219, R220): auto as it is, every other request clamped to 1 to 5;
the fan nibble stays. -/
def Obligations.SwingVCommandsClampAllButAuto : Prop :=
  (∀ x : Byte, decode (0x58#8 ++ 0#16 ++ x) = .ok (.acSetSwingV x.toNat)) ∧
  decode 0x59000000#32 = .ok .acGetSwingV ∧ ∀ s : State,
    (∀ e : Nat, ∃ t, exec (.acSetSwingV e) s = .next t ∧
      (t.acByte 16).toNat = (s.acByte 16).toNat / 16 * 16 + (if e = 15 then 15 else min (max e 1) 5) ∧
      EndsWith true false s t ∧ KeepsBut [.status] [16] s t ∧ MemoriesKept s t) ∧
    ∃ t, exec .acGetSwingV s = .next t ∧ t.result.toNat = (s.acByte 16).toNat % 16 ∧
      EndsWith true false s t ∧ KeepsBut [.status, .result] [] s t ∧ MemoriesKept s t

/-- AC_SET_SWINGH and AC_GET_SWINGH (45_ac_accessors.md R221–R223; 30_encoding.md R87): a valid direction is cached, and
written as it is on DKE, as middle on NKE and LKE, not at all on JKE and UNKNOWN; an invalid one is ignored. -/
def Obligations.SwingHCommandsFollowTheCapabilityTable : Prop :=
  (∀ x : Byte, decode (0x5A#8 ++ 0#16 ++ x) = .ok (.acSetSwingH x)) ∧
  decode 0x5B000000#32 = .ok .acGetSwingH ∧ ∀ s : State,
    (∀ d : Byte, d ∈ [0x0D#8, 0x06#8, 0x09#8, 0x0A#8, 0x0B#8, 0x0C#8] →
      ∃ t, exec (.acSetSwingH d) s = .next t ∧ t.swinghCache = d ∧
        t.acByte 17 = (if (classify s.ac).code = 3#8 then d
          else if (classify s.ac).code = 2#8 ∨ (classify s.ac).code = 1#8 then 0x06#8 else s.acByte 17) ∧
        EndsWith true false s t ∧ KeepsBut [.status, .swinghCache] [17] s t ∧ MemoriesKept s t) ∧
    (∀ d : Byte, d ∉ [0x0D#8, 0x06#8, 0x09#8, 0x0A#8, 0x0B#8, 0x0C#8] →
      ∃ t, exec (.acSetSwingH d) s = .next t ∧
        EndsWith true true s t ∧ KeepsBut [.status] [] s t ∧ MemoriesKept s t) ∧
    ∃ t, exec .acGetSwingH s = .next t ∧ t.result = s.acByte 17 ∧
      EndsWith true false s t ∧ KeepsBut [.status, .result] [] s t ∧ MemoriesKept s t

/-- AC_SET_FAN and AC_GET_FAN (45_ac_accessors.md R224, R225; 30_encoding.md R88): speeds 0 to 4 and 7 are stored with the
offset 3 and the swing nibble stays, another speed is ignored, and the getter wraps modulo 256. -/
def Obligations.FanCommandsOffsetAndIgnore : Prop :=
  (∀ x : Byte, decode (0x5C#8 ++ 0#16 ++ x) = .ok (.acSetFan x.toNat)) ∧
  decode 0x5D000000#32 = .ok .acGetFan ∧ ∀ s : State,
    (∀ n : Nat, n ≤ 4 ∨ n = 7 → ∃ t, exec (.acSetFan n) s = .next t ∧
      (t.acByte 16).toNat = (n + 3) * 16 + (s.acByte 16).toNat % 16 ∧
      EndsWith true false s t ∧ KeepsBut [.status] [16] s t ∧ MemoriesKept s t) ∧
    (∀ n : Nat, 4 < n → n ≠ 7 → ∃ t, exec (.acSetFan n) s = .next t ∧
      EndsWith true true s t ∧ KeepsBut [.status] [] s t ∧ MemoriesKept s t) ∧
    ∃ t, exec .acGetFan s = .next t ∧ t.result.toNat = ((s.acByte 16).toNat / 16 + 253) % 256 ∧
      EndsWith true false s t ∧ KeepsBut [.status, .result] [] s t ∧ MemoriesKept s t

/-- The quiet and powerful commands (45_ac_accessors.md R226–R231): setting one clears the other, clearing one leaves the
other, the other bits of byte 21 stay. -/
def Obligations.QuietAndPowerfulCommandsExcludeEachOther : Prop :=
  (∀ b, decode (0x5E#8 ++ 0#23 ++ BitVec.ofBool b) = .ok (.acSetQuiet b)) ∧ decode 0x5F000000#32 = .ok .acGetQuiet ∧
  (∀ b, decode (0x60#8 ++ 0#23 ++ BitVec.ofBool b) = .ok (.acSetPowerful b)) ∧
  decode 0x61000000#32 = .ok .acGetPowerful ∧ ∀ s : State,
    (∀ b, ∃ t, exec (.acSetQuiet b) s = .next t ∧ (t.acByte 21).getLsbD 0 = b ∧
      (t.acByte 21).getLsbD 5 = (!b && (s.acByte 21).getLsbD 5) ∧
      (∀ k, k ≠ 0 → k ≠ 5 → (t.acByte 21).getLsbD k = (s.acByte 21).getLsbD k) ∧
      EndsWith true false s t ∧ KeepsBut [.status] [21] s t ∧ MemoriesKept s t) ∧
    (∀ b, ∃ t, exec (.acSetPowerful b) s = .next t ∧ (t.acByte 21).getLsbD 5 = b ∧
      (t.acByte 21).getLsbD 0 = (!b && (s.acByte 21).getLsbD 0) ∧
      (∀ k, k ≠ 0 → k ≠ 5 → (t.acByte 21).getLsbD k = (s.acByte 21).getLsbD k) ∧
      EndsWith true false s t ∧ KeepsBut [.status] [21] s t ∧ MemoriesKept s t) ∧
    (∃ t, exec .acGetQuiet s = .next t ∧ t.result.toNat = (s.acByte 21).toNat % 2 ∧
      EndsWith true false s t ∧ KeepsBut [.status, .result] [] s t ∧ MemoriesKept s t) ∧
    ∃ t, exec .acGetPowerful s = .next t ∧ t.result.toNat = (s.acByte 21).toNat / 32 % 2 ∧
      EndsWith true false s t ∧ KeepsBut [.status, .result] [] s t ∧ MemoriesKept s t

/-- 45_ac_accessors.md R232: no host move leads from a state without the pair to one with quiet and powerful both set,
but an AC_SET_RAW; and of two setters the last one wins. -/
def Obligations.OnlySetRawLoadsQuietAndPowerfulTogether : Prop :=
  (∀ (m : HostMove) (s t : State), takeMove m s = .next t →
    ¬((s.acByte 21).getLsbD 0 = true ∧ (s.acByte 21).getLsbD 5 = true) →
    (t.acByte 21).getLsbD 0 = true → (t.acByte 21).getLsbD 5 = true →
    ∃ w, m = .write .cmd w ∧ w < 2 ^ 32 ∧ decode (BitVec.ofNat 32 w) = .ok .acSetRaw) ∧
  (∀ s : State, ∃ t u, exec (.acSetPowerful true) s = .next t ∧ exec (.acSetQuiet true) t = .next u ∧
    (u.acByte 21).getLsbD 0 = true ∧ (u.acByte 21).getLsbD 5 = false) ∧
  (∀ s : State, ∃ t u, exec (.acSetQuiet true) s = .next t ∧ exec (.acSetPowerful true) t = .next u ∧
    (u.acByte 21).getLsbD 0 = false ∧ (u.acByte 21).getLsbD 5 = true)

/-- 45_ac_accessors.md R233 (a): fan mode and then cool mode restore the remembered temperature. The premise is the clause
of the invariant that TEMP_CACHE is in the range. -/
def Obligations.FanThenCoolRestoresTheTemperature : Prop :=
  ∀ s : State, 16 ≤ s.tempCache.toNat → s.tempCache.toNat ≤ 30 →
    ∃ t u, exec (.acSetMode 6#8) s = .next t ∧ exec (.acSetMode 3#8) t = .next u ∧
      (u.acByte 14).toNat = 2 * s.tempCache.toNat ∧ u.tempCache = s.tempCache

/-- 45_ac_accessors.md R233 (b): a direction requested on a JKE file leaves byte 17, and is written when the file becomes
DKE after any run of commands with no accepted AC_SET_SWINGH and no AC_RESET between; AC_GET_SWINGH then gives it. -/
def Obligations.SwingDirectionSurvivesUntilDke : Prop :=
  ∀ (s : State) (d : Byte), classify s.ac = .jke → d ∈ [0x0D#8, 0x06#8, 0x09#8, 0x0A#8, 0x0B#8, 0x0C#8] →
    ∃ t, exec (.acSetSwingH d) s = .next t ∧ t.acByte 17 = s.acByte 17 ∧ t.swinghCache = d ∧
      ∀ (between : List Instr) (u : State),
        (∀ i ∈ between, i ≠ .acReset ∧ ∀ d', i = .acSetSwingH d' →
          d' ∉ [0x0D#8, 0x06#8, 0x09#8, 0x0A#8, 0x0B#8, 0x0C#8]) →
        runCommands between t = .next u →
        ∃ v x, exec (.acSetModel 3#8) u = .next v ∧ v.acByte 17 = d ∧
          exec .acGetSwingH v = .next x ∧ x.result = d
end

