-- ==== Sys2Proof/Laws/Memory.lean ====
section
/-! SUPPORT. The laws of a memory space: a run reads back as written, every other index reads as before, and the
canonical form is kept. -/

namespace Sys2Proof

theorem Memory.stored_append {w : Nat} (a b : Memory w) (i : Nat) :
    Memory.stored (a ++ b) i = (Memory.stored a i).or (Memory.stored b i) := by
  induction a with
  | nil => simp [Memory.stored]
  | cons c a ih =>
    obtain ⟨j, v⟩ := c
    by_cases h : j = i <;> simp [Memory.stored, h, ih]

theorem Memory.stored_filter_true {w : Nat} (m : Memory w) (p : Nat → Bool) (i : Nat) (h : p i = true) :
    Memory.stored (m.filter (fun c => p c.1)) i = Memory.stored m i := by
  induction m with
  | nil => rfl
  | cons c m ih =>
    obtain ⟨j, v⟩ := c
    by_cases hj : p j = true
    · simp [hj, Memory.stored, ih]
    · have : j ≠ i := by rintro rfl; exact hj h
      simp [hj, Memory.stored, ih, this]

theorem Memory.stored_filter_false {w : Nat} (m : Memory w) (p : Nat → Bool) (i : Nat) (h : p i = false) :
    Memory.stored (m.filter (fun c => p c.1)) i = none := by
  induction m with
  | nil => rfl
  | cons c m ih =>
    obtain ⟨j, v⟩ := c
    by_cases hj : p j = true
    · have : j ≠ i := by rintro rfl; simp [hj] at h
      simp [hj, Memory.stored, ih, this]
    · simp [hj, ih]

theorem Memory.stored_indexed {w : Nat} (vs : List (BitVec w)) (base i : Nat) :
    Memory.stored (Memory.indexed base vs) i = if base ≤ i then vs[i - base]? else none := by
  induction vs generalizing base with
  | nil => simp [Memory.indexed, Memory.stored]
  | cons v vs ih =>
    simp only [Memory.indexed, Memory.stored, ih]
    rcases Nat.lt_trichotomy base i with h | rfl | h
    · rw [if_neg (by omega), if_pos (by omega), if_pos (by omega)]
      obtain ⟨k, rfl⟩ : ∃ k, i = base + 1 + k := ⟨i - base - 1, by omega⟩
      simp [show base + 1 + k - base = k + 1 by omega]
    · simp
    · rw [if_neg (by omega), if_neg (by omega), if_neg (by omega)]

/-- The one fact about a write: an index of the run holds the run's element, every other index what it held. -/
theorem Memory.stored_writeRun {w : Nat} (m : Memory w) (base : Nat) (vs : List (BitVec w)) (i : Nat) :
    Memory.stored (Memory.writeRun m base vs) i =
      if base ≤ i ∧ i < base + vs.length then vs[i - base]? else Memory.stored m i := by
  unfold Memory.writeRun
  rw [Memory.stored_append, Memory.stored_append, Memory.stored_indexed]
  by_cases h1 : i < base
  · rw [Memory.stored_filter_true m (fun j => decide (j < base)) i (by simpa using h1),
      Memory.stored_filter_false m (fun j => decide (base + vs.length ≤ j)) i (by simp; omega),
      if_neg (by omega), if_neg (by omega)]
    simp
  · rw [Memory.stored_filter_false m (fun j => decide (j < base)) i (by simpa using h1), if_pos (by omega)]
    by_cases h2 : i < base + vs.length
    · rw [if_pos ⟨by omega, h2⟩, List.getElem?_eq_getElem (by omega)]
      simp
    · rw [Memory.stored_filter_true m (fun j => decide (base + vs.length ≤ j)) i (by simp; omega),
        if_neg (by omega), List.getElem?_eq_none (by omega)]
      simp

theorem Memory.stored_write {w : Nat} (m : Memory w) (j : Nat) (v : BitVec w) (i : Nat) :
    Memory.stored (Memory.write m j v) i = if i = j then some v else Memory.stored m i := by
  unfold Memory.write
  rw [Memory.stored_writeRun]
  by_cases h : i = j
  · subst h; simp
  · rw [if_neg (by simp only [List.length_singleton]; omega), if_neg h]

/-! ### The canonical form -/

theorem Memory.mem_indexed_bounds {w : Nat} {vs : List (BitVec w)} {base j : Nat}
    (h : j ∈ (Memory.indexed base vs).map (·.1)) : base ≤ j ∧ j < base + vs.length := by
  induction vs generalizing base with
  | nil => simp [Memory.indexed] at h
  | cons v vs ih =>
    simp only [Memory.indexed, List.map_cons, List.mem_cons] at h
    rcases h with rfl | h
    · simp
    · have := ih h
      simp only [List.length_cons]
      omega

theorem Memory.indexed_rising {w : Nat} (vs : List (BitVec w)) (base : Nat) :
    ((Memory.indexed base vs).map (·.1)).Pairwise (· < ·) := by
  induction vs generalizing base with
  | nil => simp [Memory.indexed]
  | cons v vs ih =>
    simp only [Memory.indexed, List.map_cons, List.pairwise_cons]
    exact ⟨fun j hj => by have := Memory.mem_indexed_bounds hj; omega, ih _⟩

theorem Memory.wf_iff {w cap : Nat} {m : Memory w} :
    Memory.wf cap m = true ↔ (m.map (·.1)).Pairwise (· < ·) ∧ ∀ j ∈ m.map (·.1), j < cap := by
  simp [Memory.wf]

/-- A run within the capacity keeps the canonical form. -/
theorem Memory.wf_writeRun {w cap : Nat} {m : Memory w} (h : Memory.wf cap m = true) (base : Nat)
    (vs : List (BitVec w)) (hb : base + vs.length ≤ cap) : Memory.wf cap (Memory.writeRun m base vs) = true := by
  rw [Memory.wf_iff] at h ⊢
  obtain ⟨hr, hc⟩ := h
  have sub : ∀ p : Nat × BitVec w → Bool, ((m.filter p).map (·.1)).Sublist (m.map (·.1)) :=
    fun p => List.filter_sublist.map _
  have low : ∀ j ∈ (m.filter (fun c => decide (c.1 < base))).map (·.1), j < base := by
    intro j hj
    simp only [List.mem_map, List.mem_filter, decide_eq_true_eq] at hj
    obtain ⟨c, ⟨_, hlt⟩, rfl⟩ := hj
    exact hlt
  have high : ∀ j ∈ (m.filter (fun c => decide (base + vs.length ≤ c.1))).map (·.1), base + vs.length ≤ j := by
    intro j hj
    simp only [List.mem_map, List.mem_filter, decide_eq_true_eq] at hj
    obtain ⟨c, ⟨_, hlt⟩, rfl⟩ := hj
    exact hlt
  refine ⟨?_, ?_⟩
  · simp only [Memory.writeRun, List.map_append]
    refine List.pairwise_append.2 ⟨List.pairwise_append.2 ⟨hr.sublist (sub _), Memory.indexed_rising _ _, ?_⟩,
      hr.sublist (sub _), ?_⟩
    · intro a ha b hb'
      have := low a ha
      have := Memory.mem_indexed_bounds hb'
      omega
    · intro a ha b hb'
      have hb2 := high b hb'
      rcases List.mem_append.1 ha with ha | ha
      · have := low a ha; omega
      · have := Memory.mem_indexed_bounds ha; omega
  · intro j hj
    simp only [Memory.writeRun, List.map_append, List.mem_append] at hj
    rcases hj with (hj | hj) | hj
    · exact hc j ((sub _).subset hj)
    · have := Memory.mem_indexed_bounds hj; omega
    · exact hc j ((sub _).subset hj)

theorem Memory.wf_write {w cap : Nat} {m : Memory w} (h : Memory.wf cap m = true) {i : Nat} (hi : i < cap)
    (v : BitVec w) : Memory.wf cap (Memory.write m i v) = true :=
  Memory.wf_writeRun h i [v] (by simp only [List.length_singleton]; omega)

end Sys2Proof
end

