-- ==== Sys2Proof/Laws/State.lean ====
section
/-! SUPPORT. One lemma per field per shared update of the state, each true by rfl, so that no proof unfolds a record
update. -/

namespace Sys2Proof.Machine

/-! ### The ways a command ends -/

@[simp] theorem succeed_eq (s : State) : succeed s = writeOutcome true false s := rfl
@[simp] theorem fail_eq (k : FailKind) (s : State) : fail k s = writeOutcome false false s := rfl
@[simp] theorem ignore_eq (s : State) : ignore s = writeOutcome true true s := rfl

/-! ### writeOutcome -/

@[simp] theorem writeOutcome_pending (ok ign : Bool) (s : State) : (writeOutcome ok ign s).pending = s.pending := rfl
@[simp] theorem writeOutcome_proto (ok ign : Bool) (s : State) : (writeOutcome ok ign s).proto = s.proto := rfl
@[simp] theorem writeOutcome_bits (ok ign : Bool) (s : State) : (writeOutcome ok ign s).bits = s.bits := rfl
@[simp] theorem writeOutcome_value (ok ign : Bool) (s : State) : (writeOutcome ok ign s).value = s.value := rfl
@[simp] theorem writeOutcome_address (ok ign : Bool) (s : State) : (writeOutcome ok ign s).address = s.address := rfl
@[simp] theorem writeOutcome_command (ok ign : Bool) (s : State) : (writeOutcome ok ign s).command = s.command := rfl
@[simp] theorem writeOutcome_mfr (ok ign : Bool) (s : State) : (writeOutcome ok ign s).mfr = s.mfr := rfl
@[simp] theorem writeOutcome_rawlen (ok ign : Bool) (s : State) : (writeOutcome ok ign s).rawlen = s.rawlen := rfl
@[simp] theorem writeOutcome_mtick (ok ign : Bool) (s : State) : (writeOutcome ok ign s).mtick = s.mtick := rfl
@[simp] theorem writeOutcome_stick (ok ign : Bool) (s : State) : (writeOutcome ok ign s).stick = s.stick := rfl
@[simp] theorem writeOutcome_used (ok ign : Bool) (s : State) : (writeOutcome ok ign s).used = s.used := rfl
@[simp] theorem writeOutcome_result (ok ign : Bool) (s : State) : (writeOutcome ok ign s).result = s.result := rfl
@[simp] theorem writeOutcome_planlen (ok ign : Bool) (s : State) : (writeOutcome ok ign s).planlen = s.planlen := rfl
@[simp] theorem writeOutcome_ac (ok ign : Bool) (s : State) : (writeOutcome ok ign s).ac = s.ac := rfl
@[simp] theorem writeOutcome_tempCache (ok ign : Bool) (s : State) : (writeOutcome ok ign s).tempCache = s.tempCache := rfl
@[simp] theorem writeOutcome_swinghCache (ok ign : Bool) (s : State) : (writeOutcome ok ign s).swinghCache = s.swinghCache := rfl
@[simp] theorem writeOutcome_raw (ok ign : Bool) (s : State) : (writeOutcome ok ign s).raw = s.raw := rfl
@[simp] theorem writeOutcome_dbuf (ok ign : Bool) (s : State) : (writeOutcome ok ign s).dbuf = s.dbuf := rfl
@[simp] theorem writeOutcome_plan (ok ign : Bool) (s : State) : (writeOutcome ok ign s).plan = s.plan := rfl
@[simp] theorem writeOutcome_memDraw (ok ign : Bool) (s : State) : (writeOutcome ok ign s).memDraw = s.memDraw := rfl
@[simp] theorem writeOutcome_draws (ok ign : Bool) (s : State) : (writeOutcome ok ign s).draws = s.draws := rfl
@[simp] theorem writeOutcome_params (ok ign : Bool) (s : State) : (writeOutcome ok ign s).params = s.params := rfl

/-! ### raiseIllegalCommand -/

@[simp] theorem raiseIllegalCommand_pending (s : State) : (raiseIllegalCommand s).pending = s.pending := rfl
@[simp] theorem raiseIllegalCommand_proto (s : State) : (raiseIllegalCommand s).proto = s.proto := rfl
@[simp] theorem raiseIllegalCommand_bits (s : State) : (raiseIllegalCommand s).bits = s.bits := rfl
@[simp] theorem raiseIllegalCommand_value (s : State) : (raiseIllegalCommand s).value = s.value := rfl
@[simp] theorem raiseIllegalCommand_address (s : State) : (raiseIllegalCommand s).address = s.address := rfl
@[simp] theorem raiseIllegalCommand_command (s : State) : (raiseIllegalCommand s).command = s.command := rfl
@[simp] theorem raiseIllegalCommand_mfr (s : State) : (raiseIllegalCommand s).mfr = s.mfr := rfl
@[simp] theorem raiseIllegalCommand_rawlen (s : State) : (raiseIllegalCommand s).rawlen = s.rawlen := rfl
@[simp] theorem raiseIllegalCommand_mtick (s : State) : (raiseIllegalCommand s).mtick = s.mtick := rfl
@[simp] theorem raiseIllegalCommand_stick (s : State) : (raiseIllegalCommand s).stick = s.stick := rfl
@[simp] theorem raiseIllegalCommand_used (s : State) : (raiseIllegalCommand s).used = s.used := rfl
@[simp] theorem raiseIllegalCommand_result (s : State) : (raiseIllegalCommand s).result = s.result := rfl
@[simp] theorem raiseIllegalCommand_planlen (s : State) : (raiseIllegalCommand s).planlen = s.planlen := rfl
@[simp] theorem raiseIllegalCommand_ac (s : State) : (raiseIllegalCommand s).ac = s.ac := rfl
@[simp] theorem raiseIllegalCommand_tempCache (s : State) : (raiseIllegalCommand s).tempCache = s.tempCache := rfl
@[simp] theorem raiseIllegalCommand_swinghCache (s : State) : (raiseIllegalCommand s).swinghCache = s.swinghCache := rfl
@[simp] theorem raiseIllegalCommand_raw (s : State) : (raiseIllegalCommand s).raw = s.raw := rfl
@[simp] theorem raiseIllegalCommand_dbuf (s : State) : (raiseIllegalCommand s).dbuf = s.dbuf := rfl
@[simp] theorem raiseIllegalCommand_plan (s : State) : (raiseIllegalCommand s).plan = s.plan := rfl
@[simp] theorem raiseIllegalCommand_memDraw (s : State) : (raiseIllegalCommand s).memDraw = s.memDraw := rfl
@[simp] theorem raiseIllegalCommand_draws (s : State) : (raiseIllegalCommand s).draws = s.draws := rfl
@[simp] theorem raiseIllegalCommand_params (s : State) : (raiseIllegalCommand s).params = s.params := rfl

/-! ### State.setAc -/

@[simp] theorem setAc_pending (s : State) (i : Fin 27) (v : Byte) : (s.setAc i v).pending = s.pending := rfl
@[simp] theorem setAc_status (s : State) (i : Fin 27) (v : Byte) : (s.setAc i v).status = s.status := rfl
@[simp] theorem setAc_proto (s : State) (i : Fin 27) (v : Byte) : (s.setAc i v).proto = s.proto := rfl
@[simp] theorem setAc_bits (s : State) (i : Fin 27) (v : Byte) : (s.setAc i v).bits = s.bits := rfl
@[simp] theorem setAc_value (s : State) (i : Fin 27) (v : Byte) : (s.setAc i v).value = s.value := rfl
@[simp] theorem setAc_address (s : State) (i : Fin 27) (v : Byte) : (s.setAc i v).address = s.address := rfl
@[simp] theorem setAc_command (s : State) (i : Fin 27) (v : Byte) : (s.setAc i v).command = s.command := rfl
@[simp] theorem setAc_mfr (s : State) (i : Fin 27) (v : Byte) : (s.setAc i v).mfr = s.mfr := rfl
@[simp] theorem setAc_rawlen (s : State) (i : Fin 27) (v : Byte) : (s.setAc i v).rawlen = s.rawlen := rfl
@[simp] theorem setAc_mtick (s : State) (i : Fin 27) (v : Byte) : (s.setAc i v).mtick = s.mtick := rfl
@[simp] theorem setAc_stick (s : State) (i : Fin 27) (v : Byte) : (s.setAc i v).stick = s.stick := rfl
@[simp] theorem setAc_used (s : State) (i : Fin 27) (v : Byte) : (s.setAc i v).used = s.used := rfl
@[simp] theorem setAc_result (s : State) (i : Fin 27) (v : Byte) : (s.setAc i v).result = s.result := rfl
@[simp] theorem setAc_planlen (s : State) (i : Fin 27) (v : Byte) : (s.setAc i v).planlen = s.planlen := rfl
@[simp] theorem setAc_tempCache (s : State) (i : Fin 27) (v : Byte) : (s.setAc i v).tempCache = s.tempCache := rfl
@[simp] theorem setAc_swinghCache (s : State) (i : Fin 27) (v : Byte) : (s.setAc i v).swinghCache = s.swinghCache := rfl
@[simp] theorem setAc_raw (s : State) (i : Fin 27) (v : Byte) : (s.setAc i v).raw = s.raw := rfl
@[simp] theorem setAc_dbuf (s : State) (i : Fin 27) (v : Byte) : (s.setAc i v).dbuf = s.dbuf := rfl
@[simp] theorem setAc_plan (s : State) (i : Fin 27) (v : Byte) : (s.setAc i v).plan = s.plan := rfl
@[simp] theorem setAc_memDraw (s : State) (i : Fin 27) (v : Byte) : (s.setAc i v).memDraw = s.memDraw := rfl
@[simp] theorem setAc_draws (s : State) (i : Fin 27) (v : Byte) : (s.setAc i v).draws = s.draws := rfl
@[simp] theorem setAc_params (s : State) (i : Fin 27) (v : Byte) : (s.setAc i v).params = s.params := rfl
@[simp] theorem setAc_ac (s : State) (i : Fin 27) (v : Byte) : (s.setAc i v).ac = s.ac.set i v := rfl

/-! ### State.storeDbuf -/

@[simp] theorem storeDbuf_pending (s : State) (vs : List Byte) : (s.storeDbuf vs).pending = s.pending := rfl
@[simp] theorem storeDbuf_status (s : State) (vs : List Byte) : (s.storeDbuf vs).status = s.status := rfl
@[simp] theorem storeDbuf_proto (s : State) (vs : List Byte) : (s.storeDbuf vs).proto = s.proto := rfl
@[simp] theorem storeDbuf_bits (s : State) (vs : List Byte) : (s.storeDbuf vs).bits = s.bits := rfl
@[simp] theorem storeDbuf_value (s : State) (vs : List Byte) : (s.storeDbuf vs).value = s.value := rfl
@[simp] theorem storeDbuf_address (s : State) (vs : List Byte) : (s.storeDbuf vs).address = s.address := rfl
@[simp] theorem storeDbuf_command (s : State) (vs : List Byte) : (s.storeDbuf vs).command = s.command := rfl
@[simp] theorem storeDbuf_mfr (s : State) (vs : List Byte) : (s.storeDbuf vs).mfr = s.mfr := rfl
@[simp] theorem storeDbuf_rawlen (s : State) (vs : List Byte) : (s.storeDbuf vs).rawlen = s.rawlen := rfl
@[simp] theorem storeDbuf_mtick (s : State) (vs : List Byte) : (s.storeDbuf vs).mtick = s.mtick := rfl
@[simp] theorem storeDbuf_stick (s : State) (vs : List Byte) : (s.storeDbuf vs).stick = s.stick := rfl
@[simp] theorem storeDbuf_used (s : State) (vs : List Byte) : (s.storeDbuf vs).used = s.used := rfl
@[simp] theorem storeDbuf_result (s : State) (vs : List Byte) : (s.storeDbuf vs).result = s.result := rfl
@[simp] theorem storeDbuf_planlen (s : State) (vs : List Byte) : (s.storeDbuf vs).planlen = s.planlen := rfl
@[simp] theorem storeDbuf_ac (s : State) (vs : List Byte) : (s.storeDbuf vs).ac = s.ac := rfl
@[simp] theorem storeDbuf_tempCache (s : State) (vs : List Byte) : (s.storeDbuf vs).tempCache = s.tempCache := rfl
@[simp] theorem storeDbuf_swinghCache (s : State) (vs : List Byte) : (s.storeDbuf vs).swinghCache = s.swinghCache := rfl
@[simp] theorem storeDbuf_raw (s : State) (vs : List Byte) : (s.storeDbuf vs).raw = s.raw := rfl
@[simp] theorem storeDbuf_plan (s : State) (vs : List Byte) : (s.storeDbuf vs).plan = s.plan := rfl
@[simp] theorem storeDbuf_memDraw (s : State) (vs : List Byte) : (s.storeDbuf vs).memDraw = s.memDraw := rfl
@[simp] theorem storeDbuf_draws (s : State) (vs : List Byte) : (s.storeDbuf vs).draws = s.draws := rfl
@[simp] theorem storeDbuf_params (s : State) (vs : List Byte) : (s.storeDbuf vs).params = s.params := rfl
@[simp] theorem storeDbuf_dbuf (s : State) (vs : List Byte) : (s.storeDbuf vs).dbuf = Memory.writeRun s.dbuf 0 vs := rfl

/-! ### drawDbuf -/

@[simp] theorem drawDbuf_pending (n : Nat) (s : State) : (drawDbuf n s).pending = s.pending := rfl
@[simp] theorem drawDbuf_status (n : Nat) (s : State) : (drawDbuf n s).status = s.status := rfl
@[simp] theorem drawDbuf_proto (n : Nat) (s : State) : (drawDbuf n s).proto = s.proto := rfl
@[simp] theorem drawDbuf_bits (n : Nat) (s : State) : (drawDbuf n s).bits = s.bits := rfl
@[simp] theorem drawDbuf_value (n : Nat) (s : State) : (drawDbuf n s).value = s.value := rfl
@[simp] theorem drawDbuf_address (n : Nat) (s : State) : (drawDbuf n s).address = s.address := rfl
@[simp] theorem drawDbuf_command (n : Nat) (s : State) : (drawDbuf n s).command = s.command := rfl
@[simp] theorem drawDbuf_mfr (n : Nat) (s : State) : (drawDbuf n s).mfr = s.mfr := rfl
@[simp] theorem drawDbuf_rawlen (n : Nat) (s : State) : (drawDbuf n s).rawlen = s.rawlen := rfl
@[simp] theorem drawDbuf_mtick (n : Nat) (s : State) : (drawDbuf n s).mtick = s.mtick := rfl
@[simp] theorem drawDbuf_stick (n : Nat) (s : State) : (drawDbuf n s).stick = s.stick := rfl
@[simp] theorem drawDbuf_used (n : Nat) (s : State) : (drawDbuf n s).used = s.used := rfl
@[simp] theorem drawDbuf_result (n : Nat) (s : State) : (drawDbuf n s).result = s.result := rfl
@[simp] theorem drawDbuf_planlen (n : Nat) (s : State) : (drawDbuf n s).planlen = s.planlen := rfl
@[simp] theorem drawDbuf_ac (n : Nat) (s : State) : (drawDbuf n s).ac = s.ac := rfl
@[simp] theorem drawDbuf_tempCache (n : Nat) (s : State) : (drawDbuf n s).tempCache = s.tempCache := rfl
@[simp] theorem drawDbuf_swinghCache (n : Nat) (s : State) : (drawDbuf n s).swinghCache = s.swinghCache := rfl
@[simp] theorem drawDbuf_raw (n : Nat) (s : State) : (drawDbuf n s).raw = s.raw := rfl
@[simp] theorem drawDbuf_plan (n : Nat) (s : State) : (drawDbuf n s).plan = s.plan := rfl
@[simp] theorem drawDbuf_memDraw (n : Nat) (s : State) : (drawDbuf n s).memDraw = s.memDraw := rfl
@[simp] theorem drawDbuf_params (n : Nat) (s : State) : (drawDbuf n s).params = s.params := rfl

/-! ### storePlan -/

@[simp] theorem storePlan_pending (p : List Nat) (s : State) : (storePlan p s).pending = s.pending := rfl
@[simp] theorem storePlan_status (p : List Nat) (s : State) : (storePlan p s).status = s.status := rfl
@[simp] theorem storePlan_proto (p : List Nat) (s : State) : (storePlan p s).proto = s.proto := rfl
@[simp] theorem storePlan_bits (p : List Nat) (s : State) : (storePlan p s).bits = s.bits := rfl
@[simp] theorem storePlan_value (p : List Nat) (s : State) : (storePlan p s).value = s.value := rfl
@[simp] theorem storePlan_address (p : List Nat) (s : State) : (storePlan p s).address = s.address := rfl
@[simp] theorem storePlan_command (p : List Nat) (s : State) : (storePlan p s).command = s.command := rfl
@[simp] theorem storePlan_mfr (p : List Nat) (s : State) : (storePlan p s).mfr = s.mfr := rfl
@[simp] theorem storePlan_rawlen (p : List Nat) (s : State) : (storePlan p s).rawlen = s.rawlen := rfl
@[simp] theorem storePlan_mtick (p : List Nat) (s : State) : (storePlan p s).mtick = s.mtick := rfl
@[simp] theorem storePlan_stick (p : List Nat) (s : State) : (storePlan p s).stick = s.stick := rfl
@[simp] theorem storePlan_used (p : List Nat) (s : State) : (storePlan p s).used = s.used := rfl
@[simp] theorem storePlan_result (p : List Nat) (s : State) : (storePlan p s).result = s.result := rfl
@[simp] theorem storePlan_ac (p : List Nat) (s : State) : (storePlan p s).ac = s.ac := rfl
@[simp] theorem storePlan_tempCache (p : List Nat) (s : State) : (storePlan p s).tempCache = s.tempCache := rfl
@[simp] theorem storePlan_swinghCache (p : List Nat) (s : State) : (storePlan p s).swinghCache = s.swinghCache := rfl
@[simp] theorem storePlan_raw (p : List Nat) (s : State) : (storePlan p s).raw = s.raw := rfl
@[simp] theorem storePlan_dbuf (p : List Nat) (s : State) : (storePlan p s).dbuf = s.dbuf := rfl
@[simp] theorem storePlan_memDraw (p : List Nat) (s : State) : (storePlan p s).memDraw = s.memDraw := rfl
@[simp] theorem storePlan_params (p : List Nat) (s : State) : (storePlan p s).params = s.params := rfl

/-! ### giveResult -/

@[simp] theorem giveResult_eq (v : BitVec 8) (s : State) :
    giveResult v s = writeOutcome true false { s with result := v } := rfl

end Sys2Proof.Machine
end

