-- ==== Sys2Proof/Laws/Ops.lean ====
section
/-! SUPPORT. One lemma per shared operation that says what it does: the ways a command ends, the reads after each
write, and the plan write of a send. -/

namespace Sys2Proof.Machine

/-! ### STATUS -/

theorem status_writeOutcome_getLsbD (ok ign : Bool) (s : State) (b : Nat) :
    (writeOutcome ok ign s).status.getLsbD b =
      if b = 0 then ok else if b = 1 then ign else s.status.getLsbD b := by
  obtain hb | hb : b < 8 ∨ 8 ≤ b := by omega
  · obtain rfl | rfl | rfl | rfl | rfl | rfl | rfl | rfl :
      b = 0 ∨ b = 1 ∨ b = 2 ∨ b = 3 ∨ b = 4 ∨ b = 5 ∨ b = 6 ∨ b = 7 := by omega
    all_goals cases ok <;> cases ign <;> simp [writeOutcome]
  · rw [BitVec.getLsbD_of_ge _ _ hb, BitVec.getLsbD_of_ge _ _ hb, if_neg (by omega), if_neg (by omega)]

@[simp] theorem writeOutcome_ok (ok ign : Bool) (s : State) : (writeOutcome ok ign s).ok = ok := by
  rw [State.ok, status_writeOutcome_getLsbD]; simp

@[simp] theorem writeOutcome_ign (ok ign : Bool) (s : State) : (writeOutcome ok ign s).ign = ign := by
  rw [State.ign, status_writeOutcome_getLsbD]; simp

@[simp] theorem writeOutcome_ill (ok ign : Bool) (s : State) : (writeOutcome ok ign s).ill = s.ill := by
  rw [State.ill, status_writeOutcome_getLsbD]; simp [State.ill]

/-- Whatever a command did before, ending it writes OK and IGN and leaves ILL and the reserved bits as they were. -/
theorem endsWith_writeOutcome {ok ign : Bool} {s t : State} (h : t.status = s.status) :
    EndsWith ok ign s (writeOutcome ok ign t) := by
  refine ⟨by simp, by simp, fun b hb => ?_⟩
  rw [status_writeOutcome_getLsbD, if_neg (by omega), if_neg (by omega), h]

theorem status_raiseIllegalCommand_getLsbD (s : State) (b : Nat) :
    (raiseIllegalCommand s).status.getLsbD b = if b < 3 then decide (b = 2) else s.status.getLsbD b := by
  obtain hb | hb : b < 8 ∨ 8 ≤ b := by omega
  · obtain rfl | rfl | rfl | rfl | rfl | rfl | rfl | rfl :
      b = 0 ∨ b = 1 ∨ b = 2 ∨ b = 3 ∨ b = 4 ∨ b = 5 ∨ b = 6 ∨ b = 7 := by omega
    all_goals simp [raiseIllegalCommand]
  · rw [BitVec.getLsbD_of_ge _ _ hb, BitVec.getLsbD_of_ge _ _ hb, if_neg (by omega)]

@[simp] theorem raiseIllegalCommand_ok (s : State) : (raiseIllegalCommand s).ok = false := by
  rw [State.ok, status_raiseIllegalCommand_getLsbD]; simp

@[simp] theorem raiseIllegalCommand_ign (s : State) : (raiseIllegalCommand s).ign = false := by
  rw [State.ign, status_raiseIllegalCommand_getLsbD]; simp

@[simp] theorem raiseIllegalCommand_ill (s : State) : (raiseIllegalCommand s).ill = true := by
  rw [State.ill, status_raiseIllegalCommand_getLsbD]; simp

/-- Ending a command leaves the reserved bits of STATUS. -/
theorem reserved_writeOutcome (ok ign : Bool) (s : State) :
    (writeOutcome ok ign s).status &&& 0xF8#8 = s.status &&& 0xF8#8 := by
  apply BitVec.eq_of_getLsbD_eq
  intro i hi
  rw [BitVec.getLsbD_and, BitVec.getLsbD_and, status_writeOutcome_getLsbD]
  interval_cases i <;> simp

/-- IllegalCommand leaves the reserved bits of STATUS. -/
theorem reserved_raiseIllegalCommand (s : State) :
    (raiseIllegalCommand s).status &&& 0xF8#8 = s.status &&& 0xF8#8 := by
  apply BitVec.eq_of_getLsbD_eq
  intro i hi
  rw [BitVec.getLsbD_and, BitVec.getLsbD_and, status_raiseIllegalCommand_getLsbD]
  interval_cases i <;> simp

/-! ### Reads after the updates that do not touch them -/

@[simp] theorem rawEntry_writeOutcome (ok ign : Bool) (s : State) :
    (writeOutcome ok ign s).rawEntry = s.rawEntry := rfl
@[simp] theorem dbufByte_writeOutcome (ok ign : Bool) (s : State) :
    (writeOutcome ok ign s).dbufByte = s.dbufByte := rfl
@[simp] theorem planEntry_writeOutcome (ok ign : Bool) (s : State) :
    (writeOutcome ok ign s).planEntry = s.planEntry := rfl
@[simp] theorem acByte_writeOutcome (ok ign : Bool) (s : State) : (writeOutcome ok ign s).acByte = s.acByte := rfl
@[simp] theorem sample_writeOutcome (ok ign : Bool) (s : State) : (writeOutcome ok ign s).sample = s.sample := rfl

@[simp] theorem rawEntry_setAc (s : State) (i : Fin 27) (v : Byte) : (s.setAc i v).rawEntry = s.rawEntry := rfl
@[simp] theorem dbufByte_setAc (s : State) (i : Fin 27) (v : Byte) : (s.setAc i v).dbufByte = s.dbufByte := rfl
@[simp] theorem planEntry_setAc (s : State) (i : Fin 27) (v : Byte) : (s.setAc i v).planEntry = s.planEntry := rfl

@[simp] theorem rawEntry_storeDbuf (s : State) (vs : List Byte) : (s.storeDbuf vs).rawEntry = s.rawEntry := rfl
@[simp] theorem planEntry_storeDbuf (s : State) (vs : List Byte) : (s.storeDbuf vs).planEntry = s.planEntry := rfl
@[simp] theorem acByte_storeDbuf (s : State) (vs : List Byte) : (s.storeDbuf vs).acByte = s.acByte := rfl

@[simp] theorem rawEntry_drawDbuf (n : Nat) (s : State) : (drawDbuf n s).rawEntry = s.rawEntry := rfl
@[simp] theorem planEntry_drawDbuf (n : Nat) (s : State) : (drawDbuf n s).planEntry = s.planEntry := rfl
@[simp] theorem acByte_drawDbuf (n : Nat) (s : State) : (drawDbuf n s).acByte = s.acByte := rfl

@[simp] theorem rawEntry_storePlan (p : List Nat) (s : State) : (storePlan p s).rawEntry = s.rawEntry := rfl
@[simp] theorem dbufByte_storePlan (p : List Nat) (s : State) : (storePlan p s).dbufByte = s.dbufByte := rfl
@[simp] theorem acByte_storePlan (p : List Nat) (s : State) : (storePlan p s).acByte = s.acByte := rfl

/-! ### Reads after writes -/

/-- A byte written to the A/C file reads back, and every other byte reads as before. -/
theorem acByte_setAc (s : State) (i j : Fin 27) (v : Byte) :
    (s.setAc i v).acByte j = if j = i then v else s.acByte j := by
  simp only [State.acByte, State.setAc, Fin.getElem_fin]
  by_cases h : j = i
  · subst h; simp
  · rw [if_neg h, Vector.getElem_set_ne _ _ (by omega)]

@[simp] theorem acByte_setAc_same (s : State) (i : Fin 27) (v : Byte) : (s.setAc i v).acByte i = v := by
  simp [acByte_setAc]

theorem acByte_setAc_ne (s : State) {i j : Fin 27} (v : Byte) (h : j ≠ i) :
    (s.setAc i v).acByte j = s.acByte j := by simp [acByte_setAc, h]

/-- DBUF after a run of bytes written from index 0. -/
theorem dbufByte_storeDbuf (s : State) (vs : List Byte) (i : Nat) :
    (s.storeDbuf vs).dbufByte i = vs[i]?.getD (s.dbufByte i) := by
  simp only [State.dbufByte, State.storeDbuf, dbufAt, Memory.stored_writeRun]
  by_cases h : i < vs.length <;> simp [h]

/-- DBUF after the draws of a failed decode. -/
theorem dbufByte_drawDbuf (n : Nat) (s : State) (i : Nat) :
    (drawDbuf n s).dbufByte i = if i < n then Config.dbufDraw s.draws i else s.dbufByte i := by
  simp only [State.dbufByte, drawDbuf, dbufAt, Memory.stored_writeRun]
  by_cases h : i < n <;> simp [h]

/-- PLAN after a plan is stored: the plan's entries, narrowed to 32 bits, and beyond it what PLAN held. -/
theorem planEntry_storePlan (p : List Nat) (s : State) (i : Nat) :
    (storePlan p s).planEntry i = (p[i]?.map (BitVec.ofNat 32)).getD (s.planEntry i) := by
  simp only [State.planEntry, storePlan, Memory.stored_writeRun]
  by_cases h : i < p.length <;> simp [h]

@[simp] theorem length_repeatFrame (frame : List Nat) (r : Nat) :
    (repeatFrame frame r).length = frame.length * (r + 1) := by
  simp [repeatFrame, Nat.mul_comm]

/-- Entry `i` of copy `j` in a repeated frame. -/
theorem getElem?_repeatFrame (frame : List Nat) (r j i : Nat) (hj : j ≤ r) (hi : i < frame.length) :
    (repeatFrame frame r)[j * frame.length + i]? = frame[i]? := by
  unfold repeatFrame
  induction r generalizing j with
  | zero =>
    obtain rfl : j = 0 := by omega
    simp
  | succ r ih =>
    rw [List.replicate_succ, List.flatten_cons]
    cases j with
    | zero => rw [List.getElem?_append_left (by omega)]; simp
    | succ j =>
      rw [List.getElem?_append_right (by rw [Nat.succ_mul]; omega),
        show (j + 1) * frame.length + i - frame.length = j * frame.length + i by rw [Nat.succ_mul]; omega]
      exact ih j (by omega)

/-- A send either fails with PLANLEN 0 or stores the whole plan (20_memory.md R63). -/
theorem writePlan_cases (frame : List Nat) (r : Nat) (s : State) :
    (s.params.planCap < frame.length * (r + 1) ∧
      writePlan frame r s = writeOutcome false false { s with planlen := 0 }) ∨
    (frame.length * (r + 1) ≤ s.params.planCap ∧
      writePlan frame r s = writeOutcome true false (storePlan (repeatFrame frame r) s)) := by
  unfold writePlan
  by_cases h : s.params.planCap < frame.length * (r + 1)
  · exact .inl ⟨h, by rw [if_pos h]; rfl⟩
  · exact .inr ⟨by omega, by rw [if_neg h]; rfl⟩

/-- The swing setter ignores an invalid direction, and otherwise writes the cache and at most byte 17
(45_ac_accessors.md R221). -/
theorem setSwingH_cases (d : Byte) (s : State) :
    (swinghCodes.contains d = false ∧ setSwingH d s = none) ∨
    (swinghCodes.contains d = true ∧ swinghWritten (classify s.ac) d = none ∧
      setSwingH d s = some { s with swinghCache := d }) ∨
    (swinghCodes.contains d = true ∧ ∃ x, swinghWritten (classify s.ac) d = some x ∧
      setSwingH d s = some ({ s with swinghCache := d }.setAc 17 x)) := by
  unfold setSwingH
  cases hd : swinghCodes.contains d
  · simp
  · cases hx : swinghWritten (classify s.ac) d <;> simp

end Sys2Proof.Machine
end

