-- ==== Sys2Proof/Laws/Accessors.lean ====
section
/-! SUPPORT. The bytes after each A/C field write, and the byte masks as arithmetic (45_ac_accessors.md). -/

namespace Sys2Proof.Machine

/-! ### Masks of one byte as arithmetic -/

theorem toNat_setBit0 : ∀ x : Byte, (x ||| 0x01#8).toNat = x.toNat / 2 * 2 + 1 := by decide

theorem toNat_clearBit0 : ∀ x : Byte, (x &&& 0xFE#8).toNat = x.toNat / 2 * 2 := by decide

theorem toNat_bit0 : ∀ x : Byte, (x &&& 0x01#8).toNat = x.toNat % 2 := by decide

theorem toNat_bit5 : ∀ x : Byte, (x >>> 5 &&& 0x01#8).toNat = x.toNat / 32 % 2 := by decide

theorem toNat_highNibble : ∀ x : Byte, (x >>> 4).toNat = x.toNat / 16 := by decide

theorem toNat_lowNibble : ∀ x : Byte, (x &&& 0x0F#8).toNat = x.toNat % 16 := by decide

theorem toNat_keepHighNibble : ∀ x : Byte, (x &&& 0xF0#8).toNat = x.toNat / 16 * 16 := by decide

theorem toNat_writeLowNibble : ∀ x : Byte, ∀ n : Fin 16,
    (x &&& 0xF0#8 ||| BitVec.ofNat 8 n.val).toNat = x.toNat / 16 * 16 + n.val := by decide

theorem toNat_writeHighNibble : ∀ x : Byte, ∀ n : Fin 16,
    (x &&& 0x0F#8 ||| BitVec.ofNat 8 n.val <<< 4).toNat = n.val * 16 + x.toNat % 16 := by decide

theorem toNat_shiftedNibble : ∀ n : Fin 16, BitVec.ofNat 8 (n.val <<< 4) = BitVec.ofNat 8 n.val <<< 4 := by decide

/-! ### The bytes after the shared writes -/

@[simp] theorem acByte_powerOn (s : State) (j : Fin 27) :
    (powerOn s).acByte j = if j = 13 then s.acByte 13 ||| 0x01#8 else s.acByte j := acByte_setAc _ _ _ _

@[simp] theorem acByte_powerOff (s : State) (j : Fin 27) :
    (powerOff s).acByte j = if j = 13 then s.acByte 13 &&& 0xFE#8 else s.acByte j := acByte_setAc _ _ _ _

@[simp] theorem acByte_setTemp (t : Nat) (b : Bool) (s : State) (j : Fin 27) :
    (setTemp t b s).acByte j = if j = 14 then BitVec.ofNat 8 (2 * min (max t 16) 30) else s.acByte j := by
  have e : (setTemp t b s).acByte j =
      (s.setAc 14 (BitVec.ofNat 8 ((min (max t tempMin) tempMax) <<< 1))).acByte j := rfl
  rw [e, acByte_setAc, Nat.shiftLeft_eq, Nat.mul_comm]
  rfl

@[simp] theorem tempCache_setTemp (t : Nat) (b : Bool) (s : State) :
    (setTemp t b s).tempCache = if b then BitVec.ofNat 8 (min (max t 16) 30) else s.tempCache := rfl

@[simp] theorem acByte_setModeNibble (m : Byte) (s : State) (j : Fin 27) :
    (setModeNibble m s).acByte j = if j = 13 then s.acByte 13 &&& 0x0F#8 ||| m <<< 4 else s.acByte j :=
  acByte_setAc _ _ _ _

@[simp] theorem tempCache_setModeNibble (m : Byte) (s : State) : (setModeNibble m s).tempCache = s.tempCache := rfl

theorem acByte_setQuiet (b : Bool) (s : State) (j : Fin 27) :
    (setQuiet b s).acByte j =
      if j = 21 then (if b then s.acByte 21 &&& 0xDF#8 ||| 0x01#8 else s.acByte 21 &&& 0xFE#8) else s.acByte j := by
  cases b
  · exact acByte_setAc _ _ _ _
  · by_cases hj : j = 21 <;> simp [setQuiet, clearPowerful, acByte_setAc, hj]

theorem acByte_setPowerful (b : Bool) (s : State) (j : Fin 27) :
    (setPowerful b s).acByte j =
      if j = 21 then (if b then s.acByte 21 &&& 0xFE#8 ||| 0x20#8 else s.acByte 21 &&& 0xDF#8) else s.acByte j := by
  cases b
  · exact acByte_setAc _ _ _ _
  · by_cases hj : j = 21 <;> simp [setPowerful, clearQuiet, acByte_setAc, hj]

/-! ### The variants -/

/-- The classification by the accessor of the file's bytes. -/
theorem classify_ac (s : State) :
    classify s.ac =
      if s.acByte 17 == 0x00#8 && (s.acByte 23).getLsbD 7 then .jke
      else if s.acByte 17 == 0x06#8 && s.acByte 13 &&& 0x0F#8 == 0x02#8 then .lke
      else if s.acByte 23 == 0x01#8 then .dke
      else if s.acByte 17 == 0x06#8 then .nke
      else .unknown := rfl

@[simp] theorem acByte_clearVariant (s : State) (j : Fin 27) :
    (clearVariant s).acByte j =
      if j = 25 then 0x00#8 else if j = 23 then 0x81#8 else if j = 17 then 0x00#8
      else if j = 13 then s.acByte 13 &&& 0xF0#8 else s.acByte j := by
  simp [clearVariant, acByte_setAc]

@[simp] theorem swinghCache_clearVariant (s : State) : (clearVariant s).swinghCache = s.swinghCache := rfl

/-- The DKE writes on a file whose byte 17 is 0 and whose cache is a valid direction: the swing setter sees DKE and
writes the cache (44_ac_register_file.md R198). -/
theorem acByte_setDke (s : State) (h17 : s.acByte 17 = 0x00#8) (hc : swinghCodes.contains s.swinghCache = true)
    (j : Fin 27) :
    (setDke s).acByte j =
      if j = 17 then s.swinghCache else if j = 25 then 0x06#8 else if j = 23 then 0x01#8 else s.acByte j := by
  have hcl : classify ((s.setAc 23 0x01#8).setAc 25 0x06#8).ac = .dke := by
    rw [classify_ac]
    simp [acByte_setAc, h17]
  unfold setDke
  simp only []
  rcases setSwingH_cases s.swinghCache ((s.setAc 23 0x01#8).setAc 25 0x06#8) with
    ⟨h, _⟩ | ⟨_, h, _⟩ | ⟨_, x, h, e⟩
  · rw [hc] at h
    cases h
  · rw [hcl] at h
    cases h
  · rw [hcl] at h
    cases h
    simp only [setAc_swinghCache, e, Option.getD]
    rw [acByte_setAc]
    show (if j = 17 then s.swinghCache else ((s.setAc 23 0x01#8).setAc 25 0x06#8).acByte j) = _
    rw [acByte_setAc, acByte_setAc]

end Sys2Proof.Machine
end

