-- ==== Sys2Proof/Laws/Calibrator.lean ====
section
/-! SUPPORT. What the extractor gives: the bits of the pairs in their places, or nothing (40_calibrator_extractor.md
R127). -/

namespace Sys2Proof.Machine

/-- Extraction fails as soon as one pair matches neither template. -/
theorem extractPairs_eq_none {s : State} {off : Nat} {t : Template} {n k : Nat} (hk : k < n)
    (h : pairBit t (s.sample (off + 2 * k)) (s.sample (off + 2 * k + 1)) = none) : extractPairs s off t n = none := by
  induction n with
  | zero => omega
  | succ n ih =>
    unfold extractPairs
    obtain hlt | rfl : k < n ∨ k = n := by omega
    · rw [ih hlt]
    · cases extractPairs s off t k <;> simp [h]

/-- An extraction that succeeds had a bit for every pair. -/
theorem pairBit_of_extractPairs {s : State} {off : Nat} {t : Template} {n v : Nat}
    (h : extractPairs s off t n = some v) {k : Nat} (hk : k < n) :
    ∃ b, pairBit t (s.sample (off + 2 * k)) (s.sample (off + 2 * k + 1)) = some b := by
  cases hp : pairBit t (s.sample (off + 2 * k)) (s.sample (off + 2 * k + 1)) with
  | none => rw [extractPairs_eq_none hk hp] at h; cases h
  | some b => exact ⟨b, rfl⟩

/-- The value of `n` matching pairs, least significant bit first: it is below 2 to the `n` and its bit `k` is the bit of
pair `k`. -/
theorem extractPairs_lsbFirst {s : State} {off : Nat} {t : Template} (hl : t.lsbFirst = true) {bit : Nat → Bool} {n : Nat}
    (h : ∀ k, k < n → pairBit t (s.sample (off + 2 * k)) (s.sample (off + 2 * k + 1)) = some (bit k)) :
    ∃ v, extractPairs s off t n = some v ∧ v < 2 ^ n ∧ ∀ k, v.testBit k = (decide (k < n) && bit k) := by
  induction n with
  | zero => exact ⟨0, rfl, by simp, fun k => by simp⟩
  | succ n ih =>
    obtain ⟨v, hv, hlt, hb⟩ := ih fun k hk => h k (by omega)
    have hbit : ∀ k, (v ||| (bit n).toNat <<< n).testBit k = (decide (k < n + 1) && bit k) := by
      intro k
      rw [Nat.testBit_or, Nat.testBit_shiftLeft, hb, Nat.testBit_bool_toNat]
      rcases Nat.lt_trichotomy k n with hk | rfl | hk
      · rw [decide_eq_true hk, decide_eq_true (show k < n + 1 by omega), decide_eq_false (show ¬k ≥ n by omega)]
        simp
      · simp
      · rw [decide_eq_false (show ¬k < n by omega), decide_eq_false (show ¬k < n + 1 by omega),
          decide_eq_true (show k ≥ n by omega), decide_eq_false (show ¬k - n = 0 by omega)]
        simp
    refine ⟨v ||| (bit n).toNat <<< n, ?_, ?_, hbit⟩
    · unfold extractPairs
      simp [hv, h n (by omega), hl]
    · refine Nat.lt_pow_two_of_testBit _ fun k hk => ?_
      rw [hbit, decide_eq_false (by omega)]
      rfl

/-- The value of `n` matching pairs, most significant bit first: its bit `k` is the bit of pair `n - 1 - k`. -/
theorem extractPairs_msbFirst {s : State} {off : Nat} {t : Template} (hl : t.lsbFirst = false) {bit : Nat → Bool} {n : Nat}
    (h : ∀ k, k < n → pairBit t (s.sample (off + 2 * k)) (s.sample (off + 2 * k + 1)) = some (bit k)) :
    ∃ v, extractPairs s off t n = some v ∧ v < 2 ^ n ∧ ∀ k, v.testBit k = (decide (k < n) && bit (n - 1 - k)) := by
  induction n with
  | zero => exact ⟨0, rfl, by simp, fun k => by simp⟩
  | succ n ih =>
    obtain ⟨v, hv, hlt, hb⟩ := ih fun k hk => h k (by omega)
    have hbit : ∀ k, (v <<< 1 ||| (bit n).toNat).testBit k = (decide (k < n + 1) && bit (n + 1 - 1 - k)) := by
      intro k
      rw [Nat.testBit_or, Nat.testBit_shiftLeft, hb, Nat.testBit_bool_toNat]
      cases k with
      | zero => simp
      | succ k =>
        rw [decide_eq_true (show k + 1 ≥ 1 by omega), decide_eq_false (show ¬k + 1 = 0 by omega),
          show n - 1 - (k + 1 - 1) = n + 1 - 1 - (k + 1) by omega,
          show decide (k + 1 - 1 < n) = decide (k + 1 < n + 1) by simp]
        simp
    refine ⟨v <<< 1 ||| (bit n).toNat, ?_, ?_, hbit⟩
    · unfold extractPairs
      simp [hv, h n (by omega), hl]
    · refine Nat.lt_pow_two_of_testBit _ fun k hk => ?_
      rw [hbit, decide_eq_false (by omega)]
      rfl

/-- Both orders at once, with the width check and the samples consumed. -/
theorem extractBits_of_pairs {s : State} {off : Nat} {t : Template} {bit : Nat → Bool} {n : Nat} (hn : n ≤ 64)
    (h : ∀ k, k < n → pairBit t (s.sample (off + 2 * k)) (s.sample (off + 2 * k + 1)) = some (bit k)) :
    ∃ v, extractBits s off n t = some (v, 2 * n) ∧ v < 2 ^ n ∧
      ∀ k, v.testBit k = (decide (k < n) && bit (if t.lsbFirst then k else n - 1 - k)) := by
  have hw : ¬valueBits < n := Nat.not_lt.2 hn
  cases hl : t.lsbFirst with
  | true =>
    obtain ⟨v, hv, hlt, hb⟩ := extractPairs_lsbFirst hl h
    exact ⟨v, by simp [extractBits, hw, hv], hlt, by simpa using hb⟩
  | false =>
    obtain ⟨v, hv, hlt, hb⟩ := extractPairs_msbFirst hl h
    exact ⟨v, by simp [extractBits, hw, hv], hlt, by simpa using hb⟩

/-- An extraction that succeeds consumed two samples for each bit and gives a value of its width. -/
theorem extractBits_some {s : State} {off n : Nat} {t : Template} {v u : Nat}
    (h : extractBits s off n t = some (v, u)) : n ≤ 64 ∧ u = 2 * n ∧ v < 2 ^ n := by
  have hn : n ≤ 64 := by
    by_contra hc
    simp [extractBits, show valueBits < n from Nat.lt_of_not_le hc] at h
  have hp : extractPairs s off t n = some v ∧ 2 * n = u := by
    simp only [extractBits, if_neg (show ¬valueBits < n from Nat.not_lt.2 hn)] at h
    split at h
    · cases h
    · cases h
      exact ⟨‹_›, rfl⟩
  have hall : ∀ k, ∃ b, k < n → pairBit t (s.sample (off + 2 * k)) (s.sample (off + 2 * k + 1)) = some b := by
    intro k
    by_cases hk : k < n
    · obtain ⟨b, hb⟩ := pairBit_of_extractPairs hp.1 hk
      exact ⟨b, fun _ => hb⟩
    · exact ⟨true, fun h => absurd h hk⟩
  obtain ⟨bit, hbit⟩ := Classical.axiomOfChoice hall
  obtain ⟨v', e, hlt, -⟩ := extractBits_of_pairs hn hbit
  rw [e] at h
  cases h
  exact ⟨hn, rfl, hlt⟩

end Sys2Proof.Machine
end

