-- ==== Sys2Proof/Laws/Encoding.lean ====
section
/-! SUPPORT. The words of the ten formats as sums of their fields, and the fields of a word as quotients, so that
encoding facts are arithmetic (30_encoding.md R93–R105). -/

namespace Sys2Proof

theorem toNat_append_add {m n : Nat} (x : BitVec m) (y : BitVec n) :
    (x ++ y).toNat = x.toNat * 2 ^ n + y.toNat := by
  rw [BitVec.toNat_append, Nat.shiftLeft_eq, ← Nat.shiftLeft_eq, ← Nat.shiftLeft_add_eq_or_of_lt y.isLt]

theorem field_eq (w : BitVec 32) (lo n : Nat) : field w lo n = w.toNat / 2 ^ lo % 2 ^ n := by
  simp [field, Nat.shiftRight_eq_div_pow]

theorem extractLsb'_eq_field (w : BitVec 32) (lo : Nat) : w.extractLsb' lo 8 = BitVec.ofNat 8 (field w lo 8) := by
  rw [field, BitVec.ofNat_toNat, BitVec.setWidth_eq]

theorem getLsbD_eq_field (w : BitVec 32) (lo : Nat) : w.getLsbD lo = decide (field w lo 1 = 1) := by
  rw [field_eq, BitVec.getLsbD, Nat.testBit_eq_decide_div_mod_eq, Nat.pow_one]

theorem toNat_wordN (op : BitVec 8) : (wordN op).toNat = op.toNat * 2 ^ 24 := by
  have h : (wordN op).toNat = op.toNat * 2 ^ 24 + (0#24).toNat := toNat_append_add _ _
  simpa using h

theorem toNat_wordB (op : BitVec 8) (b : Bool) : (wordB op b).toNat = op.toNat * 2 ^ 24 + b.toNat := by
  have h1 : (wordB op b).toNat = (op ++ 0#23).toNat * 2 ^ 1 + (BitVec.ofBool b).toNat := toNat_append_add _ _
  have h2 := toNat_append_add op 0#23
  rw [h1, h2]
  simp only [BitVec.toNat_ofNat, BitVec.toNat_ofBool, Nat.zero_mod]
  omega

theorem toNat_wordI8 (op : BitVec 8) (x : Byte) : (wordI8 op x).toNat = op.toNat * 2 ^ 24 + x.toNat := by
  have h1 : (wordI8 op x).toNat = (op ++ 0#16).toNat * 2 ^ 8 + x.toNat := toNat_append_add _ _
  have h2 := toNat_append_add op 0#16
  rw [h1, h2]
  simp only [BitVec.toNat_ofNat, Nat.zero_mod]
  omega

theorem toNat_wordT (op : BitVec 8) (t : Nat) (rem : Bool) :
    (wordT op t rem).toNat = op.toNat * 2 ^ 24 + rem.toNat * 2 ^ 23 + t % 2 ^ 8 := by
  have h1 : (wordT op t rem).toNat = (op ++ BitVec.ofBool rem ++ 0#15).toNat * 2 ^ 8 + (BitVec.ofNat 8 t).toNat :=
    toNat_append_add _ _
  have h2 := toNat_append_add (op ++ BitVec.ofBool rem) 0#15
  have h3 := toNat_append_add op (BitVec.ofBool rem)
  rw [h1, h2, h3]
  simp only [BitVec.toNat_ofNat, BitVec.toNat_ofBool, Nat.zero_mod]
  omega

theorem toNat_wordD (op : BitVec 8) (strict : Bool) (nbits : Nat) :
    (wordD op strict nbits).toNat = op.toNat * 2 ^ 24 + strict.toNat * 2 ^ 23 + nbits % 2 ^ 16 := by
  have h1 : (wordD op strict nbits).toNat =
      (op ++ BitVec.ofBool strict ++ 0#7).toNat * 2 ^ 16 + (BitVec.ofNat 16 nbits).toNat := toNat_append_add _ _
  have h2 := toNat_append_add (op ++ BitVec.ofBool strict) 0#7
  have h3 := toNat_append_add op (BitVec.ofBool strict)
  rw [h1, h2, h3]
  simp only [BitVec.toNat_ofNat, BitVec.toNat_ofBool, Nat.zero_mod]
  omega

theorem toNat_wordW (op : BitVec 8) (nbits reps : Nat) :
    (wordW op nbits reps).toNat = op.toNat * 2 ^ 24 + nbits % 2 ^ 8 * 2 ^ 16 + reps % 2 ^ 16 := by
  have h1 : (wordW op nbits reps).toNat =
      (op ++ BitVec.ofNat 8 nbits).toNat * 2 ^ 16 + (BitVec.ofNat 16 reps).toNat := toNat_append_add _ _
  have h2 := toNat_append_add op (BitVec.ofNat 8 nbits)
  rw [h1, h2]
  simp only [BitVec.toNat_ofNat]
  omega

theorem toNat_wordF (op : BitVec 8) (nbytes reps : Nat) :
    (wordF op nbytes reps).toNat = op.toNat * 2 ^ 24 + nbytes % 2 ^ 8 * 2 ^ 16 + reps % 2 ^ 16 :=
  toNat_wordW op nbytes reps

theorem toNat_wordE (op : BitVec 8) (device subdevice function : Byte) :
    (wordE op device subdevice function).toNat =
      op.toNat * 2 ^ 24 + device.toNat * 2 ^ 16 + subdevice.toNat * 2 ^ 8 + function.toNat := by
  have h1 : (wordE op device subdevice function).toNat =
      (op ++ device ++ subdevice).toNat * 2 ^ 8 + function.toNat := toNat_append_add _ _
  have h2 := toNat_append_add (op ++ device) subdevice
  have h3 := toNat_append_add op device
  rw [h1, h2, h3]
  omega

theorem toNat_wordX (op : BitVec 8) (tsel : Bool) (n offset : Nat) :
    (wordX op tsel n offset).toNat =
      op.toNat * 2 ^ 24 + tsel.toNat * 2 ^ 23 + n % 2 ^ 7 * 2 ^ 16 + offset % 2 ^ 16 := by
  have h1 : (wordX op tsel n offset).toNat =
      (op ++ BitVec.ofBool tsel ++ BitVec.ofNat 7 n).toNat * 2 ^ 16 + (BitVec.ofNat 16 offset).toNat :=
    toNat_append_add _ _
  have h2 := toNat_append_add (op ++ BitVec.ofBool tsel) (BitVec.ofNat 7 n)
  have h3 := toNat_append_add op (BitVec.ofBool tsel)
  rw [h1, h2, h3]
  simp only [BitVec.toNat_ofNat, BitVec.toNat_ofBool]
  omega

theorem toNat_wordR (op : BitVec 8) (reps : Nat) :
    (wordR op reps).toNat = op.toNat * 2 ^ 24 + reps % 2 ^ 16 := by
  have h1 : (wordR op reps).toNat = (op ++ 0#8).toNat * 2 ^ 16 + (BitVec.ofNat 16 reps).toNat := toNat_append_add _ _
  have h2 := toNat_append_add op 0#8
  rw [h1, h2]
  simp only [BitVec.toNat_ofNat, Nat.zero_mod]
  omega

/-! ### A word under a row's mask: its opcode and its reserved bits (R106, R111) -/

theorem toNat_and_maskN (w : BitVec 32) :
    (w &&& 0xFFFFFFFF#32).toNat = field w 24 8 * 2 ^ 24 + field w 0 24 := by
  have e : w &&& 0xFFFFFFFF#32 = w.extractLsb' 24 8 ++ w.extractLsb' 0 24 := by
    apply BitVec.eq_of_getLsbD_eq
    intro i hi
    rw [BitVec.getLsbD_and, BitVec.getLsbD_append]
    interval_cases i <;> simp
  have h1 : (w &&& 0xFFFFFFFF#32).toNat = (w.extractLsb' 24 8).toNat * 2 ^ 24 + (w.extractLsb' 0 24).toNat := by
    rw [e]
    exact toNat_append_add _ _
  rw [h1]
  simp only [field]

theorem toNat_and_maskB (w : BitVec 32) :
    (w &&& 0xFFFFFFFE#32).toNat = field w 24 8 * 2 ^ 24 + field w 1 23 * 2 ^ 1 := by
  have e : w &&& 0xFFFFFFFE#32 = w.extractLsb' 24 8 ++ w.extractLsb' 1 23 ++ 0#1 := by
    apply BitVec.eq_of_getLsbD_eq
    intro i hi
    rw [BitVec.getLsbD_and, BitVec.getLsbD_append, BitVec.getLsbD_append]
    interval_cases i <;> simp
  have h1 : (w &&& 0xFFFFFFFE#32).toNat = (w.extractLsb' 24 8 ++ w.extractLsb' 1 23).toNat * 2 ^ 1 + (0#1).toNat := by
    rw [e]
    exact toNat_append_add _ _
  have h2 := toNat_append_add (w.extractLsb' 24 8) (w.extractLsb' 1 23)
  rw [h1, h2]
  simp only [field, BitVec.toNat_ofNat, Nat.zero_mod]
  omega

theorem toNat_and_maskI8 (w : BitVec 32) :
    (w &&& 0xFFFFFF00#32).toNat = field w 24 8 * 2 ^ 24 + field w 8 16 * 2 ^ 8 := by
  have e : w &&& 0xFFFFFF00#32 = w.extractLsb' 24 8 ++ w.extractLsb' 8 16 ++ 0#8 := by
    apply BitVec.eq_of_getLsbD_eq
    intro i hi
    rw [BitVec.getLsbD_and, BitVec.getLsbD_append, BitVec.getLsbD_append]
    interval_cases i <;> simp
  have h1 : (w &&& 0xFFFFFF00#32).toNat = (w.extractLsb' 24 8 ++ w.extractLsb' 8 16).toNat * 2 ^ 8 + (0#8).toNat := by
    rw [e]
    exact toNat_append_add _ _
  have h2 := toNat_append_add (w.extractLsb' 24 8) (w.extractLsb' 8 16)
  rw [h1, h2]
  simp only [field, BitVec.toNat_ofNat, Nat.zero_mod]
  omega

theorem toNat_and_maskT (w : BitVec 32) :
    (w &&& 0xFF7FFF00#32).toNat = field w 24 8 * 2 ^ 24 + field w 8 15 * 2 ^ 8 := by
  have e : w &&& 0xFF7FFF00#32 = w.extractLsb' 24 8 ++ 0#1 ++ w.extractLsb' 8 15 ++ 0#8 := by
    apply BitVec.eq_of_getLsbD_eq
    intro i hi
    rw [BitVec.getLsbD_and, BitVec.getLsbD_append, BitVec.getLsbD_append, BitVec.getLsbD_append]
    interval_cases i <;> simp
  have h1 : (w &&& 0xFF7FFF00#32).toNat = (w.extractLsb' 24 8 ++ 0#1 ++ w.extractLsb' 8 15).toNat * 2 ^ 8 + (0#8).toNat := by
    rw [e]
    exact toNat_append_add _ _
  have h2 := toNat_append_add (w.extractLsb' 24 8 ++ 0#1) (w.extractLsb' 8 15)
  have h3 := toNat_append_add (w.extractLsb' 24 8) 0#1
  rw [h1, h2, h3]
  simp only [field, BitVec.toNat_ofNat, Nat.zero_mod]
  omega

theorem toNat_and_maskD (w : BitVec 32) :
    (w &&& 0xFF7F0000#32).toNat = field w 24 8 * 2 ^ 24 + field w 16 7 * 2 ^ 16 := by
  have e : w &&& 0xFF7F0000#32 = w.extractLsb' 24 8 ++ 0#1 ++ w.extractLsb' 16 7 ++ 0#16 := by
    apply BitVec.eq_of_getLsbD_eq
    intro i hi
    rw [BitVec.getLsbD_and, BitVec.getLsbD_append, BitVec.getLsbD_append, BitVec.getLsbD_append]
    interval_cases i <;> simp
  have h1 : (w &&& 0xFF7F0000#32).toNat = (w.extractLsb' 24 8 ++ 0#1 ++ w.extractLsb' 16 7).toNat * 2 ^ 16 + (0#16).toNat := by
    rw [e]
    exact toNat_append_add _ _
  have h2 := toNat_append_add (w.extractLsb' 24 8 ++ 0#1) (w.extractLsb' 16 7)
  have h3 := toNat_append_add (w.extractLsb' 24 8) 0#1
  rw [h1, h2, h3]
  simp only [field, BitVec.toNat_ofNat, Nat.zero_mod]
  omega

theorem toNat_and_maskR (w : BitVec 32) :
    (w &&& 0xFFFF0000#32).toNat = field w 24 8 * 2 ^ 24 + field w 16 8 * 2 ^ 16 := by
  have e : w &&& 0xFFFF0000#32 = w.extractLsb' 24 8 ++ w.extractLsb' 16 8 ++ 0#16 := by
    apply BitVec.eq_of_getLsbD_eq
    intro i hi
    rw [BitVec.getLsbD_and, BitVec.getLsbD_append, BitVec.getLsbD_append]
    interval_cases i <;> simp
  have h1 : (w &&& 0xFFFF0000#32).toNat = (w.extractLsb' 24 8 ++ w.extractLsb' 16 8).toNat * 2 ^ 16 + (0#16).toNat := by
    rw [e]
    exact toNat_append_add _ _
  have h2 := toNat_append_add (w.extractLsb' 24 8) (w.extractLsb' 16 8)
  rw [h1, h2]
  simp only [field, BitVec.toNat_ofNat, Nat.zero_mod]
  omega

theorem toNat_and_maskOp (w : BitVec 32) :
    (w &&& 0xFF000000#32).toNat = field w 24 8 * 2 ^ 24 := by
  have e : w &&& 0xFF000000#32 = w.extractLsb' 24 8 ++ 0#24 := by
    apply BitVec.eq_of_getLsbD_eq
    intro i hi
    rw [BitVec.getLsbD_and, BitVec.getLsbD_append]
    interval_cases i <;> simp
  have h1 : (w &&& 0xFF000000#32).toNat = (w.extractLsb' 24 8).toNat * 2 ^ 24 + (0#24).toNat := by
    rw [e]
    exact toNat_append_add _ _
  rw [h1]
  simp only [field, BitVec.toNat_ofNat, Nat.zero_mod]
  omega

end Sys2Proof
end

