-- ==== Sys2Proof/Laws/Frame.lean ====
section
/-! SUPPORT. How frames compose: the frame of each shared update, of a run of updates, and of a send. -/

namespace Sys2Proof.Machine

/-! ### KeepsBut -/

theorem keepsBut_refl (s : State) : KeepsBut [] [] s s := ⟨fun _ _ => rfl, fun _ _ => rfl, rfl, rfl⟩

theorem KeepsBut.trans {rs rs' : List Reg} {bs bs' : List (Fin 27)} {s t u : State}
    (h : KeepsBut rs bs s t) (h' : KeepsBut rs' bs' t u) : KeepsBut (rs ++ rs') (bs ++ bs') s u := by
  obtain ⟨a, b, c, d⟩ := h
  obtain ⟨a', b', c', d'⟩ := h'
  refine ⟨fun r hr => ?_, fun i hi => ?_, c'.trans c, d'.trans d⟩
  · simp only [List.mem_append, not_or] at hr
    exact (a' r hr.2).trans (a r hr.1)
  · simp only [List.mem_append, not_or] at hi
    exact (b' i hi.2).trans (b i hi.1)

theorem KeepsBut.mono {rs rs' : List Reg} {bs bs' : List (Fin 27)} {s t : State} (h : KeepsBut rs bs s t)
    (hr : rs ⊆ rs') (hb : bs ⊆ bs') : KeepsBut rs' bs' s t :=
  ⟨fun r h' => h.1 r fun h'' => h' (hr h''), fun i h' => h.2.1 i fun h'' => h' (hb h''), h.2.2⟩

/-- Ending a command writes STATUS and nothing else. -/
theorem keepsBut_writeOutcome (ok ign : Bool) (s : State) : KeepsBut [.status] [] s (writeOutcome ok ign s) :=
  ⟨fun r hr => by cases r <;> first | rfl | simp at hr, fun _ _ => rfl, rfl, rfl⟩

/-- A byte written to the A/C file changes that byte and nothing else. -/
theorem keepsBut_setAc (s : State) (i : Fin 27) (v : Byte) : KeepsBut [] [i] s (s.setAc i v) :=
  ⟨fun r _ => by cases r <;> rfl, fun j hj => acByte_setAc_ne s v (by simpa using hj), rfl, rfl⟩

theorem keepsBut_storeDbuf (s : State) (vs : List Byte) : KeepsBut [] [] s (s.storeDbuf vs) :=
  ⟨fun r _ => by cases r <;> rfl, fun _ _ => rfl, rfl, rfl⟩

theorem keepsBut_drawDbuf (n : Nat) (s : State) : KeepsBut [] [] s (drawDbuf n s) :=
  ⟨fun r _ => by cases r <;> rfl, fun _ _ => rfl, rfl, rfl⟩

/-- A send writes STATUS and PLANLEN among the registers. -/
theorem keepsBut_writePlan (frame : List Nat) (n : Nat) (s : State) :
    KeepsBut [.status, .planlen] [] s (writePlan frame n s) := by
  rcases writePlan_cases frame n s with ⟨_, e⟩ | ⟨_, e⟩ <;> rw [e]
  all_goals exact ⟨fun r hr => by cases r <;> first | rfl | simp at hr, fun _ _ => rfl, rfl, rfl⟩

/-! ### The three memories -/

theorem memoriesKept_of_eq {s t : State} (hr : t.raw = s.raw) (hd : t.dbuf = s.dbuf) (hp : t.plan = s.plan)
    (hm : t.memDraw = s.memDraw) : MemoriesKept s t := by
  refine ⟨?_, ?_, ?_⟩ <;> intro i <;>
    simp only [State.rawEntry, State.dbufByte, State.planEntry, hr, hd, hp, hm]

/-- A send leaves RAW and DBUF. -/
theorem rawKept_dbufKept_writePlan (frame : List Nat) (n : Nat) (s : State) :
    RawKept s (writePlan frame n s) ∧ DbufKept s (writePlan frame n s) := by
  rcases writePlan_cases frame n s with ⟨_, e⟩ | ⟨_, e⟩ <;> rw [e]
  all_goals exact ⟨fun _ => rfl, fun _ => rfl⟩

/-- A send ends with OK 0 or 1 and IGN 0. -/
theorem endsWith_writePlan (frame : List Nat) (n : Nat) (s : State) :
    EndsWith (decide (frame.length * (n + 1) ≤ s.params.planCap)) false s (writePlan frame n s) := by
  rcases writePlan_cases frame n s with ⟨h, e⟩ | ⟨h, e⟩ <;> rw [e]
  · rw [decide_eq_false (by omega)]
    exact endsWith_writeOutcome rfl
  · rw [decide_eq_true h]
    exact endsWith_writeOutcome rfl

/-! ### The swing setter and the variant writes -/

/-- AC_SET_MODEL's DKE writes change the A/C file alone: the swing setter stores the cache it read. -/
theorem setDke_eq (s : State) : setDke s = { s with ac := (setDke s).ac } := by
  unfold setDke
  simp only []
  rcases setSwingH_cases s.swinghCache ((s.setAc 23 0x01#8).setAc 25 0x06#8) with
    ⟨_, e⟩ | ⟨_, _, e⟩ | ⟨_, x, _, e⟩
  all_goals
    simp only [setAc_swinghCache, e, Option.getD]
    rfl

theorem clearVariant_eq (s : State) : clearVariant s = { s with ac := (clearVariant s).ac } := rfl

theorem setLke_eq (s : State) : setLke s = { s with ac := (setLke s).ac } := rfl

theorem setNke_eq (s : State) : setNke s = { s with ac := (setNke s).ac } := rfl

theorem keepsBut_clearVariant (s : State) : KeepsBut [] [13, 17, 23, 25] s (clearVariant s) := by
  refine KeepsBut.mono ((((keepsBut_setAc s 13 _).trans (keepsBut_setAc _ 17 _)).trans
    (keepsBut_setAc _ 23 _)).trans (keepsBut_setAc _ 25 _)) ?_ ?_ <;> decide

theorem keepsBut_setDke (s : State) : KeepsBut [] [23, 25, 17] s (setDke s) := by
  have base := (keepsBut_setAc s 23 0x01#8).trans (keepsBut_setAc _ 25 0x06#8)
  refine ⟨fun r _ => ?_, ?_, by rw [setDke_eq], by rw [setDke_eq]⟩
  · rw [setDke_eq]
    cases r <;> rfl
  · unfold setDke
    simp only []
    rcases setSwingH_cases s.swinghCache ((s.setAc 23 0x01#8).setAc 25 0x06#8) with
      ⟨_, e⟩ | ⟨_, _, e⟩ | ⟨_, x, _, e⟩
    all_goals
      simp only [setAc_swinghCache, e, Option.getD]
      intro i hi
      simp only [List.mem_cons, List.not_mem_nil, or_false, not_or] at hi
    · exact base.2.1 i (by simp [hi])
    · exact base.2.1 i (by simp [hi])
    · rw [acByte_setAc_ne _ _ hi.2.2]
      exact base.2.1 i (by simp [hi])

end Sys2Proof.Machine
end

