-- ==== Sys2Proof/Laws/Exec.lean ====
section
/-! SUPPORT. What each command can change at all: the registers and A/C bytes it may write, whether it may write DBUF
or PLAN, and the bits of STATUS it leaves. One lemma per command and one over all of them. -/

namespace Sys2Proof.Machine

/-- The registers a command may write, STATUS among them. -/
def writtenRegs : Instr → List Reg
  | .cal => [.status, .mtick, .stick]
  | .extract _ _ _ => [.status, .value, .used]
  | .wordEncode _ _ _ => [.status, .value]
  | .wordSend _ _ => [.status, .planlen]
  | .wordDecode _ _ => [.status, .value, .address, .command, .proto, .bits]
  | .frameSend _ _ => [.status, .planlen]
  | .frameDecode _ _ => [.status, .proto, .bits]
  | .csumCalc _ => [.status, .result]
  | .csumValid _ => [.status]
  | .acReset => [.status, .tempCache, .swinghCache]
  | .acGetRaw => [.status]
  | .acSetRaw => [.status]
  | .acSend _ => [.status, .planlen]
  | .acSetModel _ => [.status]
  | .acGetModel => [.status, .result]
  | .acOn => [.status]
  | .acOff => [.status]
  | .acSetPower _ => [.status]
  | .acGetPower => [.status, .result]
  | .acSetMode _ => [.status, .tempCache]
  | .acGetMode => [.status, .result]
  | .acSetTemp _ _ => [.status, .tempCache]
  | .acGetTemp => [.status, .result]
  | .acSetSwingV _ => [.status]
  | .acGetSwingV => [.status, .result]
  | .acSetSwingH _ => [.status, .swinghCache]
  | .acGetSwingH => [.status, .result]
  | .acSetFan _ => [.status]
  | .acGetFan => [.status, .result]
  | .acSetQuiet _ => [.status]
  | .acGetQuiet => [.status, .result]
  | .acSetPowerful _ => [.status]
  | .acGetPowerful => [.status, .result]

/-- The A/C bytes a command may write. -/
def writtenBytes : Instr → List (Fin 27)
  | .cal => []
  | .extract _ _ _ => []
  | .wordEncode _ _ _ => []
  | .wordSend _ _ => []
  | .wordDecode _ _ => []
  | .frameSend _ _ => []
  | .frameDecode _ _ => []
  | .csumCalc _ => []
  | .csumValid _ => []
  | .acReset => List.finRange 27
  | .acGetRaw => [26]
  | .acSetRaw => List.finRange 27
  | .acSend _ => [26]
  | .acSetModel _ => [13, 17, 23, 25]
  | .acGetModel => []
  | .acOn => [13]
  | .acOff => [13]
  | .acSetPower _ => [13]
  | .acGetPower => []
  | .acSetMode _ => [13, 14]
  | .acGetMode => []
  | .acSetTemp _ _ => [14]
  | .acGetTemp => []
  | .acSetSwingV _ => [16]
  | .acGetSwingV => []
  | .acSetSwingH _ => [17]
  | .acGetSwingH => []
  | .acSetFan _ => [16]
  | .acGetFan => []
  | .acSetQuiet _ => [21]
  | .acGetQuiet => []
  | .acSetPowerful _ => [21]
  | .acGetPowerful => []

/-- `t` ends the command: OK and IGN are written, the other bits of STATUS are those of `s`. -/
def Ended (s t : State) : Prop := ∃ ok ign, EndsWith ok ign s t

/-- What no command changes: RAW, RAWLEN, MFR and the reset draw. -/
def Untouched (s t : State) : Prop :=
  t.raw = s.raw ∧ t.rawlen = s.rawlen ∧ t.mfr = s.mfr ∧ t.memDraw = s.memDraw

theorem frame_cal {s t : State} (h : exec (.cal) s = .next t) :
    KeepsBut [.status, .mtick, .stick] [] s t ∧ Ended s t ∧ Untouched s t ∧ t.dbuf = s.dbuf ∧ t.plan = s.plan := by
  simp only [exec, execCal] at h
  repeat' split at h
  all_goals cases h
  all_goals exact ⟨⟨fun r hr => by cases r <;> first | rfl | simp at hr, fun _ _ => rfl, rfl, rfl⟩,
    ⟨_, _, endsWith_writeOutcome rfl⟩, ⟨rfl, rfl, rfl, rfl⟩, rfl, rfl⟩

theorem frame_extract {s t : State} (tsel : Bool) (n offset : Nat) (h : exec (.extract tsel n offset) s = .next t) :
    KeepsBut [.status, .value, .used] [] s t ∧ Ended s t ∧ Untouched s t ∧ t.dbuf = s.dbuf ∧ t.plan = s.plan := by
  simp only [exec, execExtract] at h
  repeat' split at h
  all_goals cases h
  all_goals exact ⟨⟨fun r hr => by cases r <;> first | rfl | simp at hr, fun _ _ => rfl, rfl, rfl⟩,
    ⟨_, _, endsWith_writeOutcome rfl⟩, ⟨rfl, rfl, rfl, rfl⟩, rfl, rfl⟩

theorem frame_wordEncode {s t : State} (a b c : Byte) (h : exec (.wordEncode a b c) s = .next t) :
    KeepsBut [.status, .value] [] s t ∧ Ended s t ∧ Untouched s t ∧ t.dbuf = s.dbuf ∧ t.plan = s.plan := by
  simp only [exec, execWordEncode] at h
  cases h
  exact ⟨⟨fun r hr => by cases r <;> first | rfl | simp at hr, fun _ _ => rfl, rfl, rfl⟩,
    ⟨_, _, endsWith_writeOutcome rfl⟩, ⟨rfl, rfl, rfl, rfl⟩, rfl, rfl⟩

theorem frame_wordSend {s t : State} (n r : Nat) (h : exec (.wordSend n r) s = .next t) :
    KeepsBut [.status, .planlen] [] s t ∧ Ended s t ∧ Untouched s t ∧ t.dbuf = s.dbuf := by
  simp only [exec, execWordSend] at h
  split at h <;> cases h
  · exact ⟨⟨fun r hr => by cases r <;> first | rfl | simp at hr, fun _ _ => rfl, rfl, rfl⟩,
      ⟨_, _, endsWith_writeOutcome rfl⟩, ⟨rfl, rfl, rfl, rfl⟩, rfl⟩
  · refine ⟨keepsBut_writePlan _ _ _, ⟨_, _, endsWith_writePlan _ _ _⟩, ?_⟩
    rcases writePlan_cases _ _ _ with ⟨_, e⟩ | ⟨_, e⟩ <;> rw [e] <;> exact ⟨⟨rfl, rfl, rfl, rfl⟩, rfl⟩

theorem frame_wordDecode {s t : State} (st : Bool) (n : Nat) (h : exec (.wordDecode st n) s = .next t) :
    KeepsBut [.status, .value, .address, .command, .proto, .bits] [] s t ∧ Ended s t ∧ Untouched s t ∧ t.dbuf = s.dbuf ∧ t.plan = s.plan := by
  simp only [exec, execWordDecode] at h
  repeat' split at h
  all_goals cases h
  all_goals exact ⟨⟨fun r hr => by cases r <;> first | rfl | simp at hr, fun _ _ => rfl, rfl, rfl⟩,
    ⟨_, _, endsWith_writeOutcome rfl⟩, ⟨rfl, rfl, rfl, rfl⟩, rfl, rfl⟩

theorem frame_frameSend {s t : State} (n r : Nat) (h : exec (.frameSend n r) s = .next t) :
    KeepsBut [.status, .planlen] [] s t ∧ Ended s t ∧ Untouched s t ∧ t.dbuf = s.dbuf := by
  simp only [exec, execFrameSend] at h
  split at h <;> cases h
  · exact ⟨⟨fun r hr => by cases r <;> first | rfl | simp at hr, fun _ _ => rfl, rfl, rfl⟩,
      ⟨_, _, endsWith_writeOutcome rfl⟩, ⟨rfl, rfl, rfl, rfl⟩, rfl⟩
  · refine ⟨keepsBut_writePlan _ _ _, ⟨_, _, endsWith_writePlan _ _ _⟩, ?_⟩
    rcases writePlan_cases _ _ _ with ⟨_, e⟩ | ⟨_, e⟩ <;> rw [e] <;> exact ⟨⟨rfl, rfl, rfl, rfl⟩, rfl⟩

theorem frame_frameDecode {s t : State} (st : Bool) (n : Nat) (h : exec (.frameDecode st n) s = .next t) :
    KeepsBut [.status, .proto, .bits] [] s t ∧ Ended s t ∧ Untouched s t ∧ t.plan = s.plan := by
  simp only [exec, execFrameDecode] at h
  repeat' split at h
  all_goals cases h
  all_goals exact ⟨⟨fun r hr => by cases r <;> first | rfl | simp at hr, fun _ _ => rfl, rfl, rfl⟩,
    ⟨_, _, endsWith_writeOutcome rfl⟩, ⟨rfl, rfl, rfl, rfl⟩, rfl⟩

theorem frame_csumCalc {s t : State} (n : Nat) (h : exec (.csumCalc n) s = .next t) :
    KeepsBut [.status, .result] [] s t ∧ Ended s t ∧ Untouched s t ∧ t.dbuf = s.dbuf ∧ t.plan = s.plan := by
  simp only [exec, execCsumCalc] at h
  repeat' split at h
  all_goals cases h
  all_goals exact ⟨⟨fun r hr => by cases r <;> first | rfl | simp at hr, fun _ _ => rfl, rfl, rfl⟩,
    ⟨_, _, endsWith_writeOutcome rfl⟩, ⟨rfl, rfl, rfl, rfl⟩, rfl, rfl⟩

theorem frame_csumValid {s t : State} (n : Nat) (h : exec (.csumValid n) s = .next t) :
    KeepsBut [.status] [] s t ∧ Ended s t ∧ Untouched s t ∧ t.dbuf = s.dbuf ∧ t.plan = s.plan := by
  simp only [exec, execCsumValid] at h
  repeat' split at h
  all_goals cases h
  all_goals exact ⟨⟨fun r hr => by cases r <;> first | rfl | simp at hr, fun _ _ => rfl, rfl, rfl⟩,
    ⟨_, _, endsWith_writeOutcome rfl⟩, ⟨rfl, rfl, rfl, rfl⟩, rfl, rfl⟩

theorem frame_acReset {s t : State} (h : exec (.acReset) s = .next t) :
    KeepsBut [.status, .tempCache, .swinghCache] (List.finRange 27) s t ∧ Ended s t ∧ Untouched s t ∧ t.dbuf = s.dbuf ∧ t.plan = s.plan := by
  cases h
  exact ⟨⟨fun r hr => by cases r <;> first | rfl | simp at hr, fun i hi => absurd (List.mem_finRange i) hi, rfl, rfl⟩,
    ⟨_, _, endsWith_writeOutcome rfl⟩, ⟨rfl, rfl, rfl, rfl⟩, rfl, rfl⟩

theorem frame_acGetRaw {s t : State} (h : exec (.acGetRaw) s = .next t) :
    KeepsBut [.status] [26] s t ∧ Ended s t ∧ Untouched s t ∧ t.plan = s.plan := by
  cases h
  exact ⟨(((keepsBut_setAc s 26 _).trans (keepsBut_storeDbuf _ _)).trans (keepsBut_writeOutcome _ _ _)).mono
    (by simp) (by simp), ⟨_, _, endsWith_writeOutcome rfl⟩, ⟨rfl, rfl, rfl, rfl⟩, rfl⟩

theorem frame_acSetRaw {s t : State} (h : exec (.acSetRaw) s = .next t) :
    KeepsBut [.status] (List.finRange 27) s t ∧ Ended s t ∧ Untouched s t ∧ t.dbuf = s.dbuf ∧ t.plan = s.plan := by
  cases h
  exact ⟨⟨fun r hr => by cases r <;> first | rfl | simp at hr, fun i hi => absurd (List.mem_finRange i) hi, rfl, rfl⟩,
    ⟨_, _, endsWith_writeOutcome rfl⟩, ⟨rfl, rfl, rfl, rfl⟩, rfl, rfl⟩

theorem frame_acSend {s t : State} (r : Nat) (h : exec (.acSend r) s = .next t) :
    KeepsBut [.status, .planlen] [26] s t ∧ Ended s t ∧ Untouched s t ∧ t.dbuf = s.dbuf := by
  simp only [exec, execAcSend] at h
  cases h
  refine ⟨((keepsBut_setAc s 26 _).trans (keepsBut_writePlan _ _ _)).mono (by simp) (by simp),
    ⟨_, _, endsWith_writePlan _ _ _⟩, ?_⟩
  rcases writePlan_cases _ _ _ with ⟨_, e⟩ | ⟨_, e⟩ <;> rw [e] <;> exact ⟨⟨rfl, rfl, rfl, rfl⟩, rfl⟩

theorem frame_acSetModel {s t : State} (m : Byte) (h : exec (.acSetModel m) s = .next t) :
    KeepsBut [.status] [13, 17, 23, 25] s t ∧ Ended s t ∧ Untouched s t ∧ t.dbuf = s.dbuf ∧ t.plan = s.plan := by
  have last : ∀ (ac : Vector Byte 27) (ok ign : Bool), Ended s (writeOutcome ok ign { s with ac := ac }) ∧
      Untouched s (writeOutcome ok ign { s with ac := ac }) ∧
      (writeOutcome ok ign { s with ac := ac }).dbuf = s.dbuf ∧ (writeOutcome ok ign { s with ac := ac }).plan = s.plan :=
    fun ac ok ign => ⟨⟨ok, ign, endsWith_writeOutcome rfl⟩, ⟨rfl, rfl, rfl, rfl⟩, rfl, rfl⟩
  have base := keepsBut_clearVariant s
  simp only [exec, execAcSetModel, succeed, ignore] at h
  repeat' split at h
  all_goals cases h
  · refine ⟨((base.trans ((keepsBut_setAc _ 13 _).trans (keepsBut_setAc _ 17 _))).trans
      (keepsBut_writeOutcome _ _ _)).mono (by simp) (by decide), ?_⟩
    rw [setLke_eq, clearVariant_eq]
    exact last _ _ _
  · refine ⟨((base.trans (keepsBut_setAc _ 17 _)).trans
      (keepsBut_writeOutcome _ _ _)).mono (by simp) (by decide), ?_⟩
    rw [setNke_eq, clearVariant_eq]
    exact last _ _ _
  · refine ⟨((base.trans (keepsBut_setDke _)).trans
      (keepsBut_writeOutcome _ _ _)).mono (by simp) (by decide), ?_⟩
    rw [setDke_eq, clearVariant_eq]
    exact last _ _ _
  · refine ⟨(base.trans (keepsBut_writeOutcome _ _ _)).mono (by simp) (by decide), ?_⟩
    rw [clearVariant_eq]
    exact last _ _ _
  · exact ⟨(keepsBut_writeOutcome _ _ _).mono (by simp) (by simp), last s.ac _ _⟩

theorem frame_acGetModel {s t : State} (h : exec (.acGetModel) s = .next t) :
    KeepsBut [.status, .result] [] s t ∧ Ended s t ∧ Untouched s t ∧ t.dbuf = s.dbuf ∧ t.plan = s.plan := by
  simp only [exec, execAcGetModel] at h
  cases h
  exact ⟨⟨fun r hr => by cases r <;> first | rfl | simp at hr, fun _ _ => rfl, rfl, rfl⟩,
    ⟨_, _, endsWith_writeOutcome rfl⟩, ⟨rfl, rfl, rfl, rfl⟩, rfl, rfl⟩

theorem frame_acOn {s t : State} (h : exec (.acOn) s = .next t) :
    KeepsBut [.status] [13] s t ∧ Ended s t ∧ Untouched s t ∧ t.dbuf = s.dbuf ∧ t.plan = s.plan := by
  cases h
  exact ⟨((keepsBut_setAc s 13 _).trans (keepsBut_writeOutcome _ _ _)).mono (by simp) (by simp),
    ⟨_, _, endsWith_writeOutcome rfl⟩, ⟨rfl, rfl, rfl, rfl⟩, rfl, rfl⟩

theorem frame_acOff {s t : State} (h : exec (.acOff) s = .next t) :
    KeepsBut [.status] [13] s t ∧ Ended s t ∧ Untouched s t ∧ t.dbuf = s.dbuf ∧ t.plan = s.plan := by
  cases h
  exact ⟨((keepsBut_setAc s 13 _).trans (keepsBut_writeOutcome _ _ _)).mono (by simp) (by simp),
    ⟨_, _, endsWith_writeOutcome rfl⟩, ⟨rfl, rfl, rfl, rfl⟩, rfl, rfl⟩

theorem frame_acSetPower {s t : State} (b : Bool) (h : exec (.acSetPower b) s = .next t) :
    KeepsBut [.status] [13] s t ∧ Ended s t ∧ Untouched s t ∧ t.dbuf = s.dbuf ∧ t.plan = s.plan := by
  cases b <;> cases h
  all_goals exact ⟨((keepsBut_setAc s 13 _).trans (keepsBut_writeOutcome _ _ _)).mono (by simp) (by simp),
      ⟨_, _, endsWith_writeOutcome rfl⟩, ⟨rfl, rfl, rfl, rfl⟩, rfl, rfl⟩

theorem frame_acGetPower {s t : State} (h : exec (.acGetPower) s = .next t) :
    KeepsBut [.status, .result] [] s t ∧ Ended s t ∧ Untouched s t ∧ t.dbuf = s.dbuf ∧ t.plan = s.plan := by
  simp only [exec, execAcGetPower] at h
  cases h
  exact ⟨⟨fun r hr => by cases r <;> first | rfl | simp at hr, fun _ _ => rfl, rfl, rfl⟩,
    ⟨_, _, endsWith_writeOutcome rfl⟩, ⟨rfl, rfl, rfl, rfl⟩, rfl, rfl⟩

theorem frame_acSetMode {s t : State} (m : Byte) (h : exec (.acSetMode m) s = .next t) :
    KeepsBut [.status, .tempCache] [13, 14] s t ∧ Ended s t ∧ Untouched s t ∧ t.dbuf = s.dbuf ∧ t.plan = s.plan := by
  simp only [exec, execAcSetMode] at h
  have ht : ∀ x b, KeepsBut [.tempCache] [14] s (setTemp x b s) := fun x b =>
    ⟨fun r hr => by cases r <;> first | rfl | simp at hr, fun i hi => acByte_setAc_ne s _ (by simpa using hi), rfl, rfl⟩
  repeat' split at h
  all_goals cases h
  · exact ⟨(((ht _ _).trans (keepsBut_setAc _ 13 _)).trans (keepsBut_writeOutcome _ _ _)).mono (by decide) (by decide),
      ⟨_, _, endsWith_writeOutcome rfl⟩, ⟨rfl, rfl, rfl, rfl⟩, rfl, rfl⟩
  · exact ⟨(((ht _ _).trans (keepsBut_setAc _ 13 _)).trans (keepsBut_writeOutcome _ _ _)).mono (by decide) (by decide),
      ⟨_, _, endsWith_writeOutcome rfl⟩, ⟨rfl, rfl, rfl, rfl⟩, rfl, rfl⟩
  · exact ⟨((keepsBut_setAc s 13 _).trans (keepsBut_writeOutcome _ _ _)).mono (by decide) (by decide),
      ⟨_, _, endsWith_writeOutcome rfl⟩, ⟨rfl, rfl, rfl, rfl⟩, rfl, rfl⟩

theorem frame_acGetMode {s t : State} (h : exec (.acGetMode) s = .next t) :
    KeepsBut [.status, .result] [] s t ∧ Ended s t ∧ Untouched s t ∧ t.dbuf = s.dbuf ∧ t.plan = s.plan := by
  simp only [exec, execAcGetMode] at h
  cases h
  exact ⟨⟨fun r hr => by cases r <;> first | rfl | simp at hr, fun _ _ => rfl, rfl, rfl⟩,
    ⟨_, _, endsWith_writeOutcome rfl⟩, ⟨rfl, rfl, rfl, rfl⟩, rfl, rfl⟩

theorem frame_acSetTemp {s t : State} (x : Nat) (b : Bool) (h : exec (.acSetTemp x b) s = .next t) :
    KeepsBut [.status, .tempCache] [14] s t ∧ Ended s t ∧ Untouched s t ∧ t.dbuf = s.dbuf ∧ t.plan = s.plan := by
  cases h
  exact ⟨⟨fun r hr => by cases r <;> first | rfl | simp at hr,
    fun i hi => acByte_setAc_ne s _ (by simpa using hi), rfl, rfl⟩,
    ⟨_, _, endsWith_writeOutcome rfl⟩, ⟨rfl, rfl, rfl, rfl⟩, rfl, rfl⟩

theorem frame_acGetTemp {s t : State} (h : exec (.acGetTemp) s = .next t) :
    KeepsBut [.status, .result] [] s t ∧ Ended s t ∧ Untouched s t ∧ t.dbuf = s.dbuf ∧ t.plan = s.plan := by
  simp only [exec, execAcGetTemp] at h
  cases h
  exact ⟨⟨fun r hr => by cases r <;> first | rfl | simp at hr, fun _ _ => rfl, rfl, rfl⟩,
    ⟨_, _, endsWith_writeOutcome rfl⟩, ⟨rfl, rfl, rfl, rfl⟩, rfl, rfl⟩

theorem frame_acSetSwingV {s t : State} (e : Nat) (h : exec (.acSetSwingV e) s = .next t) :
    KeepsBut [.status] [16] s t ∧ Ended s t ∧ Untouched s t ∧ t.dbuf = s.dbuf ∧ t.plan = s.plan := by
  cases h
  exact ⟨((keepsBut_setAc s 16 _).trans (keepsBut_writeOutcome _ _ _)).mono (by simp) (by simp),
    ⟨_, _, endsWith_writeOutcome rfl⟩, ⟨rfl, rfl, rfl, rfl⟩, rfl, rfl⟩

theorem frame_acGetSwingV {s t : State} (h : exec (.acGetSwingV) s = .next t) :
    KeepsBut [.status, .result] [] s t ∧ Ended s t ∧ Untouched s t ∧ t.dbuf = s.dbuf ∧ t.plan = s.plan := by
  simp only [exec, execAcGetSwingV] at h
  cases h
  exact ⟨⟨fun r hr => by cases r <;> first | rfl | simp at hr, fun _ _ => rfl, rfl, rfl⟩,
    ⟨_, _, endsWith_writeOutcome rfl⟩, ⟨rfl, rfl, rfl, rfl⟩, rfl, rfl⟩

theorem frame_acSetSwingH {s t : State} (d : Byte) (h : exec (.acSetSwingH d) s = .next t) :
    KeepsBut [.status, .swinghCache] [17] s t ∧ Ended s t ∧ Untouched s t ∧ t.dbuf = s.dbuf ∧ t.plan = s.plan := by
  simp only [exec, execAcSetSwingH] at h
  rcases setSwingH_cases d s with ⟨_, e⟩ | ⟨_, _, e⟩ | ⟨_, x, _, e⟩ <;> rw [e] at h <;> cases h
  all_goals refine ⟨⟨fun r hr => by cases r <;> first | rfl | simp at hr, ?_, rfl, rfl⟩,
      ⟨_, _, endsWith_writeOutcome rfl⟩, ⟨rfl, rfl, rfl, rfl⟩, rfl, rfl⟩
  · exact fun _ _ => rfl
  · exact fun _ _ => rfl
  · exact fun i hi => acByte_setAc_ne _ x (by simpa using hi)

theorem frame_acGetSwingH {s t : State} (h : exec (.acGetSwingH) s = .next t) :
    KeepsBut [.status, .result] [] s t ∧ Ended s t ∧ Untouched s t ∧ t.dbuf = s.dbuf ∧ t.plan = s.plan := by
  simp only [exec, execAcGetSwingH] at h
  cases h
  exact ⟨⟨fun r hr => by cases r <;> first | rfl | simp at hr, fun _ _ => rfl, rfl, rfl⟩,
    ⟨_, _, endsWith_writeOutcome rfl⟩, ⟨rfl, rfl, rfl, rfl⟩, rfl, rfl⟩

theorem frame_acSetFan {s t : State} (n : Nat) (h : exec (.acSetFan n) s = .next t) :
    KeepsBut [.status] [16] s t ∧ Ended s t ∧ Untouched s t ∧ t.dbuf = s.dbuf ∧ t.plan = s.plan := by
  simp only [exec, execAcSetFan] at h
  split at h <;> cases h
  · exact ⟨((keepsBut_setAc s 16 _).trans (keepsBut_writeOutcome _ _ _)).mono (by simp) (by simp),
      ⟨_, _, endsWith_writeOutcome rfl⟩, ⟨rfl, rfl, rfl, rfl⟩, rfl, rfl⟩
  · exact ⟨(keepsBut_writeOutcome _ _ _).mono (by simp) (by simp),
      ⟨_, _, endsWith_writeOutcome rfl⟩, ⟨rfl, rfl, rfl, rfl⟩, rfl, rfl⟩

theorem frame_acGetFan {s t : State} (h : exec (.acGetFan) s = .next t) :
    KeepsBut [.status, .result] [] s t ∧ Ended s t ∧ Untouched s t ∧ t.dbuf = s.dbuf ∧ t.plan = s.plan := by
  simp only [exec, execAcGetFan] at h
  cases h
  exact ⟨⟨fun r hr => by cases r <;> first | rfl | simp at hr, fun _ _ => rfl, rfl, rfl⟩,
    ⟨_, _, endsWith_writeOutcome rfl⟩, ⟨rfl, rfl, rfl, rfl⟩, rfl, rfl⟩

theorem frame_acSetQuiet {s t : State} (b : Bool) (h : exec (.acSetQuiet b) s = .next t) :
    KeepsBut [.status] [21] s t ∧ Ended s t ∧ Untouched s t ∧ t.dbuf = s.dbuf ∧ t.plan = s.plan := by
  cases b <;> cases h
  · exact ⟨((keepsBut_setAc s 21 _).trans (keepsBut_writeOutcome _ _ _)).mono (by simp) (by simp),
      ⟨_, _, endsWith_writeOutcome rfl⟩, ⟨rfl, rfl, rfl, rfl⟩, rfl, rfl⟩
  · exact ⟨(((keepsBut_setAc s 21 _).trans (keepsBut_setAc _ 21 _)).trans (keepsBut_writeOutcome _ _ _)).mono
      (by simp) (by simp), ⟨_, _, endsWith_writeOutcome rfl⟩, ⟨rfl, rfl, rfl, rfl⟩, rfl, rfl⟩

theorem frame_acGetQuiet {s t : State} (h : exec (.acGetQuiet) s = .next t) :
    KeepsBut [.status, .result] [] s t ∧ Ended s t ∧ Untouched s t ∧ t.dbuf = s.dbuf ∧ t.plan = s.plan := by
  simp only [exec, execAcGetQuiet] at h
  cases h
  exact ⟨⟨fun r hr => by cases r <;> first | rfl | simp at hr, fun _ _ => rfl, rfl, rfl⟩,
    ⟨_, _, endsWith_writeOutcome rfl⟩, ⟨rfl, rfl, rfl, rfl⟩, rfl, rfl⟩

theorem frame_acSetPowerful {s t : State} (b : Bool) (h : exec (.acSetPowerful b) s = .next t) :
    KeepsBut [.status] [21] s t ∧ Ended s t ∧ Untouched s t ∧ t.dbuf = s.dbuf ∧ t.plan = s.plan := by
  cases b <;> cases h
  · exact ⟨((keepsBut_setAc s 21 _).trans (keepsBut_writeOutcome _ _ _)).mono (by simp) (by simp),
      ⟨_, _, endsWith_writeOutcome rfl⟩, ⟨rfl, rfl, rfl, rfl⟩, rfl, rfl⟩
  · exact ⟨(((keepsBut_setAc s 21 _).trans (keepsBut_setAc _ 21 _)).trans (keepsBut_writeOutcome _ _ _)).mono
      (by simp) (by simp), ⟨_, _, endsWith_writeOutcome rfl⟩, ⟨rfl, rfl, rfl, rfl⟩, rfl, rfl⟩

theorem frame_acGetPowerful {s t : State} (h : exec (.acGetPowerful) s = .next t) :
    KeepsBut [.status, .result] [] s t ∧ Ended s t ∧ Untouched s t ∧ t.dbuf = s.dbuf ∧ t.plan = s.plan := by
  simp only [exec, execAcGetPowerful] at h
  cases h
  exact ⟨⟨fun r hr => by cases r <;> first | rfl | simp at hr, fun _ _ => rfl, rfl, rfl⟩,
    ⟨_, _, endsWith_writeOutcome rfl⟩, ⟨rfl, rfl, rfl, rfl⟩, rfl, rfl⟩

/-- Every command changes at most what `writtenRegs` and `writtenBytes` list, and ends the way R18 says. -/
theorem exec_frame {i : Instr} {s t : State} (h : exec i s = .next t) :
    KeepsBut (writtenRegs i) (writtenBytes i) s t ∧ Ended s t ∧ Untouched s t := by
  cases i
  case cal => exact ⟨(frame_cal h).1, (frame_cal h).2.1, (frame_cal h).2.2.1⟩
  case extract => exact ⟨(frame_extract _ _ _ h).1, (frame_extract _ _ _ h).2.1, (frame_extract _ _ _ h).2.2.1⟩
  case wordEncode => exact ⟨(frame_wordEncode _ _ _ h).1, (frame_wordEncode _ _ _ h).2.1, (frame_wordEncode _ _ _ h).2.2.1⟩
  case wordSend => exact ⟨(frame_wordSend _ _ h).1, (frame_wordSend _ _ h).2.1, (frame_wordSend _ _ h).2.2.1⟩
  case wordDecode => exact ⟨(frame_wordDecode _ _ h).1, (frame_wordDecode _ _ h).2.1, (frame_wordDecode _ _ h).2.2.1⟩
  case frameSend => exact ⟨(frame_frameSend _ _ h).1, (frame_frameSend _ _ h).2.1, (frame_frameSend _ _ h).2.2.1⟩
  case frameDecode => exact ⟨(frame_frameDecode _ _ h).1, (frame_frameDecode _ _ h).2.1, (frame_frameDecode _ _ h).2.2.1⟩
  case csumCalc => exact ⟨(frame_csumCalc _ h).1, (frame_csumCalc _ h).2.1, (frame_csumCalc _ h).2.2.1⟩
  case csumValid => exact ⟨(frame_csumValid _ h).1, (frame_csumValid _ h).2.1, (frame_csumValid _ h).2.2.1⟩
  case acReset => exact ⟨(frame_acReset h).1, (frame_acReset h).2.1, (frame_acReset h).2.2.1⟩
  case acGetRaw => exact ⟨(frame_acGetRaw h).1, (frame_acGetRaw h).2.1, (frame_acGetRaw h).2.2.1⟩
  case acSetRaw => exact ⟨(frame_acSetRaw h).1, (frame_acSetRaw h).2.1, (frame_acSetRaw h).2.2.1⟩
  case acSend => exact ⟨(frame_acSend _ h).1, (frame_acSend _ h).2.1, (frame_acSend _ h).2.2.1⟩
  case acSetModel => exact ⟨(frame_acSetModel _ h).1, (frame_acSetModel _ h).2.1, (frame_acSetModel _ h).2.2.1⟩
  case acGetModel => exact ⟨(frame_acGetModel h).1, (frame_acGetModel h).2.1, (frame_acGetModel h).2.2.1⟩
  case acOn => exact ⟨(frame_acOn h).1, (frame_acOn h).2.1, (frame_acOn h).2.2.1⟩
  case acOff => exact ⟨(frame_acOff h).1, (frame_acOff h).2.1, (frame_acOff h).2.2.1⟩
  case acSetPower => exact ⟨(frame_acSetPower _ h).1, (frame_acSetPower _ h).2.1, (frame_acSetPower _ h).2.2.1⟩
  case acGetPower => exact ⟨(frame_acGetPower h).1, (frame_acGetPower h).2.1, (frame_acGetPower h).2.2.1⟩
  case acSetMode => exact ⟨(frame_acSetMode _ h).1, (frame_acSetMode _ h).2.1, (frame_acSetMode _ h).2.2.1⟩
  case acGetMode => exact ⟨(frame_acGetMode h).1, (frame_acGetMode h).2.1, (frame_acGetMode h).2.2.1⟩
  case acSetTemp => exact ⟨(frame_acSetTemp _ _ h).1, (frame_acSetTemp _ _ h).2.1, (frame_acSetTemp _ _ h).2.2.1⟩
  case acGetTemp => exact ⟨(frame_acGetTemp h).1, (frame_acGetTemp h).2.1, (frame_acGetTemp h).2.2.1⟩
  case acSetSwingV => exact ⟨(frame_acSetSwingV _ h).1, (frame_acSetSwingV _ h).2.1, (frame_acSetSwingV _ h).2.2.1⟩
  case acGetSwingV => exact ⟨(frame_acGetSwingV h).1, (frame_acGetSwingV h).2.1, (frame_acGetSwingV h).2.2.1⟩
  case acSetSwingH => exact ⟨(frame_acSetSwingH _ h).1, (frame_acSetSwingH _ h).2.1, (frame_acSetSwingH _ h).2.2.1⟩
  case acGetSwingH => exact ⟨(frame_acGetSwingH h).1, (frame_acGetSwingH h).2.1, (frame_acGetSwingH h).2.2.1⟩
  case acSetFan => exact ⟨(frame_acSetFan _ h).1, (frame_acSetFan _ h).2.1, (frame_acSetFan _ h).2.2.1⟩
  case acGetFan => exact ⟨(frame_acGetFan h).1, (frame_acGetFan h).2.1, (frame_acGetFan h).2.2.1⟩
  case acSetQuiet => exact ⟨(frame_acSetQuiet _ h).1, (frame_acSetQuiet _ h).2.1, (frame_acSetQuiet _ h).2.2.1⟩
  case acGetQuiet => exact ⟨(frame_acGetQuiet h).1, (frame_acGetQuiet h).2.1, (frame_acGetQuiet h).2.2.1⟩
  case acSetPowerful => exact ⟨(frame_acSetPowerful _ h).1, (frame_acSetPowerful _ h).2.1, (frame_acSetPowerful _ h).2.2.1⟩
  case acGetPowerful => exact ⟨(frame_acGetPowerful h).1, (frame_acGetPowerful h).2.1, (frame_acGetPowerful h).2.2.1⟩

/-- A send takes at most the next draw (log 7). -/
theorem draws_writePlan (frame : List Nat) (r : Nat) (s : State) : s.draws ≤ (writePlan frame r s).draws := by
  rcases writePlan_cases frame r s with ⟨_, e⟩ | ⟨_, e⟩ <;> rw [e]
  · exact Nat.le_refl _
  · show s.draws ≤ if _ then s.draws else s.draws + 1
    split
    · exact Nat.le_refl _
    · exact Nat.le_succ _

/-- No command turns the counter of draws back (log 3): the sends and a failed FRAME_DECODE move it on, every other
command leaves it. -/
theorem exec_draws {i : Instr} {s t : State} (h : exec i s = .next t) : s.draws ≤ t.draws := by
  cases i
  case wordSend =>
    simp only [exec, execWordSend] at h
    split at h <;> cases h
    · exact Nat.le_refl _
    · exact draws_writePlan _ _ _
  case frameSend =>
    simp only [exec, execFrameSend] at h
    split at h <;> cases h
    · exact Nat.le_refl _
    · exact draws_writePlan _ _ _
  case acSend =>
    cases h
    exact draws_writePlan _ _ (fixChecksum s)
  case frameDecode =>
    simp only [exec, execFrameDecode] at h
    split at h <;> cases h
    · exact Nat.le_refl _
    · exact Nat.le_refl _
    · exact Nat.le_succ _
  case acSetModel =>
    simp only [exec, execAcSetModel] at h
    repeat' split at h
    all_goals cases h
    · rw [setLke_eq, clearVariant_eq]; exact Nat.le_refl _
    · rw [setNke_eq, clearVariant_eq]; exact Nat.le_refl _
    · rw [setDke_eq, clearVariant_eq]; exact Nat.le_refl _
    · exact Nat.le_refl _
    · exact Nat.le_refl _
  case acSetSwingH d =>
    simp only [exec, execAcSetSwingH] at h
    rcases setSwingH_cases d s with ⟨_, e⟩ | ⟨_, _, e⟩ | ⟨_, _, _, e⟩ <;> rw [e] at h <;> cases h
    all_goals exact Nat.le_refl _
  case acSetPower b => cases b <;> cases h <;> exact Nat.le_refl _
  case acSetQuiet b => cases b <;> cases h <;> exact Nat.le_refl _
  case acSetPowerful b => cases b <;> cases h <;> exact Nat.le_refl _
  all_goals
    first
      | (cases h; exact Nat.le_refl _)
      | (simp only [exec, execCal, execExtract, execWordDecode, execCsumCalc, execCsumValid, execAcSetMode,
          execAcSetFan] at h
         repeat' split at h
         all_goals cases h
         all_goals exact Nat.le_refl _)

end Sys2Proof.Machine
end

