-- ==== Sys2Proof/Laws/Frames.lean ====
section
/-! SUPPORT. The entries of the plans, one by one: a run of pairs, the word frame, the two-section frame
(30_encoding.md R80–R92, 41_word_codec.md R142, 42_frame_codec.md R160). -/

namespace Sys2Proof.Machine

/-! ### Runs of equal-length pieces -/

theorem length_flatMap_const {α β : Type} (f : α → List β) (c : Nat) (h : ∀ a, (f a).length = c) (l : List α) :
    (l.flatMap f).length = c * l.length := by
  induction l with
  | nil => simp
  | cons a l ih => rw [List.flatMap_cons, List.length_append, ih, h, List.length_cons, Nat.mul_succ, Nat.add_comm]

/-- Entry `i` of piece `k` in a run of pieces of length `c`. -/
theorem getElem?_flatMap_const {α β : Type} (f : α → List β) (c : Nat) (h : ∀ a, (f a).length = c) (l : List α)
    (k i : Nat) (hi : i < c) : (l.flatMap f)[c * k + i]? = (l[k]?.bind fun a => (f a)[i]?) := by
  induction l generalizing k with
  | nil => simp
  | cons a l ih =>
    rw [List.flatMap_cons]
    cases k with
    | zero => rw [List.getElem?_append_left (by rw [h]; omega)]; simp
    | succ k =>
      rw [List.getElem?_append_right (by rw [h, Nat.mul_succ]; omega), h,
        show c * (k + 1) + i - c = c * k + i by rw [Nat.mul_succ]; omega, ih]
      simp

@[simp] theorem length_bitPair (p : Config.Params) (b : Bool) : (bitPair p b).length = 2 := rfl

/-- A run of bit pairs: the mark of pair `k`. -/
theorem mark_of_bits (p : Config.Params) (f : Nat → Bool) (n k : Nat) (hk : k < n) :
    ((List.range n).flatMap fun j => bitPair p (f j))[2 * k]? = some p.tau := by
  rw [show 2 * k = 2 * k + 0 from rfl, getElem?_flatMap_const _ 2 (fun _ => rfl) _ _ _ (by omega)]
  simp [hk, bitPair]

/-- A run of bit pairs: the space of pair `k`. -/
theorem space_of_bits (p : Config.Params) (f : Nat → Bool) (n k : Nat) (hk : k < n) :
    ((List.range n).flatMap fun j => bitPair p (f j))[2 * k + 1]? = some (if f k then 3 * p.tau else p.tau) := by
  rw [getElem?_flatMap_const _ 2 (fun _ => rfl) _ _ _ (by omega)]
  simp [hk, bitPair]

/-! ### The word frame -/

@[simp] theorem length_wordBody (p : Config.Params) (v : BitVec 64) (n : Nat) :
    (wordBody p v n).length = 2 * n + 3 := by
  unfold wordBody
  rw [List.length_append, List.length_append, length_flatMap_const _ 2 (fun _ => rfl)]
  simp
  omega

@[simp] theorem length_wordFrame (p : Config.Params) (v : BitVec 64) (n : Nat) :
    (wordFrame p v n).length = 2 * n + 4 := by
  simp [wordFrame]

/-- The entries of a word frame before its gap. -/
theorem wordBody_entries (p : Config.Params) (v : BitVec 64) (n : Nat) :
    (wordBody p v n)[0]? = some (8 * p.tau) ∧ (wordBody p v n)[1]? = some (4 * p.tau) ∧
    (∀ k, k < n → (wordBody p v n)[2 + 2 * k]? = some p.tau ∧
      (wordBody p v n)[3 + 2 * k]? =
        some (if v.getLsbD (if p.wordLsbFirst then k else n - 1 - k) then 3 * p.tau else p.tau)) ∧
    (wordBody p v n)[2 * n + 2]? = some p.tau := by
  have hlen : ((List.range n).flatMap fun k =>
      bitPair p (v.getLsbD (if p.wordLsbFirst then k else n - 1 - k))).length = 2 * n := by
    rw [length_flatMap_const _ 2 (fun _ => rfl), List.length_range]
  unfold wordBody
  refine ⟨rfl, rfl, fun k hk => ⟨?_, ?_⟩, ?_⟩
  · rw [List.getElem?_append_left (by simp [hlen]; omega), List.getElem?_append_right (by simp),
      show 2 + 2 * k - [8 * p.tau, 4 * p.tau].length = 2 * k by simp]
    exact mark_of_bits p _ n k hk
  · rw [List.getElem?_append_left (by simp [hlen]; omega), List.getElem?_append_right (by simp; omega),
      show 3 + 2 * k - [8 * p.tau, 4 * p.tau].length = 2 * k + 1 by simp; omega]
    exact space_of_bits p _ n k hk
  · rw [List.getElem?_append_right (by simp [hlen])]
    simp [hlen]

/-! ### The two-section frame -/

@[simp] theorem length_bytePairs (p : Config.Params) (x : Byte) : (bytePairs p x).length = 16 := rfl

/-- The pairs of one byte. -/
theorem bytePairs_entries (p : Config.Params) (x : Byte) (j : Nat) (hj : j < 8) :
    (bytePairs p x)[2 * j]? = some p.tau ∧
      (bytePairs p x)[2 * j + 1]? = some (if x.getLsbD j then 3 * p.tau else p.tau) :=
  ⟨mark_of_bits p _ 8 j hj, space_of_bits p _ 8 j hj⟩

@[simp] theorem length_frameSection (p : Config.Params) (bs : List Byte) (gap : Nat) :
    (frameSection p bs gap).length = 16 * bs.length + 4 := by
  unfold frameSection
  rw [List.length_append, List.length_append, length_flatMap_const _ 16 (fun _ => rfl)]
  simp
  omega

/-- The entries of one section: header, the pairs of each byte, footer mark, gap. -/
theorem frameSection_entries (p : Config.Params) (bs : List Byte) (gap : Nat) :
    (frameSection p bs gap)[0]? = some (8 * p.tau) ∧ (frameSection p bs gap)[1]? = some (4 * p.tau) ∧
    (∀ k, (hk : k < bs.length) → ∀ j, j < 8 → (frameSection p bs gap)[2 + 16 * k + 2 * j]? = some p.tau ∧
      (frameSection p bs gap)[3 + 16 * k + 2 * j]? = some (if bs[k].getLsbD j then 3 * p.tau else p.tau)) ∧
    (frameSection p bs gap)[16 * bs.length + 2]? = some p.tau ∧
    (frameSection p bs gap)[16 * bs.length + 3]? = some gap := by
  have hlen : (bs.flatMap (bytePairs p)).length = 16 * bs.length := length_flatMap_const _ 16 (fun _ => rfl) _
  unfold frameSection
  refine ⟨rfl, rfl, fun k hk j hj => ?_, ?_, ?_⟩
  · have e := bytePairs_entries p bs[k] j hj
    constructor
    · rw [List.getElem?_append_left (by simp [hlen]; omega), List.getElem?_append_right (by simp; omega),
        show 2 + 16 * k + 2 * j - [8 * p.tau, 4 * p.tau].length = 16 * k + 2 * j by simp; omega,
        getElem?_flatMap_const _ 16 (fun _ => rfl) _ _ _ (by omega), List.getElem?_eq_getElem hk]
      exact e.1
    · rw [List.getElem?_append_left (by simp [hlen]; omega), List.getElem?_append_right (by simp; omega),
        show 3 + 16 * k + 2 * j - [8 * p.tau, 4 * p.tau].length = 16 * k + (2 * j + 1) by simp; omega,
        getElem?_flatMap_const _ 16 (fun _ => rfl) _ _ _ (by omega), List.getElem?_eq_getElem hk]
      exact e.2
  · rw [List.getElem?_append_right (by simp [hlen])]
    simp [hlen]
  · rw [List.getElem?_append_right (by simp [hlen])]
    simp [hlen]

@[simp] theorem length_frameSequence (p : Config.Params) (bs : List Byte) :
    (frameSequence p bs).length = 16 * bs.length + 8 := by
  simp [frameSequence, sec1Len]
  omega

/-- The two sections of a frame of at least 8 bytes: section 2 starts at entry 132. -/
theorem frameSequence_section1 (p : Config.Params) (bs : List Byte) (h : 8 ≤ bs.length) (i : Nat) (hi : i < 132) :
    (frameSequence p bs)[i]? = (frameSection p (bs.take 8) p.sectionGap)[i]? := by
  unfold frameSequence sec1Len
  rw [List.getElem?_append_left (by simp; omega)]

theorem frameSequence_section2 (p : Config.Params) (bs : List Byte) (h : 8 ≤ bs.length) (i : Nat) :
    (frameSequence p bs)[132 + i]? = (frameSection p (bs.drop 8) p.messageGap)[i]? := by
  have hlen : (frameSection p (bs.take 8) p.sectionGap).length = 132 := by simp; omega
  unfold frameSequence sec1Len
  rw [List.getElem?_append_right (by omega), hlen, Nat.add_sub_cancel_left]

/-- Entry `i` of copy `j` of a repeated frame in PLAN, where 32 bits hold it. -/
theorem planEntry_storePlan_repeat {frame : List Nat} {r j i x : Nat} {s : State} (hj : j ≤ r)
    (hx : frame[i]? = some x) (hlt : x < 2 ^ 32) :
    ((storePlan (repeatFrame frame r) s).planEntry (j * frame.length + i)).toNat = x := by
  have hi : i < frame.length := (List.getElem?_eq_some_iff.1 hx).1
  rw [planEntry_storePlan, getElem?_repeatFrame _ _ _ _ hj hi, hx]
  simp
  omega

/-- Whatever reads as the two-section sequence of the bytes `b` has the layout of their frame. -/
theorem frameLayout_of_frameSequence {p : Config.Params} {bs : List Byte} {b : Nat → Byte} {e : Nat → Nat} (hp : p.wf)
    (hn : 8 ≤ bs.length) (hb : ∀ k, (h : k < bs.length) → bs[k] = b k)
    (key : ∀ i x, (frameSequence p bs)[i]? = some x → x < 2 ^ 32 → e i = x) : FrameLayout p b bs.length e := by
  obtain ⟨_, _, _, _, h8, _, _, hsg, hmg⟩ := hp
  obtain ⟨a0, a1, a2, a3, a4⟩ := frameSection_entries p (bs.take 8) p.sectionGap
  obtain ⟨c0, c1, c2, c3, c4⟩ := frameSection_entries p (bs.drop 8) p.messageGap
  have l8 : (bs.take 8).length = 8 := by simp; omega
  rw [l8] at a3 a4
  have k1 : ∀ i x, i < 132 → (frameSection p (bs.take 8) p.sectionGap)[i]? = some x → x < 2 ^ 32 → e i = x :=
    fun i x hi h hx => key i x (by rw [frameSequence_section1 p bs hn i hi, h]) hx
  have k2 : ∀ i x, (frameSection p (bs.drop 8) p.messageGap)[i]? = some x → x < 2 ^ 32 → e (132 + i) = x :=
    fun i x h hx => key _ x (by rw [frameSequence_section2 p bs hn i, h]) hx
  refine ⟨k1 _ _ (by omega) a0 (by omega), k1 _ _ (by omega) a1 (by omega), ?_, k1 _ _ (by omega) a3 (by omega),
    k1 _ _ (by omega) a4 (by omega), k2 0 _ c0 (by omega), k2 1 _ c1 (by omega), ?_, ?_, ?_⟩
  · intro k hk j hj
    obtain ⟨x, y⟩ := a2 k (by omega) j hj
    have hk' : (bs.take 8)[k]'(by omega) = b k := by
      rw [List.getElem_take]
      exact hb _ _
    rw [hk'] at y
    exact ⟨k1 _ _ (by omega) x (by omega), k1 _ _ (by omega) y (by split <;> omega)⟩
  · intro k hk1 hk2 j hj
    obtain ⟨x, y⟩ := c2 (k - 8) (by simp; omega) j hj
    have hk' : (bs.drop 8)[k - 8]'(by simp; omega) = b k := by
      rw [List.getElem_drop, hb]
      congr 1
      omega
    rw [hk'] at y
    have x' := k2 _ _ x (by omega)
    have y' := k2 _ _ y (by split <;> omega)
    rw [show 132 + (2 + 16 * (k - 8) + 2 * j) = 6 + 16 * k + 2 * j by omega] at x'
    rw [show 132 + (3 + 16 * (k - 8) + 2 * j) = 7 + 16 * k + 2 * j by omega] at y'
    exact ⟨x', y'⟩
  · have := k2 _ _ c3 (by omega)
    rw [List.length_drop] at this
    rw [← this]
    congr 1
    omega
  · have := k2 _ _ c4 (by omega)
    rw [List.length_drop] at this
    rw [← this]
    congr 1
    omega

end Sys2Proof.Machine
end

