-- ==== Sys2Proof/Laws/FrameDecode.lean ====
section
/-! SUPPORT. What the byte loop and the phases of FRAME_DECODE can do (42_frame_codec.md R162–R175). -/

namespace Sys2Proof.Machine

/-! ### The byte loop -/

/-- The byte loop fails only on timing. -/
theorem byteLoop_error {s : State} {limit fuel : Nat} {c : Cursor} {kind : FailKind}
    (h : byteLoop s limit fuel c = .error kind) : kind = .timing := by
  induction fuel generalizing c with
  | zero => cases h
  | succ fuel ih =>
    unfold byteLoop at h
    split at h
    · split at h
      · cases h
        rfl
      · exact ih h
    · cases h

/-- A byte loop that ends well decoded consecutive bytes from its counter up to at most `limit`, 16 samples each, wrote
those bytes and no other, and kept the canonical form. -/
theorem byteLoop_ok {s : State} {limit fuel : Nat} {c c' : Cursor} (h : byteLoop s limit fuel c = .ok c') :
    c.count ≤ c'.count ∧ c'.count ≤ max c.count limit ∧ c'.off = c.off + 16 * (c'.count - c.count) ∧
    (∀ i, i < c.count ∨ c'.count ≤ i → Memory.stored c'.buf i = Memory.stored c.buf i) ∧
    (∀ cap, limit ≤ cap → Memory.wf cap c.buf = true → Memory.wf cap c'.buf = true) := by
  induction fuel generalizing c with
  | zero =>
    cases h
    exact ⟨Nat.le_refl _, Nat.le_max_left _ _, by simp, fun _ _ => rfl, fun _ _ hw => hw⟩
  | succ fuel ih =>
    unfold byteLoop at h
    split at h
    · rename_i hc
      split at h
      · cases h
      · rename_i x u hx
        obtain ⟨h1, h2, h3, h4, h5⟩ := ih h
        obtain ⟨-, rfl, -⟩ := extractBits_some hx
        simp only at h1 h2 h3 h4 h5
        refine ⟨by omega, by omega, by omega, fun i hi => ?_, fun cap hcap hw => ?_⟩
        · rw [h4 i (by omega), Memory.stored_write, if_neg (by omega)]
        · exact h5 cap hcap (Memory.wf_write hw (by omega) _)
    · cases h
      exact ⟨Nat.le_refl _, Nat.le_max_left _ _, by simp, fun _ _ => rfl, fun _ _ hw => hw⟩

/-- The byte loop reads the bytes whose pairs stand in RAW, up to the counter `n` at which the limit or the samples end
it. -/
theorem byteLoop_of_pairs {s : State} {limit fuel n : Nat} {c : Cursor} {b : Nat → Byte}
    (hfuel : n ≤ c.count + fuel) (hcount : c.count ≤ n) (hn : n ≤ max c.count limit)
    (hlen : n = c.count ∨ c.off + 16 * (n - c.count) ≤ s.rawlen.toNat)
    (hend : limit ≤ n ∨ s.rawlen.toNat < c.off + 16 * (n - c.count) + 16)
    (h : ∀ k, c.count ≤ k → k < n → ∀ j, j < 8 →
      pairBit (frameTemplate s.params) (s.sample (c.off + 16 * (k - c.count) + 2 * j))
        (s.sample (c.off + 16 * (k - c.count) + 2 * j + 1)) = some ((b k).getLsbD j)) :
    ∃ c', byteLoop s limit fuel c = .ok c' ∧ c'.count = n ∧ c'.off = c.off + 16 * (n - c.count) ∧
      ∀ i, Memory.stored c'.buf i = if c.count ≤ i ∧ i < n then some (b i) else Memory.stored c.buf i := by
  induction fuel generalizing c with
  | zero =>
    obtain rfl : n = c.count := by omega
    exact ⟨c, rfl, rfl, by omega, fun i => by rw [if_neg (by omega)]⟩
  | succ fuel ih =>
    unfold byteLoop
    by_cases hlt : c.count < n
    · rw [if_pos ⟨by omega, by omega⟩]
      obtain ⟨v, hv, hv2, hb⟩ := extractBits_of_pairs (off := c.off) (n := 8) (by omega)
        fun j hj => by simpa using h c.count (Nat.le_refl _) hlt j hj
      rw [hv]
      have hbyte : BitVec.ofNat 8 v = b c.count := by
        apply BitVec.eq_of_getLsbD_eq
        intro j hj
        rw [BitVec.getLsbD_ofNat, hb j]
        simp [hj, frameTemplate]
      have hstep := ih (c := ⟨c.off + 2 * 8, c.count + 1, Memory.write c.buf c.count (b c.count)⟩)
        (by simp only; omega) hlt (by simp only; omega) (by simp only; omega) (by simp only; omega)
        fun k hk1 hk2 j hj => by
          simp only at hk1 ⊢
          rw [show c.off + 2 * 8 + 16 * (k - (c.count + 1)) = c.off + 16 * (k - c.count) by omega]
          exact h k (by omega) hk2 j hj
      obtain ⟨c', e, hcnt, hoff, hbuf⟩ := hstep
      simp only [hbyte]
      refine ⟨c', e, hcnt, by rw [hoff]; simp only; omega, fun i => ?_⟩
      rw [hbuf i]
      simp only
      by_cases hi : i = c.count
      · subst hi
        rw [if_neg (by omega), if_pos ⟨Nat.le_refl _, hlt⟩, Memory.stored_write, if_pos rfl]
      · by_cases hi2 : c.count + 1 ≤ i ∧ i < n
        · rw [if_pos hi2, if_pos (by omega)]
        · rw [if_neg hi2, if_neg (by omega), Memory.stored_write, if_neg hi]
    · obtain rfl : n = c.count := by omega
      rw [if_neg (by omega)]
      exact ⟨c, rfl, rfl, by omega, fun i => by rw [if_neg (by omega)]⟩

/-- A byte loop that ends well ran until the limit or the samples ended it, and each byte it wrote has its pairs in RAW. -/
theorem byteLoop_pairs {s : State} {limit fuel : Nat} {c c' : Cursor} (hfuel : limit ≤ c.count + fuel)
    (h : byteLoop s limit fuel c = .ok c') :
    (limit ≤ c'.count ∨ s.rawlen.toNat < c'.off + 16) ∧
    (c'.count = c.count ∨ c'.off ≤ s.rawlen.toNat) ∧
    ∀ k, c.count ≤ k → k < c'.count → ∃ x, Memory.stored c'.buf k = some x ∧ ∀ j, j < 8 →
      pairBit (frameTemplate s.params) (s.sample (c.off + 16 * (k - c.count) + 2 * j))
        (s.sample (c.off + 16 * (k - c.count) + 2 * j + 1)) = some (x.getLsbD j) := by
  induction fuel generalizing c with
  | zero =>
    cases h
    exact ⟨by omega, .inl rfl, by omega⟩
  | succ fuel ih =>
    unfold byteLoop at h
    split at h
    · rename_i hc
      split at h
      · cases h
      · rename_i x u hx
        obtain ⟨-, rfl, -⟩ := extractBits_some hx
        obtain ⟨a1, -, a3, a4, -⟩ := byteLoop_ok h
        obtain ⟨h1, h2, h3⟩ := ih (by simp only; omega) h
        simp only at a1 a3 a4 h2 h3
        refine ⟨h1, .inr (by omega), fun k hk1 hk2 => ?_⟩
        by_cases hk : k = c.count
        · subst hk
          have hbits : ∀ j, ∃ b, j < 8 →
              pairBit (frameTemplate s.params) (s.sample (c.off + 2 * j)) (s.sample (c.off + 2 * j + 1)) = some b := by
            intro j
            by_cases hj : j < 8
            · cases e : pairBit (frameTemplate s.params) (s.sample (c.off + 2 * j)) (s.sample (c.off + 2 * j + 1)) with
              | none =>
                have := extractPairs_eq_none (n := 8) hj e
                simp [extractBits, valueBits, this] at hx
              | some b => exact ⟨b, fun _ => rfl⟩
            · exact ⟨true, fun hj' => absurd hj' hj⟩
          obtain ⟨bit, hbit⟩ := Classical.axiomOfChoice hbits
          obtain ⟨v, hv, -, hb⟩ := extractBits_of_pairs (by omega) hbit
          rw [hv] at hx
          cases hx
          refine ⟨BitVec.ofNat 8 x, ?_, fun j hj => ?_⟩
          · rw [a4 _ (.inl (by omega)), Memory.stored_write, if_pos rfl]
          · rw [BitVec.getLsbD_ofNat, hb j]
            simp only [Nat.sub_self, Nat.mul_zero, Nat.add_zero]
            rw [hbit j hj]
            simp [hj, frameTemplate]
        · obtain ⟨y, hy, hp⟩ := h3 k (by omega) hk2
          refine ⟨y, hy, fun j hj => ?_⟩
          rw [← hp j hj, show c.off + 2 * 8 + 16 * (k - (c.count + 1)) = c.off + 16 * (k - c.count) by omega]
    · cases h
      exact ⟨by omega, .inl rfl, by omega⟩

/-! ### The phases -/

/-- Section 2 fails only on timing. -/
theorem frameSection2_error {s : State} {nbits : Nat} {c : Cursor} {kind : FailKind}
    (h : frameSection2 s nbits c = .error kind) : kind = .timing := by
  unfold frameSection2 at h
  split at h
  · split at h
    · rename_i e
      cases h
      exact byteLoop_error e
    · split at h <;> cases h
      rfl
  · cases h
    rfl

/-- The timing part fails only on timing. -/
theorem frameTiming_error {s : State} {nbits : Nat} {kind : FailKind} (h : frameTiming s nbits = .error kind) :
    kind = .timing := by
  unfold frameTiming at h
  split at h
  · split at h
    · rename_i e
      cases h
      exact byteLoop_error e
    · split at h
      · exact frameSection2_error h
      · cases h
        rfl
  · cases h
    rfl

/-- A timing part that succeeds wrote consecutive bytes from index 0, at most `max 8 (nbits / 8)` of them. -/
theorem frameTiming_ok {s : State} {nbits : Nat} {c : Cursor} (h : frameTiming s nbits = .ok c) :
    c.count ≤ max 8 (nbits / 8) ∧ (∀ i, c.count ≤ i → Memory.stored c.buf i = Memory.stored s.dbuf i) ∧
    (nbits / 8 ≤ 27 → Memory.wf dbufCap s.dbuf = true → Memory.wf dbufCap c.buf = true) := by
  unfold frameTiming at h
  split at h
  · split at h
    · cases h
    · rename_i c1 e1
      split at h
      · unfold frameSection2 at h
        split at h
        · split at h
          · cases h
          · rename_i c2 e2
            split at h <;> cases h
            obtain ⟨-, a2, -, a4, a5⟩ := byteLoop_ok e1
            obtain ⟨b1, b2, -, b4, b5⟩ := byteLoop_ok e2
            simp only [sec1Len] at a2 a4 a5 b1 b2 b4 b5
            refine ⟨by omega, fun i hi => ?_, fun hn hw => ?_⟩
            · rw [b4 i (.inr hi), a4 i (.inr (by omega))]
            · exact b5 _ hn (a5 _ (by decide) hw)
        · cases h
      · cases h
  · cases h

/-- A matching frame passes the timing part and leaves its bytes in the buffer. -/
theorem frameTiming_of_frameMatches {u : State} {nbits m n : Nat} (h27 : nbits ≤ 216) (hlen : 2 * nbits + 3 ≤ u.rawlen.toNat)
    (hm : m = min 8 ((u.rawlen.toNat - 2) / 16))
    (hn : n = max m (min (nbits / 8) (m + (u.rawlen.toNat - (16 * m + 6)) / 16))) :
    ∀ b, FrameMatches u b m n → ∃ c, frameTiming u nbits = .ok c ∧ c.count = n ∧
      ∀ i, Memory.stored c.buf i = if i < n then some (b i) else Memory.stored u.dbuf i := by
  have hm8 : m ≤ 8 := by omega
  have hmn : m ≤ n := by omega
  have hn' : n ≤ max m (nbits / 8) := by omega
  rintro b ⟨f1, f2, f3, f4, f5, f6⟩
  obtain ⟨c1, e1, n1, o1, b1⟩ := byteLoop_of_pairs (s := u) (limit := sec1Len) (fuel := sec1Len) (n := m)
    (c := ⟨2, 0, u.dbuf⟩) (b := b) (by simp [sec1Len]; omega) (by simp) (by simp [sec1Len]; omega)
    (by simp only; omega) (by simp only [sec1Len]; omega) (by
      intro k _ hk j hj
      exact f2 k (by omega) j hj _ (by rw [if_pos hk]; simp))
  simp only [Nat.sub_zero, Nat.zero_le, true_and] at n1 o1 b1
  obtain ⟨c2, e2, n2, o2, b2⟩ := byteLoop_of_pairs (s := u) (limit := nbits / 8) (fuel := nbits / 8) (n := n)
    (c := ⟨16 * m + 6, m, c1.buf⟩) (b := b) (by simp only; omega) hmn (by simpa using hn')
    (by simp only; omega) (by simp only; omega) (by
      intro k hk1 hk j hj
      simp only at hk1
      exact f2 k (by omega) j hj _ (by rw [if_neg (by omega)]; simp only; omega))
  refine ⟨c2, ?_, n2, fun i => ?_⟩
  · unfold frameTiming frameSection2 frameHeaderOk sectionEndOk messageEndOk trailingGapOk
    have g1 := f1 0 (.inl rfl)
    have g2 := f1 _ (.inr rfl)
    simp only [Nat.zero_add] at g1
    simp only [g1.1, g1.2, Bool.and_self, if_true, e1, o1]
    rw [show 2 + 16 * m = 16 * m + 2 by omega, show 1 * u.params.tau = u.params.tau by omega]
    simp only [f3, f4, Bool.and_self, if_true, g2.1, g2.2, n1]
    rw [show 16 * m + 2 + 2 + 2 = 16 * m + 6 by omega, e2]
    simp only
    rw [o2, show 16 * m + 6 + 16 * (n - m) = 16 * n + 6 by omega, f5]
    by_cases h7 : 16 * n + 7 < u.rawlen.toNat
    · simp [f6 h7]
    · simp [show u.rawlen.toNat ≤ 16 * n + 6 + 1 by omega]
  · rw [b2, b1]
    simp only
    by_cases h1 : i < n <;> by_cases h2 : m ≤ i <;> by_cases h3 : i < m <;> simp [h1, h2, h3] <;> omega

/-- Where the two byte loops end: `m` bytes in section 1, `n` in all. -/
theorem frameTiming_counts {raw m n c1 o1 c2 o2 w : Nat} (h27 : w ≤ 27) (hlen : 16 * w + 3 ≤ raw)
    (hm : m = min 8 ((raw - 2) / 16)) (hn : n = max m (min w (m + (raw - (16 * m + 6)) / 16)))
    (p2 : c1 ≤ max 0 8) (p3 : o1 = 2 + 16 * (c1 - 0)) (p5 : 8 ≤ c1 ∨ raw < o1 + 16) (p6 : c1 = 0 ∨ o1 ≤ raw)
    (q1 : c1 ≤ c2) (q2 : c2 ≤ max c1 w) (q3 : o2 = o1 + 2 + 2 + 16 * (c2 - c1)) (q5 : w ≤ c2 ∨ raw < o2 + 16)
    (q6 : c2 = c1 ∨ o2 ≤ raw) : c1 = m ∧ o1 = 16 * m + 2 ∧ c2 = n ∧ o2 = 16 * n + 6 ∧ m ≤ n := by
  obtain rfl : c1 = m := by omega
  obtain rfl : o1 = 16 * c1 + 2 := by omega
  obtain rfl : c2 = n := by omega
  omega

/-- A timing part that succeeds found a matching frame of the bytes it left in the buffer. -/
theorem frameMatches_of_frameTiming {u : State} {nbits m n : Nat} (h8 : nbits % 8 = 0) (h27 : nbits ≤ 216)
    (hlen : 2 * nbits + 3 ≤ u.rawlen.toNat) (hm : m = min 8 ((u.rawlen.toNat - 2) / 16))
    (hn : n = max m (min (nbits / 8) (m + (u.rawlen.toNat - (16 * m + 6)) / 16))) {c : Cursor}
    (h : frameTiming u nbits = .ok c) :
    c.count = n ∧ (∀ i, i < n → ∃ x, Memory.stored c.buf i = some x) ∧
      ∀ b, (∀ i, i < n → Memory.stored c.buf i = some (b i)) → FrameMatches u b m n := by
  unfold frameTiming at h
  split at h
  · rename_i g1
    split at h
    · cases h
    · rename_i c1 e1
      split at h
      · rename_i g2
        unfold frameSection2 at h
        split at h
        · rename_i g3
          split at h
          · cases h
          · rename_i c2 e2
            split at h <;> cases h
            rename_i g4
            obtain ⟨p1, p2, p3, p4, -⟩ := byteLoop_ok e1
            obtain ⟨p5, p6, p7⟩ := byteLoop_pairs (by simp [sec1Len]) e1
            obtain ⟨q1, q2, q3, q4, -⟩ := byteLoop_ok e2
            obtain ⟨q5, q6, q7⟩ := byteLoop_pairs (by simp only; omega) e2
            obtain ⟨rfl, ho1, rfl, ho2, hmn⟩ :=
              frameTiming_counts (by omega) (by omega) hm hn p2 p3 p5 p6 q1 q2 q3 q5 q6
            refine ⟨rfl, fun i hi => ?_, fun b hb => ?_⟩
            · by_cases him : i < c1.count
              · obtain ⟨x, hx, -⟩ := p7 i (Nat.zero_le _) him
                exact ⟨x, (q4 i (.inl him)).trans hx⟩
              · obtain ⟨x, hx, -⟩ := q7 i (Nat.le_of_not_lt him) hi
                exact ⟨x, hx⟩
            clear hm hn h27 hlen p1 p2 p3 p5 p6 q1 q2 q3 q5 q6 e1 e2 h8
            unfold frameHeaderOk sectionEndOk messageEndOk trailingGapOk at *
            simp only [ho1, ho2, Bool.and_eq_true, Bool.or_eq_true, decide_eq_true_eq, Nat.one_mul] at *
            refine ⟨?_, ?_, g2.1, g2.2, g4.1, fun h7 => g4.2.resolve_left (by omega)⟩
            · rintro off (rfl | rfl)
              · exact g1
              · exact g3
            · intro k hk j hj off hoff
              by_cases hkm : k < c1.count
              · rw [if_pos hkm] at hoff
                obtain ⟨x, hx, hp⟩ := p7 k (Nat.zero_le _) hkm
                have := q4 k (.inl hkm)
                rw [hb k hk, hx] at this
                cases this
                rw [hoff, ← hp j hj]
                simp
              · rw [if_neg hkm] at hoff
                obtain ⟨x, hx, hp⟩ := q7 k (by omega) hk
                rw [hb k hk] at hx
                cases hx
                rw [hoff, ← hp j hj]
                rw [show 6 + 16 * k + 2 * j = 16 * c1.count + 2 + 2 + 2 + 16 * (k - c1.count) + 2 * j by omega]
        · cases h
      · cases h
  · cases h

/-- A frame of `n` bytes in RAW, with or without its message gap, passes the timing part and leaves its bytes in the
buffer. -/
theorem frameTiming_of_frameLayout {u : State} {b : Nat → Byte} {n : Nat} (hd : DefaultTiming u.params)
    (h8 : 8 ≤ n)
    (hlen : u.rawlen.toNat = 16 * n + 8 ∨ u.rawlen.toNat = 16 * n + 7)
    (hl : FrameLayout u.params b n (fun i => (u.rawEntry i).toNat)) :
    ∃ c, frameTiming u (8 * n) = .ok c ∧ c.count = n ∧
      ∀ i, Memory.stored c.buf i = if i < n then some (b i) else Memory.stored u.dbuf i := by
  have hp : u.params.tau = 432 ∧ u.params.tAc = 40 ∧ u.params.eAc = 0 ∧ u.params.sectionGap = 10000 ∧
      u.params.messageGap = 100000 ∧ u.params.tGap = 25 ∧ u.params.captureTimeout = 15000 := by
    rw [hd]; exact ⟨rfl, rfl, rfl, rfl, rfl, rfl, rfl⟩
  obtain ⟨p1, p2, p3, p4, p5, p6, p7⟩ := hp
  obtain ⟨l0, l1, l2, l3, l4, l5, l6, l7, l8, l9⟩ := hl
  have smp : ∀ i x, i < 16 * n + 7 → (u.rawEntry i).toNat = x → u.sample i = some x := by
    intro i x hi hx; unfold State.sample; rw [if_pos (by omega), hx]
  have ft : ∀ (o : Bool) i j, u.sample i = some 432 → u.sample j = some (if o then 1296 else 432) →
      pairBit (frameTemplate u.params) (u.sample i) (u.sample j) = some o := by
    intro o i j h1 h2
    rw [h1, h2]
    simp only [pairBit, frameTemplate, p1, p2, p3]
    cases o <;> decide
  have hdr : ∀ i, i + 1 < 16 * n + 7 → (u.rawEntry i).toNat = 8 * u.params.tau →
      (u.rawEntry (i + 1)).toNat = 4 * u.params.tau → frameHeaderOk u i = true := by
    intro i hi h1 h2
    unfold frameHeaderOk
    rw [smp _ _ (by omega) h1, smp _ _ (by omega) h2, p1, p2, p3]; decide
  obtain ⟨c1, e1, n1, o1, b1⟩ := byteLoop_of_pairs (s := u) (limit := sec1Len) (fuel := sec1Len)
      (n := sec1Len) (c := ⟨2, 0, u.dbuf⟩) (b := b) (by simp) (by simp) (by simp) (by simp [sec1Len]; omega) (by simp) (by
    intro k _ hk j hj
    simp only [sec1Len] at hk
    have := l2 k hk j hj
    rw [p1] at this
    refine ft _ _ _ (smp _ _ (by simp; omega) (by simpa using this.1)) (smp _ _ (by simp; omega) ?_)
    have h3 := this.2
    simp only [Nat.sub_zero]
    rw [show 2 + 16 * k + 2 * j + 1 = 3 + 16 * k + 2 * j by omega]; exact h3)
  simp only [sec1Len] at n1 o1 b1
  obtain ⟨c2, e2, n2, o2, b2⟩ := byteLoop_of_pairs (s := u) (limit := n) (fuel := n) (n := n)
      (c := ⟨134, 8, c1.buf⟩) (b := b) (by simp) (by simpa using h8) (by simp) (by simp only; omega) (by simp) (by
    intro k hk1 hk j hj
    simp only at hk1 ⊢
    have := l7 k hk1 hk j hj
    rw [p1] at this
    refine ft _ _ _ (smp _ _ (by omega) ?_) (smp _ _ (by omega) ?_)
    · rw [show 134 + 16 * (k - 8) + 2 * j = 6 + 16 * k + 2 * j by omega]; exact this.1
    · rw [show 134 + 16 * (k - 8) + 2 * j + 1 = 7 + 16 * k + 2 * j by omega]; exact this.2)
  refine ⟨c2, ?_, n2, ?_⟩
  · unfold frameTiming
    rw [if_pos (hdr 0 (by omega) l0 l1), e1]
    simp only
    have : c1.off = 130 := by rw [o1]
    rw [this, if_pos]
    · unfold frameSection2
      rw [if_pos (hdr 132 (by omega) l5 l6)]
      rw [show 8 * n / 8 = n by omega]
      have e2' : byteLoop u n n ⟨130 + 2 + 2, c1.count, c1.buf⟩ = .ok c2 := by
        rw [n1]
        exact e2
      simp only [e2']
      rw [if_pos]
      unfold messageEndOk trailingGapOk
      have : c2.off = 16 * n + 6 := by rw [o2]; simp only; omega
      rw [this, smp _ _ (by omega) l8, p1, p2, p3]
      rw [Bool.and_eq_true]
      refine ⟨by decide, ?_⟩
      rcases hlen with h | h
      · unfold State.sample
        rw [if_pos (by omega), show 16 * n + 6 + 1 = 16 * n + 7 by omega,
          show (u.rawEntry (16 * n + 7)).toNat = 100000 by rw [← p5]; exact l9, p5, p6]
        unfold matchAtLeast; rw [p7]; simp [windowLow]
      · simp [h]
    · unfold sectionEndOk
      rw [smp _ _ (by omega) l3, smp _ _ (by omega) l4, p1, p2, p3, p4]; decide
  · intro i
    rw [b2, b1]
    simp only
    by_cases h1 : i < n <;> by_cases h2 : 8 ≤ i <;> by_cases h3 : i < 8 <;> simp [h1, h2, h3] <;> omega

end Sys2Proof.Machine
end

