-- ==== Sys2Proof/Laws/PerInstr.lean ====
section
/-! SUPPORT. Per command: the word the encoder gives, whatever the operands, is its own row's in the opcode table
(30_encoding.md R104, R111). -/

namespace Sys2Proof.Laws.EncodeMatchesRow

/-- The encoder's word matches the mask and pattern of the command's own row of the opcode table. -/
def Statement (i : Instr) : Prop :=
  ∃ row ∈ opcodeTable, row.mnemonic = i.mnemonic ∧ encode i &&& row.mask = row.pattern

/-- Arithmetic form: the word under the mask, as a number. -/
theorem of_toNat {i : Instr} (row : OpRow) (hm : row ∈ opcodeTable) (hn : row.mnemonic = i.mnemonic)
    (h : (encode i &&& row.mask).toNat = row.pattern.toNat) : Statement i :=
  ⟨row, hm, hn, BitVec.eq_of_toNat_eq h⟩

theorem cal : Statement (.cal) := by
  exact of_toNat ⟨"CAL", 0x01000000#32, 0xFFFFFFFF#32⟩ (by decide) rfl (by decide)

theorem extract (tsel : Bool) (n offset : Nat) : Statement (.extract tsel n offset) := by
  refine of_toNat ⟨"EXTRACT", 0x02000000#32, 0xFF000000#32⟩ (by decide) rfl ?_
  simp only [encode, toNat_and_maskOp, field_eq, toNat_wordX, BitVec.toNat_ofNat]
  have := tsel.toNat_le
  omega

theorem wordEncode (device subdevice function : Byte) : Statement (.wordEncode device subdevice function) := by
  refine of_toNat ⟨"WORD_ENCODE", 0x10000000#32, 0xFF000000#32⟩ (by decide) rfl ?_
  simp only [encode, toNat_and_maskOp, field_eq, toNat_wordE, BitVec.toNat_ofNat]
  have := device.isLt
  have := subdevice.isLt
  have := function.isLt
  omega

theorem wordSend (nbits reps : Nat) : Statement (.wordSend nbits reps) := by
  refine of_toNat ⟨"WORD_SEND", 0x11000000#32, 0xFF000000#32⟩ (by decide) rfl ?_
  simp only [encode, toNat_and_maskOp, field_eq, toNat_wordW, BitVec.toNat_ofNat]
  omega

theorem wordDecode (strict : Bool) (nbits : Nat) : Statement (.wordDecode strict nbits) := by
  refine of_toNat ⟨"WORD_DECODE", 0x12000000#32, 0xFF7F0000#32⟩ (by decide) rfl ?_
  simp only [encode, toNat_and_maskD, field_eq, toNat_wordD, BitVec.toNat_ofNat]
  have := strict.toNat_le
  omega

theorem frameSend (nbytes reps : Nat) : Statement (.frameSend nbytes reps) := by
  refine of_toNat ⟨"FRAME_SEND", 0x20000000#32, 0xFF000000#32⟩ (by decide) rfl ?_
  simp only [encode, toNat_and_maskOp, field_eq, toNat_wordF, BitVec.toNat_ofNat]
  omega

theorem frameDecode (strict : Bool) (nbits : Nat) : Statement (.frameDecode strict nbits) := by
  refine of_toNat ⟨"FRAME_DECODE", 0x21000000#32, 0xFF7F0000#32⟩ (by decide) rfl ?_
  simp only [encode, toNat_and_maskD, field_eq, toNat_wordD, BitVec.toNat_ofNat]
  have := strict.toNat_le
  omega

theorem csumCalc (len : Nat) : Statement (.csumCalc len) := by
  refine of_toNat ⟨"CSUM_CALC", 0x30000000#32, 0xFFFFFF00#32⟩ (by decide) rfl ?_
  simp only [encode, toNat_and_maskI8, field_eq, toNat_wordI8, BitVec.toNat_ofNat]
  omega

theorem csumValid (len : Nat) : Statement (.csumValid len) := by
  refine of_toNat ⟨"CSUM_VALID", 0x31000000#32, 0xFFFFFF00#32⟩ (by decide) rfl ?_
  simp only [encode, toNat_and_maskI8, field_eq, toNat_wordI8, BitVec.toNat_ofNat]
  omega

theorem acReset : Statement (.acReset) := by
  exact of_toNat ⟨"AC_RESET", 0x40000000#32, 0xFFFFFFFF#32⟩ (by decide) rfl (by decide)

theorem acGetRaw : Statement (.acGetRaw) := by
  exact of_toNat ⟨"AC_GET_RAW", 0x41000000#32, 0xFFFFFFFF#32⟩ (by decide) rfl (by decide)

theorem acSetRaw : Statement (.acSetRaw) := by
  exact of_toNat ⟨"AC_SET_RAW", 0x42000000#32, 0xFFFFFFFF#32⟩ (by decide) rfl (by decide)

theorem acSend (reps : Nat) : Statement (.acSend reps) := by
  refine of_toNat ⟨"AC_SEND", 0x43000000#32, 0xFFFF0000#32⟩ (by decide) rfl ?_
  simp only [encode, toNat_and_maskR, field_eq, toNat_wordR, BitVec.toNat_ofNat]
  omega

theorem acSetModel (variant : Byte) : Statement (.acSetModel variant) := by
  refine of_toNat ⟨"AC_SET_MODEL", 0x44000000#32, 0xFFFFFF00#32⟩ (by decide) rfl ?_
  simp only [encode, toNat_and_maskI8, field_eq, toNat_wordI8, BitVec.toNat_ofNat]
  have := variant.isLt
  omega

theorem acGetModel : Statement (.acGetModel) := by
  exact of_toNat ⟨"AC_GET_MODEL", 0x45000000#32, 0xFFFFFFFF#32⟩ (by decide) rfl (by decide)

theorem acOn : Statement (.acOn) := by
  exact of_toNat ⟨"AC_ON", 0x50000000#32, 0xFFFFFFFF#32⟩ (by decide) rfl (by decide)

theorem acOff : Statement (.acOff) := by
  exact of_toNat ⟨"AC_OFF", 0x51000000#32, 0xFFFFFFFF#32⟩ (by decide) rfl (by decide)

theorem acSetPower (b : Bool) : Statement (.acSetPower b) := by
  refine of_toNat ⟨"AC_SET_POWER", 0x52000000#32, 0xFFFFFFFE#32⟩ (by decide) rfl ?_
  simp only [encode, toNat_and_maskB, field_eq, toNat_wordB, BitVec.toNat_ofNat]
  have := b.toNat_le
  omega

theorem acGetPower : Statement (.acGetPower) := by
  exact of_toNat ⟨"AC_GET_POWER", 0x53000000#32, 0xFFFFFFFF#32⟩ (by decide) rfl (by decide)

theorem acSetMode (mode : Byte) : Statement (.acSetMode mode) := by
  refine of_toNat ⟨"AC_SET_MODE", 0x54000000#32, 0xFFFFFF00#32⟩ (by decide) rfl ?_
  simp only [encode, toNat_and_maskI8, field_eq, toNat_wordI8, BitVec.toNat_ofNat]
  have := mode.isLt
  omega

theorem acGetMode : Statement (.acGetMode) := by
  exact of_toNat ⟨"AC_GET_MODE", 0x55000000#32, 0xFFFFFFFF#32⟩ (by decide) rfl (by decide)

theorem acSetTemp (t : Nat) (rem : Bool) : Statement (.acSetTemp t rem) := by
  refine of_toNat ⟨"AC_SET_TEMP", 0x56000000#32, 0xFF7FFF00#32⟩ (by decide) rfl ?_
  simp only [encode, toNat_and_maskT, field_eq, toNat_wordT, BitVec.toNat_ofNat]
  have := rem.toNat_le
  omega

theorem acGetTemp : Statement (.acGetTemp) := by
  exact of_toNat ⟨"AC_GET_TEMP", 0x57000000#32, 0xFFFFFFFF#32⟩ (by decide) rfl (by decide)

theorem acSetSwingV (e : Nat) : Statement (.acSetSwingV e) := by
  refine of_toNat ⟨"AC_SET_SWINGV", 0x58000000#32, 0xFFFFFF00#32⟩ (by decide) rfl ?_
  simp only [encode, toNat_and_maskI8, field_eq, toNat_wordI8, BitVec.toNat_ofNat]
  omega

theorem acGetSwingV : Statement (.acGetSwingV) := by
  exact of_toNat ⟨"AC_GET_SWINGV", 0x59000000#32, 0xFFFFFFFF#32⟩ (by decide) rfl (by decide)

theorem acSetSwingH (dir : Byte) : Statement (.acSetSwingH dir) := by
  refine of_toNat ⟨"AC_SET_SWINGH", 0x5A000000#32, 0xFFFFFF00#32⟩ (by decide) rfl ?_
  simp only [encode, toNat_and_maskI8, field_eq, toNat_wordI8, BitVec.toNat_ofNat]
  have := dir.isLt
  omega

theorem acGetSwingH : Statement (.acGetSwingH) := by
  exact of_toNat ⟨"AC_GET_SWINGH", 0x5B000000#32, 0xFFFFFFFF#32⟩ (by decide) rfl (by decide)

theorem acSetFan (speed : Nat) : Statement (.acSetFan speed) := by
  refine of_toNat ⟨"AC_SET_FAN", 0x5C000000#32, 0xFFFFFF00#32⟩ (by decide) rfl ?_
  simp only [encode, toNat_and_maskI8, field_eq, toNat_wordI8, BitVec.toNat_ofNat]
  omega

theorem acGetFan : Statement (.acGetFan) := by
  exact of_toNat ⟨"AC_GET_FAN", 0x5D000000#32, 0xFFFFFFFF#32⟩ (by decide) rfl (by decide)

theorem acSetQuiet (b : Bool) : Statement (.acSetQuiet b) := by
  refine of_toNat ⟨"AC_SET_QUIET", 0x5E000000#32, 0xFFFFFFFE#32⟩ (by decide) rfl ?_
  simp only [encode, toNat_and_maskB, field_eq, toNat_wordB, BitVec.toNat_ofNat]
  have := b.toNat_le
  omega

theorem acGetQuiet : Statement (.acGetQuiet) := by
  exact of_toNat ⟨"AC_GET_QUIET", 0x5F000000#32, 0xFFFFFFFF#32⟩ (by decide) rfl (by decide)

theorem acSetPowerful (b : Bool) : Statement (.acSetPowerful b) := by
  refine of_toNat ⟨"AC_SET_POWERFUL", 0x60000000#32, 0xFFFFFFFE#32⟩ (by decide) rfl ?_
  simp only [encode, toNat_and_maskB, field_eq, toNat_wordB, BitVec.toNat_ofNat]
  have := b.toNat_le
  omega

theorem acGetPowerful : Statement (.acGetPowerful) := by
  exact of_toNat ⟨"AC_GET_POWERFUL", 0x61000000#32, 0xFFFFFFFF#32⟩ (by decide) rfl (by decide)

end Sys2Proof.Laws.EncodeMatchesRow
end

