-- ==== Sys2Proof/Laws/Step.lean ====
section
/-! SUPPORT. Everything one step can do, as cases, so that claims about a step cite this lemma and never unfold the
step. -/

namespace Sys2Proof.Machine

/-- The five moves of the host: a command word, an illegal word, a write, a read, block reset. -/
theorem takeMove_cases {m : HostMove} {s t : State} (h : takeMove m s = .next t) :
    (∃ w i, m = .write .cmd w ∧ w < 2 ^ 32 ∧ decode (BitVec.ofNat 32 w) = .ok i ∧ exec i s = .next t) ∨
    (∃ w why, m = .write .cmd w ∧ w < 2 ^ 32 ∧ decode (BitVec.ofNat 32 w) = .error why ∧ t = raiseIllegalCommand s) ∨
    (∃ p v, m = .write p v ∧ hostWrite p v s = some t) ∨
    (∃ p, m = .read p ∧ t = s) ∨
    (m = .blockReset ∧ t = applyBlockReset s) := by
  cases m with
  | write p v =>
    simp only [takeMove, takeWrite] at h
    split at h
    · rename_i hc
      obtain ⟨rfl, hv⟩ := hc
      unfold issueWord at h
      split at h
      · rename_i i hd
        exact .inl ⟨v, i, rfl, hv, hd, h⟩
      · rename_i why hd
        cases h
        exact .inr (.inl ⟨v, why, rfl, hv, hd, rfl⟩)
    · split at h
      · rename_i s' e
        cases h
        exact .inr (.inr (.inl ⟨p, v, rfl, e⟩))
      · cases h
  | read p =>
    simp only [takeMove, takeRead] at h
    split at h
    · cases h
      exact .inr (.inr (.inr (.inl ⟨p, rfl, rfl⟩)))
    · cases h
  | blockReset =>
    cases h
    exact .inr (.inr (.inr (.inr ⟨rfl, rfl⟩)))

/-- A step is idle, or takes the move at the head of the list. -/
theorem step_cases {s t : State} (h : step s = .next t) :
    (s.pending = [] ∧ t = s) ∨
    ∃ m rest, s.pending = m :: rest ∧ takeMove m { s with pending := rest } = .next t := by
  unfold step takeTurn at h
  split at h
  · rename_i hp
    cases h
    exact .inl ⟨hp, rfl⟩
  · rename_i m rest hp
    exact .inr ⟨m, rest, hp, h⟩

/-- An illegal word raises IllegalCommand. -/
theorem takeMove_illegal {w : Nat} {why : IllegalWord} (s : State) (hw : w < 2 ^ 32)
    (h : decode (BitVec.ofNat 32 w) = .error why) : takeMove (.write .cmd w) s = .next (raiseIllegalCommand s) := by
  simp only [takeMove, takeWrite, issueWord, h, true_and, if_pos hw]

/-- A legal word runs its command. -/
theorem takeMove_legal {w : Nat} {i : Instr} (s : State) (hw : w < 2 ^ 32)
    (h : decode (BitVec.ofNat 32 w) = .ok i) : takeMove (.write .cmd w) s = exec i s := by
  simp only [takeMove, takeWrite, issueWord, h, true_and, if_pos hw]

/-- What an admitted host write can change: VALUE, MFR, RAWLEN up to RAW_CAP, or one element of RAW or DBUF. -/
theorem hostWrite_cases {p : Port} {v : Nat} {s t : State} (h : hostWrite p v s = some t) :
    (∃ x, t = { s with value := x }) ∨
    (v < 2 ^ 16 ∧ t = { s with mfr := BitVec.ofNat 16 v }) ∨
    (v < 2 ^ 16 ∧ v ≤ s.params.rawCap ∧ t = { s with rawlen := BitVec.ofNat 16 v }) ∨
    (∃ i, i < s.params.rawCap ∧ t = { s with raw := Memory.write s.raw i (BitVec.ofNat 32 v) }) ∨
    ∃ i, i < dbufCap ∧ t = { s with dbuf := Memory.write s.dbuf i (BitVec.ofNat 8 v) } := by
  cases p <;> simp only [hostWrite] at h
  case valueLo =>
    split at h <;> cases h
    exact .inl ⟨_, rfl⟩
  case valueHi =>
    split at h <;> cases h
    exact .inl ⟨_, rfl⟩
  case mfr =>
    split at h <;> cases h
    exact .inr (.inl ⟨‹_›, rfl⟩)
  case rawlen =>
    split at h <;> cases h
    rename_i hc
    exact .inr (.inr (.inl ⟨hc.1, hc.2, rfl⟩))
  case raw i =>
    split at h <;> cases h
    rename_i hc
    exact .inr (.inr (.inr (.inl ⟨i, hc.2, rfl⟩)))
  case dbuf i =>
    split at h <;> cases h
    rename_i hc
    exact .inr (.inr (.inr (.inr ⟨i, hc.2, rfl⟩)))
  all_goals cases h

/-- How a host move moves the draws (log 3): the counter never goes back, and only block reset changes the draw that
unlisted memory elements read. -/
theorem takeMove_draws {m : HostMove} {s t : State} (h : takeMove m s = .next t) :
    s.draws ≤ t.draws ∧ (m ≠ .blockReset → t.memDraw = s.memDraw) := by
  rcases takeMove_cases h with ⟨w, i, rfl, -, -, he⟩ | ⟨w, why, rfl, -, -, rfl⟩ | ⟨p, v, rfl, e⟩ | ⟨p, rfl, rfl⟩ |
    ⟨rfl, rfl⟩
  · exact ⟨exec_draws he, fun _ => (exec_frame he).2.2.2.2.2⟩
  · exact ⟨Nat.le_refl _, fun _ => rfl⟩
  · rcases hostWrite_cases e with ⟨x, rfl⟩ | ⟨_, rfl⟩ | ⟨_, _, rfl⟩ | ⟨_, _, rfl⟩ | ⟨_, _, rfl⟩
    all_goals exact ⟨Nat.le_refl _, fun _ => rfl⟩
  · exact ⟨Nat.le_refl _, fun _ => rfl⟩
  · exact ⟨Nat.le_succ _, fun hm => absurd rfl hm⟩

end Sys2Proof.Machine
end

