-- ==== Sys2Proof/Laws/Validator.lean ====
section
/-! SUPPORT. The checksum of a byte list as the sum over its indices (43_validator.md R180, R181). -/

namespace Sys2Proof.Machine

/-- The byte checksum is `checksumNat` of the bytes by index. -/
theorem toNat_checksum {bs : List Byte} {f : Nat → Byte} (h : ∀ k, (hk : k < bs.length) → bs[k] = f k) :
    (checksum bs).toNat = checksumNat f bs.length := by
  have e : bs.dropLast.map BitVec.toNat = (List.range (bs.length - 1)).map fun k => (f k).toNat := by
    apply List.ext_getElem
    · simp
    · intro i h1 h2
      have hi : i < bs.length := by simp at h1; omega
      simp [h i hi]
  unfold checksum checksumNat checksumSeed
  rw [e, BitVec.toNat_ofNat]

/-- A checksum is valid when there are two bytes or more and the last is the checksum of the others. -/
theorem validChecksum_iff {bs : List Byte} {f : Nat → Byte} (h : ∀ k, (hk : k < bs.length) → bs[k] = f k) :
    validChecksum bs = true ↔ 2 ≤ bs.length ∧ (f (bs.length - 1)).toNat = checksumNat f bs.length := by
  rw [← toNat_checksum h, BitVec.toNat_inj]
  unfold validChecksum
  rw [Bool.and_eq_true, decide_eq_true_eq, beq_iff_eq]
  refine and_congr_right fun h2 => ?_
  rw [List.getLast?_eq_getElem?, List.getElem?_eq_getElem (by omega), Option.some.injEq, h]

/-- The checksum of the A/C file, by byte. -/
theorem toNat_checksum_ac (ac : Vector Byte 27) {f : Nat → Byte} (h : ∀ i : Fin 27, f i = ac[i]) :
    (checksum ac.toList).toNat = checksumNat f 27 := by
  have e := toNat_checksum (bs := ac.toList) (f := f) fun k hk => by
    rw [h ⟨k, by simpa using hk⟩]
    simp
  simpa using e

end Sys2Proof.Machine
end

