-- ==== Sys2Proof/Tests/Slice0.lean ====
section
/-! SUPPORT. The model's own tests: ill-formed terms refused, one hand-written word per command, the spec's vectors
(95_test_vectors.md, V numbers and E numbers) on single steps, and for each obligation with hypotheses a concrete witness
that meets them. -/

namespace Sys2Proof.Tests

open Sys2Proof.Machine

/-! ### WellFormed refuses an operand that does not fit its field (30_encoding.md R95–R105) -/

theorem test_wf_extract_n : (Instr.extract false 128 0).wellFormed = false := by decide
theorem test_wf_extract_offset : (Instr.extract false 0 65536).wellFormed = false := by decide
theorem test_wf_wordSend_nbits : (Instr.wordSend 256 0).wellFormed = false := by decide
theorem test_wf_wordSend_repeat : (Instr.wordSend 0 65536).wellFormed = false := by decide
theorem test_wf_wordDecode : (Instr.wordDecode true 65536).wellFormed = false := by decide
theorem test_wf_frameSend_nbytes : (Instr.frameSend 256 0).wellFormed = false := by decide
theorem test_wf_frameSend_repeat : (Instr.frameSend 0 65536).wellFormed = false := by decide
theorem test_wf_frameDecode : (Instr.frameDecode false 65536).wellFormed = false := by decide
theorem test_wf_csumCalc : (Instr.csumCalc 256).wellFormed = false := by decide
theorem test_wf_csumValid : (Instr.csumValid 256).wellFormed = false := by decide
theorem test_wf_acSend : (Instr.acSend 65536).wellFormed = false := by decide
theorem test_wf_acSetTemp : (Instr.acSetTemp 256 false).wellFormed = false := by decide
theorem test_wf_acSetSwingV : (Instr.acSetSwingV 256).wellFormed = false := by decide
theorem test_wf_acSetFan : (Instr.acSetFan 256).wellFormed = false := by decide

/-! ### Decoding: a word written out from each command's format (30_encoding.md R94–R104) -/

theorem test_decode_cal : decode 0b00000001_000000000000000000000000#32 = .ok .cal := by decide
theorem test_decode_extract :
    decode 0b00000010_1_1111110_0000000100000011#32 = .ok (.extract true 126 259) := by decide
theorem test_decode_wordEncode :
    decode 0b00010000_00000001_00000010_10000011#32 = .ok (.wordEncode 0x01#8 0x02#8 0x83#8) := by decide
theorem test_decode_wordSend : decode 0b00010001_00110000_0000000000000001#32 = .ok (.wordSend 48 1) := by decide
theorem test_decode_wordDecode : decode 0b00010010_1_0000000_0000000000110000#32 = .ok (.wordDecode true 48) := by decide
theorem test_decode_frameSend : decode 0b00100000_00011011_1000000000000000#32 = .ok (.frameSend 27 32768) := by decide
theorem test_decode_frameDecode :
    decode 0b00100001_0_0000000_0000000011011000#32 = .ok (.frameDecode false 216) := by decide
theorem test_decode_csumCalc : decode 0b00110000_0000000000000000_00011011#32 = .ok (.csumCalc 27) := by decide
theorem test_decode_csumValid : decode 0b00110001_0000000000000000_10000001#32 = .ok (.csumValid 129) := by decide
theorem test_decode_acReset : decode 0b01000000_000000000000000000000000#32 = .ok .acReset := by decide
theorem test_decode_acGetRaw : decode 0b01000001_000000000000000000000000#32 = .ok .acGetRaw := by decide
theorem test_decode_acSetRaw : decode 0b01000010_000000000000000000000000#32 = .ok .acSetRaw := by decide
theorem test_decode_acSend : decode 0b01000011_00000000_1000000000000010#32 = .ok (.acSend 32770) := by decide
theorem test_decode_acSetModel : decode 0b01000100_0000000000000000_00000011#32 = .ok (.acSetModel 0x03#8) := by decide
theorem test_decode_acGetModel : decode 0b01000101_000000000000000000000000#32 = .ok .acGetModel := by decide
theorem test_decode_acOn : decode 0b01010000_000000000000000000000000#32 = .ok .acOn := by decide
theorem test_decode_acOff : decode 0b01010001_000000000000000000000000#32 = .ok .acOff := by decide
theorem test_decode_acSetPower : decode 0b01010010_00000000000000000000000_1#32 = .ok (.acSetPower true) := by decide
theorem test_decode_acGetPower : decode 0b01010011_000000000000000000000000#32 = .ok .acGetPower := by decide
theorem test_decode_acSetMode : decode 0b01010100_0000000000000000_00000110#32 = .ok (.acSetMode 0x06#8) := by decide
theorem test_decode_acGetMode : decode 0b01010101_000000000000000000000000#32 = .ok .acGetMode := by decide
theorem test_decode_acSetTemp :
    decode 0b01010110_1_000000000000000_00101000#32 = .ok (.acSetTemp 40 true) := by decide
theorem test_decode_acGetTemp : decode 0b01010111_000000000000000000000000#32 = .ok .acGetTemp := by decide
theorem test_decode_acSetSwingV : decode 0b01011000_0000000000000000_00010011#32 = .ok (.acSetSwingV 19) := by decide
theorem test_decode_acGetSwingV : decode 0b01011001_000000000000000000000000#32 = .ok .acGetSwingV := by decide
theorem test_decode_acSetSwingH : decode 0b01011010_0000000000000000_00001010#32 = .ok (.acSetSwingH 0x0A#8) := by decide
theorem test_decode_acGetSwingH : decode 0b01011011_000000000000000000000000#32 = .ok .acGetSwingH := by decide
theorem test_decode_acSetFan : decode 0b01011100_0000000000000000_00000111#32 = .ok (.acSetFan 7) := by decide
theorem test_decode_acGetFan : decode 0b01011101_000000000000000000000000#32 = .ok .acGetFan := by decide
theorem test_decode_acSetQuiet : decode 0b01011110_00000000000000000000000_1#32 = .ok (.acSetQuiet true) := by decide
theorem test_decode_acGetQuiet : decode 0b01011111_000000000000000000000000#32 = .ok .acGetQuiet := by decide
theorem test_decode_acSetPowerful :
    decode 0b01100000_00000000000000000000000_0#32 = .ok (.acSetPowerful false) := by decide
theorem test_decode_acGetPowerful : decode 0b01100001_000000000000000000000000#32 = .ok .acGetPowerful := by decide

/-- V110 to V118: the illegal words and why they are illegal. -/
theorem test_decode_illegal :
    decode 0x00000000#32 = .error .unusedOpcode ∧ decode 0x03000000#32 = .error .unusedOpcode ∧
    decode 0x62000000#32 = .error .unusedOpcode ∧ decode 0xFF000000#32 = .error .unusedOpcode ∧
    decode 0x01000001#32 = .error .reservedBits ∧ decode 0x52000002#32 = .error .reservedBits ∧
    decode 0x54000100#32 = .error .reservedBits ∧ decode 0x56400019#32 = .error .reservedBits ∧
    decode 0x21400000#32 = .error .reservedBits ∧ decode 0x43010000#32 = .error .reservedBits := by decide

/-- V119 is legal: format W reserves nothing. -/
theorem test_decode_wordSend_65 : decodeTableWord 32 0x11410000 = some (.wordSend 65 0) := by decide

/-- The opcode table has 33 rows and no two rows share a word's opcode (30_encoding.md R104, R111). -/
theorem test_opcode_table :
    opcodeTable.length = 33 ∧ (opcodeTable.map fun r => r.pattern.extractLsb' 24 8).Nodup := by decide

/-! ### Helpers -/

/-- What `f` reads in the state after the command, if it ends in one. -/
def after {α : Type} (i : Instr) (s : State) (f : State → α) : Option α :=
  match exec i s with
  | .next t => some (f t)
  | .fault _ => none
  | .refused _ => none

/-- The state after the command (`s` itself if there is none), to build small states for witnesses. -/
def next (i : Instr) (s : State) : State :=
  match exec i s with
  | .next t => t
  | .fault _ => s
  | .refused _ => s

/-- RAW holds exactly these durations. -/
def withRaw (ds : List Nat) (s : State) : State :=
  { s with raw := Memory.indexed 0 (ds.map (BitVec.ofNat 32)), rawlen := BitVec.ofNat 16 ds.length }

/-- DBUF holds these bytes from index 0. -/
def withDbuf (bs : List Byte) (s : State) : State := { s with dbuf := Memory.indexed 0 bs }

/-- The state whose next host move is the write of this word to `CMD`. -/
def withCmd (w : Nat) : State := { State.reset with pending := [.write .cmd w] }

/-- TEMPLATE with its valid checksum in byte 26 (95_test_vectors.md, notation). -/
def templatePlus : List Byte := acTemplate.toList.dropLast ++ [0xF5#8]

/-- The word plan of 41_word_codec.md R143's example, 0x400401020300. -/
def wordPlan : List Nat := wordFrame defaultParams 0x400401020300#64 48

/-- The frame plan P of 95_test_vectors.md 2.4. -/
def framePlan : List Nat := frameSequence defaultParams templatePlus

/-- Pairs for eight bits, the first pair a one. -/
def firstOne (mark space1 space0 : Nat) : List Nat :=
  [mark, space1] ++ (List.replicate 7 [mark, space0]).flatten

/-! ### Matching windows -/

/-- V1 to V9. -/
theorem test_windows :
    [258, 259, 605, 606].map (fun m => matchMark (some m) 432 40 0) = [false, true, true, false] ∧
    [776, 777, 1815, 1816].map (fun m => matchSpace (some m) 1296 40 0) = [false, true, true, false] ∧
    [360, 361, 603, 604].map (fun m => matchMark (some m) 432 25 50) = [false, true, true, false] ∧
    [2628, 2629, 4383, 4384].map (fun m => matchMark (some m) 3456 25 50) = [false, true, true, false] ∧
    [1257, 1258, 2098, 2099].map (fun m => matchSpace (some m) 1728 25 50) = [false, true, true, false] ∧
    [5999, 6000, 14001, 14002].map (fun m => matchSpace (some m) 10000 40 0) = [false, true, true, false] ∧
    [none, some 0, some 11249, some 11250].map (fun m => matchAtLeast defaultParams m 100000 25) =
      [false, true, false, true] ∧
    [some 3749, some 3750, some 8000].map (fun m => matchAtLeast defaultParams m 5000 25) = [false, true, true] ∧
    windowMatch none 432 40 = false := by decide

/-! ### CAL and EXTRACT -/

/-- V10, V11, V13. -/
theorem test_cal_ticks :
    after .cal (withRaw [3802, 1901] State.reset) (fun t => (t.mtick, t.stick, t.status)) = some (475, 475, 1) ∧
    after .cal (withRaw [3456, 1728] State.reset) (fun t => (t.mtick, t.stick)) = some (432, 432) ∧
    after .cal (withRaw [7, 3] State.reset) (fun t => (t.mtick, t.stick, t.status)) = some (0, 0, 1) := by decide

/-- V12. -/
theorem test_cal_too_few :
    after .cal { withRaw [3456] State.reset with mtick := 5, stick := 6 } (fun t => (t.mtick, t.stick, t.status)) =
      some (5, 6, 0) := by decide

/-- V14, V15, V17, V20. -/
theorem test_extract_frame_set :
    after (.extract true 8 2) (withRaw ([0, 0] ++ firstOne 432 1296 432) State.reset)
      (fun t => (t.value, t.used, t.status)) = some (1, 16, 1) ∧
    after (.extract true 8 2) { withRaw ([0, 0] ++ firstOne 432 1296 432) State.reset with rawlen := 17, value := 9 }
      (fun t => (t.value, t.used, t.status)) = some (9, 0, 0) ∧
    after (.extract true 65 2) State.reset (fun t => t.status) = some 0 ∧
    after (.extract true 8 2)
      (withRaw ([0, 0] ++ (List.replicate 7 [432, 432]).flatten ++ [432, 1296]) State.reset) (fun t => t.value) =
      some 0x80 := by decide +kernel

/-- V16, V18, V19. -/
theorem test_extract_word_set :
    after (.extract true 0 5) { State.reset with value := 7 } (fun t => (t.value, t.used, t.status)) = some (0, 0, 1) ∧
    after (.extract false 8 2) (withRaw ([0, 0] ++ firstOne 432 1296 432) State.reset) (fun t => t.status) = some 0 ∧
    after (.extract false 8 2)
      { withRaw ([0, 0] ++ firstOne 475 1425 475) State.reset with mtick := 475, stick := 475 }
      (fun t => (t.value, t.used, t.status)) = some (1, 16, 1) := by decide +kernel

/-! ### The word codec -/

/-- V21, V22, V23. -/
theorem test_wordEncode :
    after (.wordEncode 1 2 3) State.reset (fun t => (t.value, t.status)) = some (0x400401020300, 1) ∧
    after (.wordEncode 0x55 0x55 0x55) State.reset (fun t => t.value) = some 0x400455555555 ∧
    after (.wordEncode 0 0 0) { State.reset with mfr := 0 } (fun t => t.value) = some 0 := by decide

/-- V24, V25, V28. -/
theorem test_wordSend_plan :
    after (.wordSend 48 1) { State.reset with value := 0xFFFF400401020300 }
      (fun t => (t.planlen, [0, 1, 2, 3, 98, 99, 100, 199].map t.planEntry, t.status)) =
      some (200, [3456, 1728, 432, 432, 432, 111024, 3456, 111024], 1) ∧
    after (.wordSend 48 0) { State.reset with value := 0x400401020300 } (fun t => (t.planlen, t.planEntry 99)) =
      some (100, 111024) := by decide +kernel

/-- V26, V27, and R143's rule for a plan longer than PLAN_CAP. -/
theorem test_wordSend_limits :
    after (.wordSend 0 0) State.reset (fun t => (t.planlen, [0, 1, 2, 3].map t.planEntry)) =
      some (4, [3456, 1728, 432, 157680]) ∧
    after (.wordSend 65 0) { State.reset with planlen := 4 } (fun t => (t.planlen, t.status, t.plan)) = some (0, 0, []) ∧
    after (.wordSend 48 0) { State.reset with params := { defaultParams with planCap := 99 } }
      (fun t => (t.planlen, t.status, t.plan)) = some (0, 0, []) := by decide +kernel

/-- V29, V30, V31, V32 (E1, E2): the strict decode. -/
theorem test_wordDecode_strict :
    after (.wordDecode true 48) (withRaw wordPlan State.reset)
      (fun t => (t.address, t.command, t.value, t.proto, t.bits, t.status)) =
      some (0x4004, 0x01020300, 0x400401020300, 1, 48, 1) ∧
    after (.wordDecode true 48) { withRaw wordPlan State.reset with rawlen := 99 } (fun t => (t.address, t.status)) =
      some (0x4004, 1) ∧
    after (.wordDecode true 48) { withRaw wordPlan State.reset with rawlen := 98 } (fun t => (t.address, t.status)) =
      some (0, 0) ∧
    after (.wordDecode true 32) (withRaw wordPlan State.reset) (fun t => t.status) = some 0 ∧
    after (.wordDecode true 48) { withRaw wordPlan State.reset with mfr := 0x1234 } (fun t => (t.command, t.status)) =
      some (0, 0) := by decide +kernel

/-- V33, V34, V36, V37, V39: the lenient decode. -/
theorem test_wordDecode_lenient :
    after (.wordDecode false 32) (withRaw wordPlan State.reset) (fun t => t.status) = some 0 ∧
    [3749, 3750, 0].map (fun g => after (.wordDecode false 48) (withRaw (wordPlan.dropLast ++ [g]) State.reset)
      (fun t => t.status)) = [some 0, some 1, some 1] ∧
    after (.wordDecode true 48) (withRaw (wordPlan.map (fun d => (8 * d + 5) / 10)) State.reset)
      (fun t => (t.command, t.status)) = some (0x01020300, 1) ∧
    after (.wordDecode true 48) (withRaw (wordPlan.map (fun d => (13 * d + 5) / 10)) State.reset) (fun t => t.status) =
      some 0 ∧
    after (.wordDecode false 0) (withRaw [3456, 1728, 432] { State.reset with value := 5 })
      (fun t => (t.value, t.bits, t.status)) = some (0, 0, 1) := by decide +kernel

/-! ### The frame codec -/

/-- V56, V58: the plan of 27 bytes and of 16. -/
theorem test_frameSend_plan :
    after (.frameSend 27 0) (withDbuf templatePlus State.reset)
      (fun t => (t.planlen, [0, 1, 2, 3, 4, 5, 129, 130, 131, 132, 133, 134, 135, 437, 438, 439].map t.planEntry)) =
      some (440, [3456, 1728, 432, 432, 432, 1296, 432, 432, 10000, 3456, 1728, 432, 432, 1296, 432, 100000]) ∧
    after (.frameSend 16 0) (withDbuf templatePlus State.reset) (fun t => (t.planlen, t.status)) = some (264, 1) := by
  decide +kernel

/-- V59. -/
theorem test_frameSend_limits :
    after (.frameSend 15 0) { State.reset with planlen := 4 } (fun t => (t.planlen, t.status)) = some (0, 0) ∧
    after (.frameSend 28 0) { State.reset with planlen := 4 } (fun t => (t.planlen, t.status)) = some (0, 0) := by decide

/-- V43: a strict decode of 27 bytes. -/
theorem test_frameDecode_strict :
    after (.frameDecode true 216) (withRaw framePlan State.reset)
      (fun t => (t.dbufBytes 27, t.proto, t.bits, t.status)) = some (templatePlus, 2, 216, 1) := by decide +kernel

/-- V40, V41, V42, V46 (structural); V48 (lenient, no bytes asked); V55 (strict, 16 bytes). -/
theorem test_frameDecode_widths :
    [(false, 215), (true, 1), (false, 224), (true, 200)].map (fun x => after (.frameDecode x.1 x.2)
      (withRaw (List.replicate 500 432) (withDbuf [1] State.reset)) (fun t => (t.dbuf, t.status))) =
      [some ([(0, 1)], 0), some ([(0, 1)], 0), some ([(0, 1)], 0), some ([(0, 1)], 0)] ∧
    after (.frameDecode true 216) { withRaw framePlan State.reset with rawlen := 434 } (fun t => (t.dbuf, t.status)) =
      some ([], 0) ∧
    after (.frameDecode false 0) (withRaw (framePlan.take 135) (withDbuf (List.replicate 9 0x99) State.reset))
      (fun t => (t.dbufBytes 9, t.bits, t.status)) = some (acTemplate.toList.take 8 ++ [0x99], 64, 1) ∧
    after (.frameDecode true 128)
      (withRaw (frameSequence defaultParams (acTemplate.toList.take 15 ++ [0x06#8])) State.reset)
      (fun t => (t.dbufBytes 16, t.bits, t.status)) = some (acTemplate.toList.take 15 ++ [0x06#8], 128, 1) := by
  decide +kernel

/-! ### The validator -/

/-- V61, V63, V66. -/
theorem test_csumCalc :
    after (.csumCalc 27) (withDbuf acTemplate.toList State.reset) (fun t => (t.result, t.status)) = some (0xF5, 1) ∧
    after (.csumCalc 0) State.reset (fun t => t.result) = some 0xF4 ∧
    after (.csumCalc 1) State.reset (fun t => t.result) = some 0xF4 ∧
    after (.csumCalc 28) { State.reset with result := 9 } (fun t => (t.result, t.status)) = some (9, 0) := by decide

/-- V60, V62, V64, V65. -/
theorem test_csumValid :
    after (.csumValid 27) (withDbuf templatePlus State.reset) (fun t => t.status) = some 1 ∧
    after (.csumValid 27) (withDbuf acTemplate.toList State.reset) (fun t => t.status) = some 0 ∧
    after (.csumValid 1) (withDbuf [0xF4] State.reset) (fun t => t.status) = some 0 ∧
    after (.csumValid 2) (withDbuf [0x00, 0xF4] State.reset) (fun t => t.status) = some 1 := by decide

/-! ### The A/C register file -/

/-- V70. -/
theorem test_acReset :
    after .acReset { State.reset with ac := Vector.replicate 27 0xFF#8, tempCache := 20, swinghCache := 0x0A }
      (fun t => (t.ac, t.tempCache, t.swinghCache, t.status)) = some (acTemplate, 25, 0x06, 1) := by decide

/-- V71. -/
theorem test_acGetRaw :
    after .acGetRaw State.reset (fun t => (t.dbufBytes 27, t.acByte 26, t.status)) = some (templatePlus, 0xF5, 1) := by
  decide

/-- V74. -/
theorem test_acSetRaw :
    after .acSetRaw (withDbuf (templatePlus.set 17 0x06) { State.reset with tempCache := 20 })
      (fun t => (t.ac.toList, t.tempCache, (classify t.ac).code)) = some (templatePlus.set 17 0x06, 20, 2) := by decide

/-- V72, V73. -/
theorem test_acSend :
    after (.acSend 0) State.reset (fun t => (t.planlen, [5, 131, 437, 438, 439].map t.planEntry, t.acByte 26)) =
      some (440, [1296, 10000, 1296, 432, 100000], 0xF5) ∧
    after (.acSend 2) State.reset (fun t => (t.planlen, t.status)) = some (1320, 1) := by decide +kernel

/-- V75, with the power bit set before. -/
theorem test_acSetModel_bytes :
    [1, 2, 3, 4].map (fun m => after (.acSetModel m) (next .acOn State.reset)
      (fun t => ((classify t.ac).code, [13, 17, 23, 25].map t.acByte, checksum t.ac.toList))) =
      [some (1, [0x02, 0x06, 0x81, 0x00], 0xFD), some (2, [0x00, 0x06, 0x81, 0x00], 0xFB),
       some (3, [0x00, 0x06, 0x01, 0x06], 0x81), some (4, [0x00, 0x00, 0x81, 0x00], 0xF5)] := by decide

/-- V76. -/
theorem test_acSetModel_ignored :
    [0, 5].map (fun m => after (.acSetModel m) State.reset (fun t => (t.ac, t.status))) =
      [some (acTemplate, 3), some (acTemplate, 3)] := by decide

/-- V70, V77. -/
theorem test_acGetModel :
    after .acGetModel State.reset (fun t => t.result) = some 4 ∧
    after .acGetModel (next .acOn (next (.acSetModel 1) State.reset)) (fun t => (t.result, t.acByte 13)) =
      some (2, 0x03) := by decide

/-! ### The A/C accessors -/

/-- V80: AC_SET_POWER and AC_GET_POWER. -/
theorem test_acSetPower :
    after (.acSetPower true) State.reset (fun t => t.acByte 13) = some 0x01 ∧
    after (.acSetPower false) (next .acOn State.reset) (fun t => t.acByte 13) = some 0x00 := by decide

theorem test_acGetPower : after .acGetPower (next .acOn State.reset) (fun t => t.result) = some 1 := by decide

theorem test_acOn : after .acOn (State.reset.setAc 13 0x30) (fun t => t.acByte 13) = some 0x31 := by decide

/-- V81. -/
theorem test_acOff : after .acOff (State.reset.setAc 13 0x31) (fun t => t.acByte 13) = some 0x30 := by decide

/-- V82, V83. -/
theorem test_acSetTemp :
    after (.acSetTemp 40 true) State.reset (fun t => (t.acByte 14, t.tempCache)) = some (60, 30) ∧
    after (.acSetTemp 3 false) (next (.acSetTemp 40 true) State.reset) (fun t => (t.acByte 14, t.tempCache)) =
      some (32, 30) := by decide

theorem test_acGetTemp : after .acGetTemp (State.reset.setAc 14 55) (fun t => t.result) = some 27 := by decide

/-- V84, V85, V86, V87. -/
theorem test_acSetMode :
    after (.acSetMode 4) (next (.acSetTemp 22 false) State.reset) (fun t => (t.acByte 13, t.acByte 14)) =
      some (0x40, 50) ∧
    after (.acSetMode 6) State.reset (fun t => (t.acByte 13, t.acByte 14, t.tempCache)) = some (0x60, 54, 25) ∧
    after (.acSetMode 2) (next (.acSetMode 6) State.reset) (fun t => (t.acByte 13, t.acByte 14)) = some (0x20, 50) ∧
    after (.acSetMode 9) State.reset (fun t => (t.acByte 13, t.acByte 14, t.status)) = some (0, 0, 1) := by decide

theorem test_acGetMode : after .acGetMode (State.reset.setAc 13 0x6A) (fun t => t.result) = some 6 := by decide

/-- V88. -/
theorem test_acSetSwingV :
    [0, 3, 9, 0x0F, 0x13, 0x1F].map (fun e => after (.acSetSwingV e) (State.reset.setAc 16 0xA0)
      (fun t => t.acByte 16)) = [some 0xA1, some 0xA3, some 0xA5, some 0xAF, some 0xA5, some 0xA5] := by decide

/-- V89. -/
theorem test_acGetSwingV : after .acGetSwingV (State.reset.setAc 16 0xA5) (fun t => t.result) = some 5 := by decide

/-- V90, V91, V92, V93. -/
theorem test_acSetSwingH :
    after (.acSetSwingH 0x0A) State.reset (fun t => (t.acByte 17, t.swinghCache, t.status)) = some (0, 0x0A, 1) ∧
    after (.acSetSwingH 0x05) State.reset (fun t => (t.acByte 17, t.swinghCache, t.status)) = some (0, 0x06, 3) ∧
    after (.acSetSwingH 0x0B) (next (.acSetModel 2) State.reset) (fun t => (t.acByte 17, t.swinghCache)) =
      some (0x06, 0x0B) ∧
    after (.acSetSwingH 0x0C) (next (.acSetModel 3) State.reset) (fun t => (t.acByte 17, t.swinghCache)) =
      some (0x0C, 0x0C) := by decide

/-- V78: an UNKNOWN file caches the direction only. -/
theorem test_acSetSwingH_unknown :
    after (.acSetSwingH 0x0A) (State.reset.setAc 17 0x09) (fun t => (t.acByte 17, t.swinghCache, t.status)) =
      some (0x09, 0x0A, 1) := by decide

theorem test_acGetSwingH : after .acGetSwingH (State.reset.setAc 17 0x0C) (fun t => t.result) = some 0x0C := by decide

/-- V94, V95, V96. -/
theorem test_acSetFan :
    [0, 4, 7].map (fun n => after (.acSetFan n) State.reset (fun t => (t.acByte 16, t.status))) =
      [some (0x30, 1), some (0x70, 1), some (0xA0, 1)] ∧
    after (.acSetFan 5) (State.reset.setAc 16 0xA2) (fun t => (t.acByte 16, t.status)) = some (0xA2, 3) := by decide

/-- V94, V97. -/
theorem test_acGetFan :
    after .acGetFan (State.reset.setAc 16 0xA0) (fun t => t.result) = some 7 ∧
    after .acGetFan State.reset (fun t => t.result) = some 253 := by decide

/-- V99, V101. -/
theorem test_acSetQuiet :
    after (.acSetQuiet true) (State.reset.setAc 21 0x20) (fun t => t.acByte 21) = some 0x01 ∧
    after (.acSetQuiet false) (State.reset.setAc 21 0x20) (fun t => t.acByte 21) = some 0x20 := by decide

/-- V98, V99. -/
theorem test_acSetPowerful :
    after (.acSetPowerful true) (State.reset.setAc 21 0x01) (fun t => t.acByte 21) = some 0x20 ∧
    after (.acSetPowerful false) (State.reset.setAc 21 0x21) (fun t => t.acByte 21) = some 0x01 := by decide

/-- V100. -/
theorem test_acGetQuiet : after .acGetQuiet (State.reset.setAc 21 0x21) (fun t => t.result) = some 1 := by decide

/-- V100. -/
theorem test_acGetPowerful : after .acGetPowerful (State.reset.setAc 21 0x21) (fun t => t.result) = some 1 := by decide

/-! ### The step -/

/-- What `f` reads after one step. -/
def afterStep {α : Type} (s : State) (f : State → α) : Option α :=
  match step s with
  | .next t => some (f t)
  | .fault _ => none
  | .refused _ => none

/-- A word placed by withFetchWord runs as the first command after reset. -/
theorem test_step_runs_fetch_word :
    afterStep (State.reset.withFetchWord 32 0x44000003) (fun t => ((classify t.ac).code, t.pending)) =
      some (3, []) := by decide

/-- V110, V120: an illegal word, then a legal one. -/
theorem test_step_illegal :
    afterStep (withCmd 0x00000000) (fun t => (t.status, t.ac)) = some (0x04, acTemplate) ∧
    afterStep { withCmd 0x45000000 with status := 0x04 } (fun t => (t.status, t.result)) = some (0x05, 4) := by decide

/-- 20_memory.md R66: the halves of VALUE. -/
theorem test_host_value_halves :
    afterStep { State.reset with pending := [.write .valueHi 0x4004], value := 0x1_00000002 } (fun t => t.value) =
      some 0x4004_00000002 ∧
    hostRead .valueHi { State.reset with value := 0x1_00000002 } = some 1 := by decide

/-! ### Witnesses: concrete states and operands that meet each obligation's hypotheses -/

/-- Operands at the top of their fields. -/
theorem witness_DecodeOfEncodeIsTheCommand :
    (Instr.extract true 127 65535).wellFormed = true ∧ (Instr.wordSend 255 65535).wellFormed = true ∧
    (Instr.acSetTemp 255 true).wellFormed = true := by decide

theorem witness_EncodeOfDecodeIsTheWord :
    decode 0x02FFFFFF#32 = .ok (.extract true 127 65535) ∧ decode 0x568000FF#32 = .ok (.acSetTemp 255 true) := by decide

theorem witness_IllegalWordsAreUnusedOpcodesOrReservedBits :
    decode 0x03000000#32 = .error .unusedOpcode ∧ decode 0x01800000#32 = .error .reservedBits := by decide

theorem witness_StepRunsTheDecodedCommand :
    ((withCmd 0x61000000).pending = .write .cmd 0x61000000 :: [] ∧ 0x61000000 < 2 ^ 32 ∧
      decode (BitVec.ofNat 32 0x61000000) = .ok .acGetPowerful) ∧
    ({ State.reset with pending := [.read .status] }).pending = .read .status :: [] ∧ State.reset.pending = [] := by decide

theorem witness_IllegalWordOnlyWritesThreeStatusBits :
    0xFFFFFFFF < 2 ^ 32 ∧ decode (BitVec.ofNat 32 0xFFFFFFFF) = .error .unusedOpcode ∧
    decode (BitVec.ofNat 32 0x02000080) = .ok (.extract false 0 128) ∧
    decode (BitVec.ofNat 32 0x52000002) = .error .reservedBits := by decide

/-- Each clause at the ends of its range. -/
theorem witness_HostWritesReachOnlyTheirTarget :
    (0xFFFFFFFF < 2 ^ 32) ∧ (0xFFFF < 2 ^ 16 ∧ 0xFFFF ≤ State.reset.params.rawCap) ∧
    (0 < State.reset.params.rawCap ∧ 65534 < State.reset.params.rawCap) ∧ (26 < 27 ∧ 0xFF < 2 ^ 8) := by decide

/-- The last index below each capacity, and an admitted read. -/
theorem witness_HostReadsGiveTheirTargetWithoutSideEffect :
    65534 < State.reset.params.rawCap ∧ 26 < 27 ∧ 65534 < State.reset.params.planCap ∧
    hostRead .valueHi { State.reset with value := 0x500000003 } = some 5 ∧
    hostRead .valueLo { State.reset with value := 0x500000003 } = some 3 := by decide

/-- Each clause at the first index or value outside the table. -/
theorem witness_HostAccessOutsideTheTableIsRefused :
    State.reset.params.rawCap ≤ 65535 ∧ 27 ≤ 27 ∧ State.reset.params.planCap ≤ 65535 ∧
    State.reset.params.rawCap < 65536 ∧
    Port.planlen ∈ [Port.status, .proto, .bits, .address, .command, .mtick, .stick, .used, .result, .planlen,
      .tempCache, .swinghCache] := by decide

theorem witness_ResetLeavesTheSpecsValues : DefaultTiming State.reset.params := rfl

/-- A block reset, and a move that is none. -/
theorem witness_BlockResetGivesTheResetState :
    (∃ t, takeMove .blockReset State.reset = .next t) ∧
    ∃ t, takeMove (.read .status) State.reset = .next t ∧ HostMove.read .status ≠ .blockReset :=
  ⟨⟨_, rfl⟩, _, rfl, by decide⟩

theorem witness_StepKeepsTheBlockInvariant :
    State.reset.Inv ∧ ∃ t, step State.reset = .next t := by
  refine ⟨?_, _, rfl⟩
  unfold State.Inv
  decide

/-- A state with ILL set that takes a command, one without it where an illegal word raises it, and a block reset. -/
theorem witness_IllIsStickyUntilBlockReset :
    (∃ t, takeMove (.write .cmd 0x45000000) { State.reset with status := 0x04 } = .next t ∧
      ({ State.reset with status := 0x04 } : State).ill = true) ∧
    (∃ t, takeMove (.write .cmd 0) State.reset = .next t ∧ State.reset.ill = false ∧ t.ill = true) ∧
    (∃ t, takeMove .blockReset { State.reset with status := 0x04 } = .next t) ∧
    0 < 2 ^ 32 ∧ decode (BitVec.ofNat 32 0) = .error .unusedOpcode :=
  ⟨⟨_, rfl, by decide⟩, ⟨_, rfl, by decide, by decide⟩, ⟨_, rfl⟩, by decide, by decide⟩

theorem witness_CommandsNeverWriteRaw : exec .cal State.reset = .next (next .cal State.reset) := rfl

theorem witness_OnlyFrameDecodeAndGetRawWriteDbuf :
    exec .acSetRaw State.reset = .next (next .acSetRaw State.reset) ∧
    (∀ strict nbits, Instr.acSetRaw ≠ .frameDecode strict nbits) ∧ Instr.acSetRaw ≠ .acGetRaw :=
  ⟨rfl, fun _ _ h => Instr.noConfusion h, by decide⟩

theorem witness_OnlySendsWritePlan :
    exec .acGetRaw State.reset = .next (next .acGetRaw State.reset) ∧
    (∀ nbits reps, Instr.acGetRaw ≠ .wordSend nbits reps) ∧ (∀ nbytes reps, Instr.acGetRaw ≠ .frameSend nbytes reps) ∧
    ∀ reps, Instr.acGetRaw ≠ .acSend reps :=
  ⟨rfl, fun _ _ h => Instr.noConfusion h, fun _ _ h => Instr.noConfusion h, fun _ h => Instr.noConfusion h⟩

/-- One command that meets the premises of every clause at once. -/
theorem witness_ResultRegistersHaveOnlyTheirWriters :
    exec .acOn State.reset = .next (next .acOn State.reset) ∧ Instr.acOn ≠ .cal ∧
    (∀ x n o, Instr.acOn ≠ .extract x n o) ∧ (∀ b n, Instr.acOn ≠ .wordDecode b n) ∧
    (∀ b n, Instr.acOn ≠ .frameDecode b n) ∧ (∀ a b c, Instr.acOn ≠ .wordEncode a b c) ∧
    Instr.acOn ∉ [Instr.acGetPower, .acGetTemp, .acGetMode, .acGetSwingV, .acGetSwingH, .acGetFan, .acGetQuiet,
      .acGetPowerful, .acGetModel] ∧ ∀ n, Instr.acOn ≠ .csumCalc n :=
  ⟨rfl, by decide, fun _ _ _ h => Instr.noConfusion h, fun _ _ h => Instr.noConfusion h,
    fun _ _ h => Instr.noConfusion h, fun _ _ _ h => Instr.noConfusion h, by decide, fun _ h => Instr.noConfusion h⟩

theorem witness_AcFileHasOnlyItsWriters :
    exec .cal State.reset = .next (next .cal State.reset) ∧ Instr.cal.mnemonic = "CAL" ∧
    Instr.cal ∉ [Instr.acReset, .acSetRaw, .acGetRaw] ∧ (∀ reps, Instr.cal ≠ .acSend reps) ∧
    (∀ x b, Instr.cal ≠ .acSetTemp x b) ∧ (∀ d, Instr.cal ≠ .acSetMode d) ∧ (∀ d, Instr.cal ≠ .acSetSwingH d) ∧
    ∀ m, Instr.cal ≠ .acSetModel m :=
  ⟨rfl, rfl, by decide, fun _ h => Instr.noConfusion h, fun _ _ h => Instr.noConfusion h,
    fun _ h => Instr.noConfusion h, fun _ h => Instr.noConfusion h, fun _ h => Instr.noConfusion h⟩

/-- A setter that ignores and one that does not. -/
theorem witness_IgnIsSetExactlyByIgnoringSetters :
    (exec (.acSetFan 5) State.reset = .next (next (.acSetFan 5) State.reset) ∧
      (next (.acSetFan 5) State.reset).ign = true) ∧
    exec (.acSetFan 7) State.reset = .next (next (.acSetFan 7) State.reset) ∧
      (next (.acSetFan 7) State.reset).ign = false := by
  refine ⟨⟨rfl, by decide⟩, rfl, by decide⟩

/-- The two excess clauses meet where the excess equals the duration; a pair of each template. -/
theorem witness_MatchPrimitivesAreTheToleranceWindows :
    (50 ≤ 50 ∧ 0 < 1) ∧ pairBit (frameTemplate defaultParams) (some 432) (some 1296) = some true ∧
    pairBit (frameTemplate defaultParams) (some 432) (some 432) = some false := by decide

theorem witness_TemplateSetsAndTheirDefaultWindows : DefaultTiming State.reset.params := rfl

theorem witness_CalDerivesTicksFromTheHeader :
    2 ≤ (withRaw [3456, 1728] State.reset).rawlen.toNat ∧ (withRaw [3456] State.reset).rawlen.toNat < 2 := by decide

/-- 64 pairs, all zeros; and no pair at all. -/
theorem witness_ExtractPutsEachPairsBitInItsPlace :
    (∀ k, k < 64 →
      pairBit (selectTemplate true (withRaw (List.replicate 128 432) State.reset))
        ((withRaw (List.replicate 128 432) State.reset).sample (0 + 2 * k))
        ((withRaw (List.replicate 128 432) State.reset).sample (0 + 2 * k + 1)) = some ((fun _ => false) k)) ∧
    (∀ k, k < 0 → pairBit (selectTemplate true State.reset) (State.reset.sample (0 + 2 * k))
      (State.reset.sample (0 + 2 * k + 1)) = some ((fun _ => false) k)) := by
  exact ⟨by decide +kernel, fun k hk => absurd hk (Nat.not_lt_zero k)⟩

/-- Too wide; a pair that matches neither template; a pair past RAWLEN. -/
theorem witness_ExtractFailsWithoutEffect :
    64 < 65 ∧
    pairBit (selectTemplate true (withRaw [1, 1] State.reset)) ((withRaw [1, 1] State.reset).sample (0 + 2 * 0))
      ((withRaw [1, 1] State.reset).sample (0 + 2 * 0 + 1)) = none ∧
    (withRaw [432] State.reset).rawlen.toNat ≤ 0 + 2 * 0 + 1 := by decide

theorem witness_WordSendWritesRepeatedWordFrames :
    State.reset.params.wf ∧ 64 ≤ 64 ∧ (2 * 64 + 4) * (3 + 1) ≤ State.reset.params.planCap ∧
    (2 * 64 + 4) * (3 + 1) < 2 ^ 16 := by decide

/-- Each clause just past its limit. -/
theorem witness_SendThatDoesNotFitWritesNoPlan :
    64 < 65 ∧ State.reset.params.planCap < (2 * 48 + 4) * (655 + 1) ∧ 15 < 16 ∧ 27 < 28 ∧
    State.reset.params.planCap < (16 * 27 + 8) * (148 + 1) ∧ State.reset.params.planCap < 440 * (148 + 1) := by decide

/-- A decode that succeeds and one that fails, as a function of RAW. -/
theorem witness_WordDecodeWritesAllFieldsOrNone :
    wordDecode (withRaw wordPlan State.reset) true 48 = .ok 0x400401020300#64 ∧
    wordDecode (withRaw [3456, 1728] State.reset) false 0 = .error .structural := by decide +kernel

/-- A message of width 1 without its gap, and the empty message with its gap, which decodes. -/
theorem witness_LenientWordDecodeAcceptsExactlyMatchingMessages :
    WordMatches (withRaw [3456, 1728, 432, 1296, 432] State.reset) 1 (fun _ => true) ∧
    WordMatches (withRaw [3456, 1728, 432, 5000] State.reset) 0 (fun _ => true) ∧
    ∃ t, exec (.wordDecode false 0) (withRaw [3456, 1728, 432, 5000] State.reset) = .next t ∧ t.ok = true := by
  refine ⟨?_, ?_, _, rfl, by decide⟩ <;> unfold WordMatches <;> decide

theorem witness_StrictWordDecodeAddsItsChecks :
    wordDecode (withRaw wordPlan State.reset) true 48 = .ok 0x400401020300#64 ∧
    wordDecode (withRaw wordPlan State.reset) false 48 = .ok 0x400401020300#64 := by decide +kernel

/-- The states of R147's round trip with device 1, subdevice 2, function 3 and no repeat: sender and receiver. -/
def roundTripSent : State := next (.wordSend 48 0) (next (.wordEncode 1 2 3) State.reset)

def roundTripReceiver : State := withRaw wordPlan State.reset

theorem witness_WordRoundTripRecoversTheFields :
    DefaultTiming State.reset.params ∧ 100 * (0 + 1) ≤ State.reset.params.planCap ∧
    exec (.wordEncode 1 2 3) State.reset = .next (next (.wordEncode 1 2 3) State.reset) ∧
    exec (.wordSend 48 0) (next (.wordEncode 1 2 3) State.reset) = .next roundTripSent ∧
    DefaultTiming roundTripReceiver.params ∧ roundTripReceiver.mfr = State.reset.mfr ∧
    99 ≤ roundTripReceiver.rawlen.toNat ∧ roundTripReceiver.rawlen.toNat ≤ 100 * (0 + 1) ∧
    ∀ i, i < roundTripReceiver.rawlen.toNat → roundTripReceiver.rawEntry i = roundTripSent.planEntry i := by
  refine ⟨rfl, by decide, rfl, rfl, rfl, rfl, by decide +kernel, by decide +kernel, by decide +kernel⟩

theorem witness_FrameSendWritesRepeatedFrames :
    State.reset.params.wf ∧ 16 ≤ 16 ∧ 27 ≤ 27 ∧ (16 * 27 + 8) * (147 + 1) ≤ State.reset.params.planCap ∧
    (16 * 27 + 8) * (147 + 1) < 2 ^ 16 := by decide

/-- Each disjunct at its first failing value. -/
theorem witness_FrameDecodeFailsStructurallyFirst :
    217 % 8 ≠ 0 ∧ (true = true ∧ 208 ≠ 216 ∧ 208 ≠ 128) ∧ 27 < 224 / 8 ∧
    (withRaw [3456, 1728] State.reset).rawlen.toNat < 2 * 0 + 3 := by decide

/-- A timing failure. -/
theorem witness_FailedFrameDecodeDrawsTheLowBytes :
    frameDecode (withRaw [1, 1, 1] State.reset) false 0 = .error .timing ∧ FailKind.timing ≠ .structural := by
  decide +kernel

/-- A lenient success with 8 bytes. -/
theorem witness_FrameDecodeSuccessKeepsTheHighBytesAndStrictAddsItsChecks :
    ∃ c, frameDecode (withRaw (framePlan.take 135) State.reset) false 0 = .ok c ∧ c.count = 8 := by
  cases h : frameDecode (withRaw (framePlan.take 135) State.reset) false 0 with
  | ok c =>
    refine ⟨c, rfl, ?_⟩
    have e : (match frameDecode (withRaw (framePlan.take 135) State.reset) false 0 with
      | .ok c => c.count | .error _ => 0) = 8 := by decide +kernel
    rw [h] at e
    exact e
  | error k =>
    have e : (match frameDecode (withRaw (framePlan.take 135) State.reset) false 0 with
      | .ok _ => true | .error _ => false) = true := by decide +kernel
    rw [h] at e
    cases e

/-- A strict success, which meets the strict clause's right side. -/
theorem witness_FrameDecodeSuccessKeepsTheHighBytesAndStrictAddsItsChecks_strict :
    (match frameDecode (withRaw framePlan State.reset) true 216 with
      | .ok c => decide (c.count = 27) | .error _ => false) = true := by decide +kernel

/-- A receiver whose RAW is the plan of these bytes. -/
def frameReceiver (bs : List Byte) : State := withRaw (frameSequence defaultParams bs) State.reset

/-- RAW of a receiver, entry by entry. -/
theorem rawEntry_frameReceiver (bs : List Byte) (i x : Nat) (h : (frameSequence defaultParams bs)[i]? = some x)
    (hlt : x < 2 ^ 32) : ((frameReceiver bs).rawEntry i).toNat = x := by
  simp only [frameReceiver, withRaw, State.rawEntry, Memory.stored_indexed]
  simp [h]
  omega

/-- The layout premise holds of any frame of 8 bytes or more. -/
theorem frameLayout_frameReceiver (bs : List Byte) (b : Nat → Byte) (hn : 8 ≤ bs.length)
    (hb : ∀ k, (h : k < bs.length) → bs[k] = b k) :
    FrameLayout (frameReceiver bs).params b bs.length (fun i => ((frameReceiver bs).rawEntry i).toNat) :=
  frameLayout_of_frameSequence (show defaultParams.wf by decide) hn hb (rawEntry_frameReceiver bs)

/-- A receiver of a frame of no byte at all, whose sections are only headers and footers. -/
def emptyFrame : State := withRaw [3456, 1728, 432, 10000, 3456, 1728, 432] State.reset

/-- A receiver of 8 bytes and the message gap, section 2 empty. -/
def shortFrame : State := frameReceiver (List.replicate 8 0x5A)

/-- The two receivers, with m = n = 0 and m = n = 8. -/
theorem witness_LenientFrameDecodeAcceptsExactlyMatchingFrames :
    (0 % 8 = 0 ∧ 0 ≤ 216 ∧ 2 * 0 + 3 ≤ emptyFrame.rawlen.toNat ∧ 0 = min 8 ((emptyFrame.rawlen.toNat - 2) / 16) ∧
      0 = max 0 (min (0 / 8) (0 + (emptyFrame.rawlen.toNat - (16 * 0 + 6)) / 16)) ∧
      FrameMatches emptyFrame (fun _ => 0) 0 0 ∧
      ∃ t, exec (.frameDecode false 0) emptyFrame = .next t ∧ t.ok = true) ∧
    64 % 8 = 0 ∧ 64 ≤ 216 ∧ 2 * 64 + 3 ≤ shortFrame.rawlen.toNat ∧ 8 = min 8 ((shortFrame.rawlen.toNat - 2) / 16) ∧
    8 = max 8 (min (64 / 8) (8 + (shortFrame.rawlen.toNat - (16 * 8 + 6)) / 16)) ∧
    FrameMatches shortFrame (fun _ => 0x5A) 8 8 := by
  refine ⟨⟨by decide, by decide, by decide, by decide, by decide, ?_, _, rfl, by decide⟩,
    by decide, by decide, by decide +kernel, by decide +kernel, by decide +kernel, ?_⟩
  · refine ⟨?_, fun k hk => by omega, by decide, by decide, by decide, by decide⟩
    rintro off (rfl | rfl) <;> decide
  · refine ⟨?_, ?_, by decide +kernel, by decide +kernel, by decide +kernel, by decide +kernel⟩
    · rintro off (rfl | rfl) <;> decide +kernel
    · have h : ∀ k, k < 8 → ∀ j, j < 8 →
          pairBit (frameTemplate defaultParams)
            (shortFrame.sample ((if k < 8 then 2 else 6) + 16 * k + 2 * j))
            (shortFrame.sample ((if k < 8 then 2 else 6) + 16 * k + 2 * j + 1)) =
          some ((0x5A#8).getLsbD j) := by decide +kernel
      rintro k hk j hj off rfl
      exact h k hk j hj

theorem witness_StrictDecodeOfANominalFrameSucceedsExactlyWhenCompliant :
    DefaultTiming (frameReceiver templatePlus).params ∧ (27 = 27 ∨ 27 = 16) ∧
    (frameReceiver templatePlus).rawlen.toNat = 16 * 27 + 8 ∧
    FrameLayout (frameReceiver templatePlus).params (fun k => templatePlus[k]?.getD 0) 27
      (fun i => ((frameReceiver templatePlus).rawEntry i).toNat) := by
  refine ⟨rfl, by decide, by decide +kernel, ?_⟩
  exact frameLayout_frameReceiver templatePlus (fun k => templatePlus[k]?.getD 0) (by decide)
    (by intro k h; simp [h])

/-- TEMPLATE⁺ as it stands (E3's sender). -/
theorem witness_OneChangedByteFailsOnlyTheStrictDecode_unchanged :
    let u := frameReceiver templatePlus
    DefaultTiming u.params ∧ u.rawlen.toNat = 440 ∧
      FrameLayout u.params (fun k => templatePlus[k]?.getD 0) 27 (fun i => (u.rawEntry i).toNat) :=
  ⟨rfl, witness_StrictDecodeOfANominalFrameSucceedsExactlyWhenCompliant.2.2.1,
    witness_StrictDecodeOfANominalFrameSucceedsExactlyWhenCompliant.2.2.2⟩

/-- TEMPLATE⁺ with byte 4 changed from 0x00 to 0x01 (E3). -/
theorem witness_OneChangedByteFailsOnlyTheStrictDecode :
    let u := frameReceiver (templatePlus.set 4 0x01)
    let b : Nat → Byte := fun k => templatePlus[k]?.getD 0
    DefaultTiming u.params ∧ u.rawlen.toNat = 440 ∧ b 0 = 0x02#8 ∧ b 1 = 0x20#8 ∧ b 8 = 0x02#8 ∧ b 9 = 0x20#8 ∧
      (b 26).toNat = checksumNat b 27 ∧ 4 < 26 ∧ 0x01#8 ≠ b 4 ∧
      FrameLayout u.params (fun i => if i = 4 then 0x01#8 else b i) 27 (fun i => (u.rawEntry i).toNat) := by
  refine ⟨rfl, by decide +kernel, by decide, by decide, by decide, by decide, by decide, by decide, by decide, ?_⟩
  refine frameLayout_frameReceiver (templatePlus.set 4 0x01) _ (by decide) ?_
  intro k h
  by_cases hk : k = 4
  · subst hk; rfl
  · have h' : k < templatePlus.length := by simpa using h
    rw [List.getElem_set_ne (Ne.symm hk)]
    simp [hk, h']

theorem witness_CsumCalcSumsAllButTheLastByte : 27 ≤ 27 ∧ 27 < 28 := by decide

/-- A valid buffer at both ends of the length range. -/
theorem witness_CsumValidChecksTheLastByte :
    (2 ≤ 27 ∧ 27 ≤ 27 ∧ ((withDbuf templatePlus State.reset).dbufByte (27 - 1)).toNat =
      checksumNat (withDbuf templatePlus State.reset).dbufByte 27) ∧
    (2 ≤ 2 ∧ 2 ≤ 27 ∧ ((withDbuf [0x00, 0xF4] State.reset).dbufByte (2 - 1)).toNat =
      checksumNat (withDbuf [0x00, 0xF4] State.reset).dbufByte 2) ∧
    ¬(2 ≤ 1 ∧ 1 ≤ 27 ∧ ((withDbuf [0x00, 0xF4] State.reset).dbufByte (1 - 1)).toNat =
      checksumNat (withDbuf [0x00, 0xF4] State.reset).dbufByte 1) := by decide

theorem witness_AcGetRawFixesTheChecksumAndCopies :
    ∀ i : Fin 27, (fun k => acTemplate.toList[k]?.getD 0) i.val = State.reset.acByte i := by decide

theorem witness_AcSendFixesTheChecksumAndWritesThePlan :
    State.reset.params.wf ∧ 440 * (147 + 1) ≤ State.reset.params.planCap ∧ 440 * (147 + 1) < 2 ^ 16 := by decide

/-- Each signature at a state that has it. -/
theorem witness_AcGetModelTakesTheFirstSignature :
    [State.reset, next (.acSetModel 1) State.reset, next (.acSetModel 2) State.reset, next (.acSetModel 3) State.reset,
      State.reset.setAc 17 0x09].map (fun s => (s.acByte 17, s.acByte 23, (s.acByte 13).toNat % 16)) =
      [(0x00, 0x81, 0), (0x06, 0x81, 2), (0x06, 0x81, 0), (0x06, 0x01, 0), (0x09, 0x81, 0)] := by decide

theorem witness_AcSetModelWritesTheVariantBytes :
    (4#8 ∈ [1#8, 2#8, 3#8, 4#8] ∧ 1#8 ∈ [1#8, 2#8, 3#8, 4#8]) ∧ swinghCodes.contains State.reset.swinghCache = true := by
  decide

/-- Two different files that agree on the variant bytes, an LKE file, and a setter that runs. -/
theorem witness_OnlyVariantBytesMoveTheClassification :
    (acTemplate[13].toNat % 16 = (acTemplate.set 13 0x60)[13].toNat % 16 ∧
      acTemplate[17] = (acTemplate.set 13 0x60)[17] ∧ acTemplate[23] = (acTemplate.set 13 0x60)[23]) ∧
    (classify (next (.acSetModel 1) State.reset).ac = .lke ∧ (next (.acSetModel 1) State.reset).acByte 23 ≠ 0x01#8) ∧
    exec (.acSetMode 3) State.reset = .next (next (.acSetMode 3) State.reset) ∧
    (Instr.acSetMode 3).mnemonic = "AC_SET_MODE" := ⟨by decide, by decide, rfl, rfl⟩

theorem witness_PowerCommandsMoveOneBit : Instr.acOn = .acOn ∧ true = true := by decide

/-- A recognised mode, the fan mode and an unrecognised one. -/
theorem witness_ModeCommandsFollowTheFanRule :
    4#8 ∈ [0#8, 2#8, 3#8, 4#8] ∧ 6#8 = 6#8 ∧ 9#8 ∉ [0#8, 2#8, 3#8, 4#8, 6#8] := by decide

theorem witness_SwingHCommandsFollowTheCapabilityTable :
    0x0D#8 ∈ [0x0D#8, 0x06#8, 0x09#8, 0x0A#8, 0x0B#8, 0x0C#8] ∧
    0x08#8 ∉ [0x0D#8, 0x06#8, 0x09#8, 0x0A#8, 0x0B#8, 0x0C#8] := by decide

theorem witness_FanCommandsOffsetAndIgnore : (4 ≤ 4 ∨ 4 = 7) ∧ (7 ≤ 4 ∨ 7 = 7) ∧ (4 < 5 ∧ 5 ≠ 7) := by decide

/-- AC_SET_RAW loads both bits from a state that has neither. -/
theorem witness_OnlySetRawLoadsQuietAndPowerfulTogether :
    ∃ t, takeMove (.write .cmd 0x42000000) (withDbuf (templatePlus.set 21 0x21) State.reset) = .next t ∧
      ¬((State.reset.acByte 21).getLsbD 0 = true ∧ (State.reset.acByte 21).getLsbD 5 = true) ∧
      (t.acByte 21).getLsbD 0 = true ∧ (t.acByte 21).getLsbD 5 = true :=
  ⟨_, rfl, by decide, by decide, by decide⟩

theorem witness_FanThenCoolRestoresTheTemperature :
    16 ≤ ({ State.reset with tempCache := 16 } : State).tempCache.toNat ∧
    ({ State.reset with tempCache := 30 } : State).tempCache.toNat ≤ 30 ∧
    16 ≤ State.reset.tempCache.toNat ∧ State.reset.tempCache.toNat ≤ 30 := by decide

/-- The reset file is JKE; a run of two other commands lies between. -/
theorem witness_SwingDirectionSurvivesUntilDke :
    classify State.reset.ac = .jke ∧ 0x0A#8 ∈ [0x0D#8, 0x06#8, 0x09#8, 0x0A#8, 0x0B#8, 0x0C#8] ∧
    (∀ i ∈ [Instr.acOn, .acSetSwingH 0x05], i ≠ .acReset ∧ ∀ d', i = .acSetSwingH d' →
      d' ∉ [0x0D#8, 0x06#8, 0x09#8, 0x0A#8, 0x0B#8, 0x0C#8]) ∧
    ∃ u, runCommands [.acOn, .acSetSwingH 0x05] (next (.acSetSwingH 0x0A) State.reset) = .next u := by
  refine ⟨by decide, by decide, ?_, _, rfl⟩
  intro i hi
  simp only [List.mem_cons, List.not_mem_nil, or_false] at hi
  rcases hi with rfl | rfl
  · exact ⟨by decide, fun d' h => Instr.noConfusion h⟩
  · refine ⟨by decide, fun d' h => ?_⟩
    cases h
    decide

end Sys2Proof.Tests
end

section
/-! PROOFS. What every command and every host move does to the state outside the A/C accessors' own meaning
(10_state.md): who writes a register or a memory, how a command ends, what the invariant of Safety.lean needs. -/

namespace Sys2Proof.Machine

/-! ### Who writes a register -/

/-- A register that `writtenRegs` does not list keeps its value. -/
theorem exec_reg {i : Instr} {s t : State} (h : exec i s = .next t) {r : Reg} (hr : r ∉ writtenRegs i) :
    t.reg r = s.reg r := by
  obtain ⟨⟨hregs, -⟩, -⟩ := exec_frame h
  exact hregs r hr

theorem mtick_mem_writtenRegs {i : Instr} : .mtick ∈ writtenRegs i ↔ i = .cal := by
  cases i <;> simp [writtenRegs]

theorem stick_mem_writtenRegs {i : Instr} : .stick ∈ writtenRegs i ↔ i = .cal := by
  cases i <;> simp [writtenRegs]

theorem used_mem_writtenRegs {i : Instr} : .used ∈ writtenRegs i ↔ ∃ x n o, i = .extract x n o := by
  cases i <;> simp [writtenRegs]

theorem address_mem_writtenRegs {i : Instr} : .address ∈ writtenRegs i ↔ ∃ b n, i = .wordDecode b n := by
  cases i <;> simp [writtenRegs]

theorem command_mem_writtenRegs {i : Instr} : .command ∈ writtenRegs i ↔ ∃ b n, i = .wordDecode b n := by
  cases i <;> simp [writtenRegs]

theorem proto_mem_writtenRegs {i : Instr} :
    .proto ∈ writtenRegs i ↔ (∃ b n, i = .wordDecode b n) ∨ ∃ b n, i = .frameDecode b n := by
  cases i <;> simp [writtenRegs]

theorem bits_mem_writtenRegs {i : Instr} :
    .bits ∈ writtenRegs i ↔ (∃ b n, i = .wordDecode b n) ∨ ∃ b n, i = .frameDecode b n := by
  cases i <;> simp [writtenRegs]

theorem value_mem_writtenRegs {i : Instr} :
    .value ∈ writtenRegs i ↔
      (∃ x n o, i = .extract x n o) ∨ (∃ a b c, i = .wordEncode a b c) ∨ ∃ b n, i = .wordDecode b n := by
  cases i <;> simp [writtenRegs]

theorem result_mem_writtenRegs {i : Instr} :
    .result ∈ writtenRegs i ↔
      i ∈ [.acGetPower, .acGetTemp, .acGetMode, .acGetSwingV, .acGetSwingH, .acGetFan, .acGetQuiet,
        .acGetPowerful, .acGetModel] ∨ ∃ n, i = .csumCalc n := by
  cases i <;> simp [writtenRegs]

theorem planlen_mem_writtenRegs {i : Instr} :
    .planlen ∈ writtenRegs i ↔
      (∃ n r, i = .wordSend n r) ∨ (∃ n r, i = .frameSend n r) ∨ ∃ r, i = .acSend r := by
  cases i <;> simp [writtenRegs]

theorem tempCache_mem_writtenRegs {i : Instr} :
    .tempCache ∈ writtenRegs i ↔ i = .acReset ∨ (∃ m, i = .acSetMode m) ∨ ∃ x b, i = .acSetTemp x b := by
  cases i <;> simp [writtenRegs]

theorem swinghCache_mem_writtenRegs {i : Instr} :
    .swinghCache ∈ writtenRegs i ↔ i = .acReset ∨ ∃ d, i = .acSetSwingH d := by
  cases i <;> simp [writtenRegs]

/-! ### Who writes DBUF and PLAN -/

/-- The commands that may write DBUF (20_memory.md R78). -/
def writesDbuf : Instr → Bool
  | .frameDecode _ _ => true
  | .acGetRaw => true
  | _ => false

/-- The commands that may write PLAN (20_memory.md R79). -/
def writesPlan : Instr → Bool
  | .wordSend _ _ => true
  | .frameSend _ _ => true
  | .acSend _ => true
  | _ => false

theorem exec_dbuf_plan {i : Instr} {s t : State} (h : exec i s = .next t) :
    (writesDbuf i = false → t.dbuf = s.dbuf) ∧ (writesPlan i = false → t.plan = s.plan) := by
  have both {rs bs} (f : KeepsBut rs bs s t ∧ Ended s t ∧ Untouched s t ∧ t.dbuf = s.dbuf ∧ t.plan = s.plan) :
      (writesDbuf i = false → t.dbuf = s.dbuf) ∧ (writesPlan i = false → t.plan = s.plan) := by
    obtain ⟨-, -, -, hdbuf, hplan⟩ := f
    exact ⟨fun _ => hdbuf, fun _ => hplan⟩
  cases i
  case frameDecode =>
    obtain ⟨-, -, -, hplan⟩ := frame_frameDecode _ _ h
    exact ⟨nofun, fun _ => hplan⟩
  case acGetRaw =>
    obtain ⟨-, -, -, hplan⟩ := frame_acGetRaw h
    exact ⟨nofun, fun _ => hplan⟩
  case wordSend =>
    obtain ⟨-, -, -, hdbuf⟩ := frame_wordSend _ _ h
    exact ⟨fun _ => hdbuf, nofun⟩
  case frameSend =>
    obtain ⟨-, -, -, hdbuf⟩ := frame_frameSend _ _ h
    exact ⟨fun _ => hdbuf, nofun⟩
  case acSend =>
    obtain ⟨-, -, -, hdbuf⟩ := frame_acSend _ h
    exact ⟨fun _ => hdbuf, nofun⟩
  case cal => exact both (frame_cal h)
  case extract => exact both (frame_extract _ _ _ h)
  case wordEncode => exact both (frame_wordEncode _ _ _ h)
  case wordDecode => exact both (frame_wordDecode _ _ h)
  case csumCalc => exact both (frame_csumCalc _ h)
  case csumValid => exact both (frame_csumValid _ h)
  case acReset => exact both (frame_acReset h)
  case acSetRaw => exact both (frame_acSetRaw h)
  case acSetModel => exact both (frame_acSetModel _ h)
  case acGetModel => exact both (frame_acGetModel h)
  case acOn => exact both (frame_acOn h)
  case acOff => exact both (frame_acOff h)
  case acSetPower => exact both (frame_acSetPower _ h)
  case acGetPower => exact both (frame_acGetPower h)
  case acSetMode => exact both (frame_acSetMode _ h)
  case acGetMode => exact both (frame_acGetMode h)
  case acSetTemp => exact both (frame_acSetTemp _ _ h)
  case acGetTemp => exact both (frame_acGetTemp h)
  case acSetSwingV => exact both (frame_acSetSwingV _ h)
  case acGetSwingV => exact both (frame_acGetSwingV h)
  case acSetSwingH => exact both (frame_acSetSwingH _ h)
  case acGetSwingH => exact both (frame_acGetSwingH h)
  case acSetFan => exact both (frame_acSetFan _ h)
  case acGetFan => exact both (frame_acGetFan h)
  case acSetQuiet => exact both (frame_acSetQuiet _ h)
  case acGetQuiet => exact both (frame_acGetQuiet h)
  case acSetPowerful => exact both (frame_acSetPowerful _ h)
  case acGetPowerful => exact both (frame_acGetPowerful h)

/-! ### The sends -/

theorem even_length_wordFrame (p : Config.Params) (v : BitVec 64) (n : Nat) :
    (wordFrame p v n).length % 2 = 0 := by
  rw [length_wordFrame]
  omega

theorem even_length_frameSequence (p : Config.Params) (bs : List Byte) :
    (frameSequence p bs).length % 2 = 0 := by
  rw [length_frameSequence]
  omega

/-- A send fails before it builds its plan, or writes a plan of frames of even length, AC_SEND after the checksum
fix-up (41_word_codec.md R143, 42_frame_codec.md R161, 44_ac_register_file.md R195). -/
theorem exec_send_cases {i : Instr} {s t : State} (h : exec i s = .next t) (hw : writesPlan i = true) :
    t = failSend s ∨ ∃ frame r u, frame.length % 2 = 0 ∧ (u = s ∨ u = fixChecksum s) ∧ t = writePlan frame r u := by
  cases i <;> simp only [writesPlan, Bool.false_eq_true] at hw
  case wordSend n r =>
    simp only [exec, execWordSend] at h
    split at h <;> cases h
    · exact .inl rfl
    · exact .inr ⟨_, r, s, even_length_wordFrame _ _ _, .inl rfl, rfl⟩
  case frameSend n r =>
    simp only [exec, execFrameSend] at h
    split at h <;> cases h
    · exact .inl rfl
    · exact .inr ⟨_, r, s, even_length_frameSequence _ _, .inl rfl, rfl⟩
  case acSend r =>
    cases h
    exact .inr ⟨_, r, fixChecksum s, even_length_frameSequence _ _, .inr rfl, rfl⟩

/-! ### How a command ends -/

/-- The setters' inputs that are ignored (10_state.md R35): a variant code, a direction or a speed outside the accepted
set. -/
def ignores : Instr → Bool
  | .acSetModel m => !decide (m ∈ [1#8, 2#8, 3#8, 4#8])
  | .acSetSwingH d => !swinghCodes.contains d
  | .acSetFan n => decide (4 < n ∧ n ≠ 7)
  | _ => false

theorem ignores_iff {i : Instr} :
    ignores i = true ↔
      (∃ m, i = .acSetModel m ∧ m ∉ [1#8, 2#8, 3#8, 4#8]) ∨
      (∃ d, i = .acSetSwingH d ∧ d ∉ [0x0D#8, 0x06#8, 0x09#8, 0x0A#8, 0x0B#8, 0x0C#8]) ∨
      (∃ n, i = .acSetFan n ∧ 4 < n ∧ n ≠ 7) := by
  cases i <;> simp [ignores, swinghCodes]

/-- `t` is the end of a command with IGN 0 (00_scope.md R18). -/
def EndsPlainly (t : State) : Prop := ∃ ok u, t = writeOutcome ok false u

theorem endsPlainly_writeOutcome (ok : Bool) (u : State) : EndsPlainly (writeOutcome ok false u) := ⟨ok, u, rfl⟩

theorem endsPlainly_writePlan (frame : List Nat) (r : Nat) (s : State) : EndsPlainly (writePlan frame r s) := by
  rcases writePlan_cases frame r s with ⟨-, e⟩ | ⟨-, e⟩ <;> rw [e] <;> exact endsPlainly_writeOutcome _ _

/-- AC_SET_MODEL ignores a code of no variant, and ends plainly after the four variants' (44_ac_register_file.md
R198). -/
theorem execAcSetModel_ending (m : Byte) (s : State) :
    (m ∉ [1#8, 2#8, 3#8, 4#8] ∧ execAcSetModel m s = .next (ignore s)) ∨
    (m ∈ [1#8, 2#8, 3#8, 4#8] ∧ ∃ u, execAcSetModel m s = .next (succeed u)) := by
  by_cases hm : m ∈ [1#8, 2#8, 3#8, 4#8]
  · refine .inr ⟨hm, ?_⟩
    simp only [List.mem_cons, List.not_mem_nil, or_false] at hm
    rcases hm with rfl | rfl | rfl | rfl
    · exact ⟨setLke (clearVariant s), rfl⟩
    · exact ⟨setNke (clearVariant s), rfl⟩
    · exact ⟨setDke (clearVariant s), rfl⟩
    · exact ⟨clearVariant s, rfl⟩
  · refine .inl ⟨hm, ?_⟩
    simp only [List.mem_cons, List.not_mem_nil, or_false, not_or] at hm
    simp [execAcSetModel, Variant.code, hm]

/-- A command ignores its input and writes nothing but STATUS, or ends with IGN 0. -/
theorem exec_ending {i : Instr} {s t : State} (h : exec i s = .next t) :
    (ignores i = true ∧ t = ignore s) ∨ (ignores i = false ∧ EndsPlainly t) := by
  cases i
  case acSetModel m =>
    rcases execAcSetModel_ending m s with ⟨hm, e⟩ | ⟨hm, u, e⟩ <;> cases e.symm.trans h
    · exact .inl ⟨by simp [ignores, hm], rfl⟩
    · exact .inr ⟨by simp [ignores, hm], endsPlainly_writeOutcome true u⟩
  case acSetSwingH d =>
    simp only [exec, execAcSetSwingH] at h
    rcases setSwingH_cases d s with ⟨hd, e⟩ | ⟨hd, -, e⟩ | ⟨hd, _, -, e⟩ <;> rw [e] at h <;> cases h
    · exact .inl ⟨by simp only [ignores, hd]; rfl, rfl⟩
    all_goals exact .inr ⟨by simp only [ignores, hd]; rfl, endsPlainly_writeOutcome _ _⟩
  case acSetFan n =>
    simp only [exec, execAcSetFan] at h
    split at h <;> rename_i hn <;> cases h <;> simp only [fanMax, fanAuto] at hn
    · exact .inr ⟨by simp only [ignores, decide_eq_false_iff_not]; omega, endsPlainly_writeOutcome _ _⟩
    · exact .inl ⟨by simp only [ignores, decide_eq_true_eq]; omega, rfl⟩
  all_goals refine .inr ⟨rfl, ?_⟩
  case wordSend | frameSend | acSend =>
    rcases exec_send_cases h rfl with rfl | ⟨_, _, _, -, -, rfl⟩
    · exact endsPlainly_writeOutcome _ _
    · exact endsPlainly_writePlan _ _ _
  all_goals
    simp only [exec, execCal, execExtract, execWordDecode, execFrameDecode, execCsumCalc, execCsumValid,
      execAcSetMode] at h
    repeat' split at h
    all_goals
      cases h
      exact endsPlainly_writeOutcome _ _

/-- No command writes ILL (10_state.md R36). -/
theorem exec_ill {i : Instr} {s t : State} (h : exec i s = .next t) : t.ill = s.ill := by
  obtain ⟨-, ⟨ok, ign, -, -, hkept⟩, -⟩ := exec_frame h
  exact hkept 2 (Nat.le_refl 2)

/-- No command writes the reserved bits of STATUS (10_state.md R33). -/
theorem exec_reserved {i : Instr} {s t : State} (h : exec i s = .next t) :
    t.status &&& 0xF8#8 = s.status &&& 0xF8#8 := by
  obtain ⟨-, ⟨ok, ign, -, -, hkept⟩, -⟩ := exec_frame h
  apply BitVec.eq_of_getLsbD_eq
  intro b hb
  rw [BitVec.getLsbD_and, BitVec.getLsbD_and]
  obtain rfl | rfl | h2 : b = 0 ∨ b = 1 ∨ 2 ≤ b := by omega
  · simp
  · simp
  · rw [hkept b h2]

/-- A command that ends with IGN 1 ends with OK 1 (10_state.md R35). -/
theorem exec_ok_of_ign {i : Instr} {s t : State} (h : exec i s = .next t) (hign : t.ign = true) : t.ok = true := by
  rcases exec_ending h with ⟨-, rfl⟩ | ⟨-, ok, u, rfl⟩
  · simp
  · simp at hign

/-! ### The invariant through one command -/

/-- The invariant's clauses on PLAN and PLANLEN. -/
def State.PlanInv (s : State) : Prop :=
  Memory.wf s.params.planCap s.plan = true ∧
    (s.params.planCap < 2 ^ 16 → s.planlen.toNat ≤ s.params.planCap ∧ s.planlen.toNat % 2 = 0)

/-- The failure of a send leaves PLAN and sets PLANLEN to 0 (20_memory.md R63). -/
theorem planInv_failSend {s : State} (hs : s.PlanInv) : (failSend s).PlanInv := by
  obtain ⟨hplan, -⟩ := hs
  exact ⟨hplan, fun _ => ⟨Nat.zero_le _, rfl⟩⟩

/-- A send of frames of even length leaves an even PLANLEN within PLAN_CAP (20_memory.md R62, R63). -/
theorem planInv_writePlan {frame : List Nat} (heven : frame.length % 2 = 0) (r : Nat) {s : State}
    (hs : s.PlanInv) : (writePlan frame r s).PlanInv := by
  rcases writePlan_cases frame r s with ⟨-, e⟩ | ⟨hfit, e⟩ <;> rw [e]
  · exact planInv_failSend hs
  · obtain ⟨hplan, -⟩ := hs
    refine ⟨Memory.wf_writeRun hplan 0 _ (by simpa using hfit), fun hcap => ?_⟩
    have hcap' : s.params.planCap < 2 ^ 16 := hcap
    have hlen : (storePlan (repeatFrame frame r) s).planlen.toNat = frame.length * (r + 1) := by
      simp only [storePlan, length_repeatFrame]
      rw [if_pos (by omega), BitVec.toNat_ofNat, Nat.mod_eq_of_lt (by omega)]
    rw [writeOutcome_planlen, hlen]
    exact ⟨hfit, by simp [Nat.mul_mod, heven]⟩

theorem exec_planInv {i : Instr} {s t : State} (h : exec i s = .next t) (hs : s.PlanInv) : t.PlanInv := by
  cases hw : writesPlan i
  case false =>
    obtain ⟨⟨hregs, -, -, hparams⟩, -⟩ := exec_frame h
    have hlen : t.planlen.toNat = s.planlen.toNat := hregs .planlen fun hm => by
      rcases planlen_mem_writtenRegs.1 hm with ⟨_, _, rfl⟩ | ⟨_, _, rfl⟩ | ⟨_, rfl⟩ <;> cases hw
    obtain ⟨-, eplan⟩ := exec_dbuf_plan h
    rw [State.PlanInv, eplan hw, hparams, hlen]
    exact hs
  case true =>
    rcases exec_send_cases h hw with rfl | ⟨_, r, u, heven, rfl | rfl, rfl⟩
    · exact planInv_failSend hs
    · exact planInv_writePlan heven r hs
    · exact planInv_writePlan (s := fixChecksum s) heven r hs

/-- A frame that decodes leaves a canonical buffer: its width is within DBUF (42_frame_codec.md R173). -/
theorem frameDecode_buf_wf {s : State} {st : Bool} {n : Nat} {c : Cursor} (h : frameDecode s st n = .ok c)
    (hs : Memory.wf dbufCap s.dbuf = true) : Memory.wf dbufCap c.buf = true := by
  unfold frameDecode at h
  split at h
  case isFalse => cases h
  case isTrue hstruct =>
    simp only [frameStructureOk, Bool.and_eq_true, decide_eq_true_eq] at hstruct
    obtain ⟨⟨-, hn⟩, -⟩ := hstruct
    split at h
    case h_1 => cases h
    case h_2 c' hc =>
      obtain ⟨-, -, hbuf⟩ := frameTiming_ok hc
      split at h <;> cases h
      exact hbuf hn hs

/-- FRAME_DECODE writes within DBUF, whether it decodes or draws (42_frame_codec.md R173, R175). -/
theorem dbuf_wf_execFrameDecode {st : Bool} {n : Nat} {s t : State} (h : execFrameDecode st n s = .next t)
    (hs : Memory.wf dbufCap s.dbuf = true) : Memory.wf dbufCap t.dbuf = true := by
  simp only [execFrameDecode] at h
  split at h <;> cases h
  case h_1 c hc =>
    exact frameDecode_buf_wf hc hs
  · exact hs
  · refine Memory.wf_writeRun hs 0 _ ?_
    simp only [List.length_map, List.length_range, drawnBytes]
    omega

theorem exec_dbuf_wf {i : Instr} {s t : State} (h : exec i s = .next t) (hs : Memory.wf dbufCap s.dbuf = true) :
    Memory.wf dbufCap t.dbuf = true := by
  cases hw : writesDbuf i
  case false =>
    obtain ⟨edbuf, -⟩ := exec_dbuf_plan h
    rwa [edbuf hw]
  case true =>
    cases i <;> simp only [writesDbuf, Bool.false_eq_true] at hw
    case frameDecode => exact dbuf_wf_execFrameDecode h hs
    case acGetRaw =>
      cases h
      exact Memory.wf_writeRun hs 0 _ (by simp [dbufCap])

/-- The decodes write PROTO 1 and 2 (10_state.md R37). -/
theorem exec_proto_le {i : Instr} {s t : State} (h : exec i s = .next t) (hs : s.proto.toNat ≤ 2) :
    t.proto.toNat ≤ 2 := by
  by_cases hw : .proto ∈ writtenRegs i
  · rcases proto_mem_writtenRegs.1 hw with ⟨b, n, rfl⟩ | ⟨b, n, rfl⟩
    · simp only [exec, execWordDecode] at h
      split at h <;> cases h
      · exact hs
      · exact Nat.le_succ 1
    · simp only [exec, execFrameDecode] at h
      split at h <;> cases h
      · exact Nat.le_refl 2
      · exact hs
      · exact hs
  · exact (exec_reg h hw).trans_le hs

/-- CAL's ticks are an eighth and a quarter of a 32-bit sample (40_calibrator_extractor.md R128). -/
theorem exec_ticks_lt {i : Instr} {s t : State} (h : exec i s = .next t)
    (hm : s.mtick.toNat < 2 ^ 29) (hs : s.stick.toNat < 2 ^ 30) : t.mtick.toNat < 2 ^ 29 ∧ t.stick.toNat < 2 ^ 30 := by
  by_cases hi : i = .cal
  · subst hi
    simp only [exec, execCal] at h
    split at h <;> cases h
    · exact ⟨hm, hs⟩
    · have h0 := (s.rawEntry 0).isLt
      have h1 := (s.rawEntry 1).isLt
      simp only [succeed_eq, writeOutcome_mtick, writeOutcome_stick, calibrate, BitVec.toNat_ofNat]
      omega
  · exact ⟨(exec_reg h (mt mtick_mem_writtenRegs.1 hi)).trans_lt hm,
      (exec_reg h (mt stick_mem_writtenRegs.1 hi)).trans_lt hs⟩

/-- `TEMP_CACHE` holds a temperature of the range (10_state.md R48). -/
def State.TempInv (s : State) : Prop := tempMin ≤ s.tempCache.toNat ∧ s.tempCache.toNat ≤ tempMax

/-- `SetTemp` clamps before it remembers (45_ac_accessors.md R214). -/
theorem tempInv_setTemp (t : Nat) (b : Bool) {s : State} (hs : s.TempInv) : (setTemp t b s).TempInv := by
  cases b
  · exact hs
  · simp only [State.TempInv, tempCache_setTemp, if_true, BitVec.toNat_ofNat, tempMin, tempMax]
    omega

theorem exec_tempInv {i : Instr} {s t : State} (h : exec i s = .next t) (hs : s.TempInv) : t.TempInv := by
  by_cases hw : .tempCache ∈ writtenRegs i
  · rcases tempCache_mem_writtenRegs.1 hw with rfl | ⟨m, rfl⟩ | ⟨x, b, rfl⟩
    · cases h
      show tempMin ≤ tempCacheReset.toNat ∧ tempCacheReset.toNat ≤ tempMax
      decide
    · simp only [exec, execAcSetMode] at h
      repeat' split at h
      all_goals cases h
      · exact tempInv_setTemp tempFan false hs
      · exact tempInv_setTemp s.tempCache.toNat true hs
      · exact hs
    · cases h
      exact tempInv_setTemp x b hs
  · have e : t.tempCache.toNat = s.tempCache.toNat := exec_reg h hw
    rwa [State.TempInv, e]

/-- The swing cache takes valid directions only (45_ac_accessors.md R221). -/
theorem exec_swinghCache_valid {i : Instr} {s t : State} (h : exec i s = .next t)
    (hs : swinghCodes.contains s.swinghCache = true) : swinghCodes.contains t.swinghCache = true := by
  by_cases hw : .swinghCache ∈ writtenRegs i
  · rcases swinghCache_mem_writtenRegs.1 hw with rfl | ⟨d, rfl⟩
    · cases h
      show swinghCodes.contains swinghMiddle = true
      decide
    · simp only [exec, execAcSetSwingH] at h
      rcases setSwingH_cases d s with ⟨-, e⟩ | ⟨hd, -, e⟩ | ⟨hd, _, -, e⟩ <;> rw [e] at h <;> cases h
      · exact hs
      · exact hd
      · exact hd
  · have e : t.swinghCache = s.swinghCache := BitVec.eq_of_toNat_eq (exec_reg h hw)
    rwa [e]

/-- Every command keeps the invariant. -/
theorem exec_inv {i : Instr} {s t : State} (h : exec i s = .next t) (hs : s.Inv) : t.Inv := by
  obtain ⟨hpar, hraw, hdbuf, hplan, hres, -, hproto, hrawlen, hmtick, hstick, htlo, hthi, hswing, hplanlen,
    hdraws⟩ := hs
  obtain ⟨⟨-, -, -, epar⟩, -, eraw, erawlen, -, edraw⟩ := exec_frame h
  obtain ⟨hplan', hplanlen'⟩ := exec_planInv h ⟨hplan, hplanlen⟩
  obtain ⟨hmtick', hstick'⟩ := exec_ticks_lt h hmtick hstick
  obtain ⟨htlo', hthi'⟩ := exec_tempInv h ⟨htlo, hthi⟩
  exact ⟨by rwa [epar], by rwa [epar, eraw], exec_dbuf_wf h hdbuf, hplan', (exec_reserved h).trans hres,
    exec_ok_of_ign h, exec_proto_le h hproto, by rwa [epar, erawlen], hmtick', hstick', htlo', hthi',
    exec_swinghCache_valid h hswing, hplanlen', edraw ▸ hdraws.trans_le (exec_draws h)⟩

/-! ### The invariant through one step -/

theorem raiseIllegalCommand_inv {s : State} (hs : s.Inv) : (raiseIllegalCommand s).Inv := by
  obtain ⟨hpar, hraw, hdbuf, hplan, hres, -, rest⟩ := hs
  exact ⟨hpar, hraw, hdbuf, hplan, (reserved_raiseIllegalCommand s).trans hres, by simp, rest⟩

theorem hostWrite_inv {p : Port} {v : Nat} {s t : State} (h : hostWrite p v s = some t) (hs : s.Inv) : t.Inv := by
  obtain ⟨hpar, hraw, hdbuf, hplan, hres, hign, hproto, hrawlen, rest⟩ := hs
  rcases hostWrite_cases h with ⟨x, rfl⟩ | ⟨-, rfl⟩ | ⟨-, hv, rfl⟩ | ⟨i, hi, rfl⟩ | ⟨i, hi, rfl⟩
  · exact ⟨hpar, hraw, hdbuf, hplan, hres, hign, hproto, hrawlen, rest⟩
  · exact ⟨hpar, hraw, hdbuf, hplan, hres, hign, hproto, hrawlen, rest⟩
  · have hlen : (BitVec.ofNat 16 v).toNat ≤ s.params.rawCap := by
      rw [BitVec.toNat_ofNat]
      exact (Nat.mod_le _ _).trans hv
    exact ⟨hpar, hraw, hdbuf, hplan, hres, hign, hproto, hlen, rest⟩
  · exact ⟨hpar, Memory.wf_write hraw hi _, hdbuf, hplan, hres, hign, hproto, hrawlen, rest⟩
  · exact ⟨hpar, hraw, Memory.wf_write hdbuf hi _, hplan, hres, hign, hproto, hrawlen, rest⟩

theorem reset_inv : State.reset.Inv := by
  unfold State.Inv
  decide

/-- Block reset needs of the invariant only the clause on what it keeps, the parameters (log 10). -/
theorem applyBlockReset_inv {s : State} (hpar : s.params.wf) : (applyBlockReset s).Inv := by
  obtain ⟨-, -, hdbuf, -, hres, hign, hproto, -, hmtick, hstick, htlo, hthi, hswing, -, -⟩ := reset_inv
  exact ⟨hpar, rfl, hdbuf, rfl, hres, hign, hproto, Nat.zero_le _, hmtick, hstick, htlo, hthi, hswing,
    fun _ => ⟨Nat.zero_le _, rfl⟩, Nat.lt_succ_self _⟩

theorem takeMove_inv {m : HostMove} {s t : State} (h : takeMove m s = .next t) (hs : s.Inv) : t.Inv := by
  rcases takeMove_cases h with ⟨_, _, -, -, -, he⟩ | ⟨_, _, -, -, -, rfl⟩ | ⟨_, _, -, hw⟩ | ⟨_, -, rfl⟩ | ⟨-, rfl⟩
  · exact exec_inv he hs
  · exact raiseIllegalCommand_inv hs
  · exact hostWrite_inv hw hs
  · exact hs
  · obtain ⟨hpar, -⟩ := hs
    exact applyBlockReset_inv hpar

end Sys2Proof.Machine
end

section
/-! PROOFS. The host port by its rows (10_state.md R31, 20_memory.md R66): the halves of VALUE, and what each admitted
write leaves. -/

namespace Sys2Proof.Machine

/-! ### The halves of VALUE -/

theorem toNat_lowHalf (x : BitVec 64) : (x.extractLsb' 0 32).toNat = x.toNat % 2 ^ 32 := by
  rw [BitVec.extractLsb'_toNat, Nat.shiftRight_zero]

theorem toNat_highHalf (x : BitVec 64) : (x.extractLsb' 32 32).toNat = x.toNat / 2 ^ 32 := by
  rw [BitVec.extractLsb'_toNat, Nat.shiftRight_eq_div_pow]
  exact Nat.mod_eq_of_lt (Nat.div_lt_of_lt_mul x.isLt)

/-! ### Host writes -/

/-- A value an element can hold is the number written. -/
theorem toNat_ofNat_of_lt {w v : Nat} (h : v < 2 ^ w) : (BitVec.ofNat w v).toNat = v :=
  (BitVec.toNat_ofNat v w).trans (Nat.mod_eq_of_lt h)

/-- Off `CMD` a host write does what the table of R31 says. -/
theorem takeWrite_of_hostWrite {p : Port} {v : Nat} {s t : State} (hp : p ≠ .cmd) (h : hostWrite p v s = some t) :
    takeWrite p v s = .next t := by
  simp only [takeWrite, hp, false_and, if_false, h]

/-- No host write writes STATUS (R31). -/
theorem hostWrite_status {p : Port} {v : Nat} {s t : State} (h : hostWrite p v s = some t) :
    t.status = s.status := by
  rcases hostWrite_cases h with ⟨_, rfl⟩ | ⟨_, rfl⟩ | ⟨_, _, rfl⟩ | ⟨_, _, rfl⟩ | ⟨_, _, rfl⟩ <;> rfl

theorem keepsBut_value (s : State) (x : BitVec 64) : KeepsBut [.value] [] s { s with value := x } :=
  ⟨fun r hr => by cases r <;> simp_all [State.reg], fun _ _ => rfl, rfl, rfl⟩

theorem keepsBut_mfr (s : State) (x : BitVec 16) : KeepsBut [.mfr] [] s { s with mfr := x } :=
  ⟨fun r hr => by cases r <;> simp_all [State.reg], fun _ _ => rfl, rfl, rfl⟩

theorem keepsBut_rawlen (s : State) (x : BitVec 16) : KeepsBut [.rawlen] [] s { s with rawlen := x } :=
  ⟨fun r hr => by cases r <;> simp_all [State.reg], fun _ _ => rfl, rfl, rfl⟩

theorem keepsBut_raw (s : State) (m : Memory 32) : KeepsBut [] [] s { s with raw := m } :=
  ⟨fun r _ => by cases r <;> rfl, fun _ _ => rfl, rfl, rfl⟩

theorem keepsBut_dbuf (s : State) (m : Memory 8) : KeepsBut [] [] s { s with dbuf := m } :=
  ⟨fun r _ => by cases r <;> rfl, fun _ _ => rfl, rfl, rfl⟩

/-- One RAW entry written reads back, and every other entry reads as before. -/
theorem rawEntry_write (s : State) (i : Nat) (v : Duration) (j : Nat) :
    ({ s with raw := Memory.write s.raw i v } : State).rawEntry j = if j = i then v else s.rawEntry j := by
  simp only [State.rawEntry, Memory.stored_write]
  split <;> rfl

/-- One DBUF byte written reads back, and every other byte reads as before. -/
theorem dbufByte_write (s : State) (i : Nat) (v : Byte) (j : Nat) :
    ({ s with dbuf := Memory.write s.dbuf i v } : State).dbufByte j = if j = i then v else s.dbufByte j := by
  simp only [State.dbufByte, dbufAt, Memory.stored_write]
  split <;> rfl

/-! ### Block reset -/

theorem reset_ok : State.reset.ok = false := by decide

theorem reset_ign : State.reset.ign = false := by decide

theorem reset_ill : State.reset.ill = false := by decide

/-! ### ILL -/

/-- What a host move does to ILL (10_state.md R36): an illegal word sets it, block reset clears it, every other move
keeps it. -/
theorem takeMove_ill_cases {m : HostMove} {s t : State} (h : takeMove m s = .next t) :
    (m ≠ .blockReset ∧ t.ill = s.ill) ∨
    (∃ w why, m = .write .cmd w ∧ w < 2 ^ 32 ∧ decode (BitVec.ofNat 32 w) = .error why ∧ t.ill = true) ∨
    (m = .blockReset ∧ t.ill = false) := by
  rcases takeMove_cases h with ⟨w, i, rfl, -, -, he⟩ | ⟨w, why, rfl, hw, hd, rfl⟩ | ⟨p, v, rfl, e⟩ | ⟨p, rfl, rfl⟩ |
    ⟨rfl, rfl⟩
  · exact .inl ⟨nofun, exec_ill he⟩
  · exact .inr (.inl ⟨w, why, rfl, hw, hd, raiseIllegalCommand_ill s⟩)
  · exact .inl ⟨nofun, by rw [State.ill, State.ill, hostWrite_status e]⟩
  · exact .inl ⟨nofun, rfl⟩
  · exact .inr (.inr ⟨rfl, reset_ill⟩)

/-! ### Parameters -/


/-- `DefaultTiming` says the values of 00_scope.md R9, R10 and R13. -/
theorem defaultTiming_values {p : Config.Params} (h : DefaultTiming p) :
    p.tau = 432 ∧ p.sectionGap = 10000 ∧ p.messageGap = 100000 ∧ p.endGap = 5000 ∧ p.captureTimeout = 15000 ∧
      p.wordFrameT = 378 ∧ p.wordMingapT = 173 ∧ p.tWord = 25 ∧ p.eWord = 50 ∧ p.tAc = 40 ∧ p.eAc = 0 ∧ p.tGap = 25 ∧
      p.wordLsbFirst = true := by
  rw [h]
  exact ⟨rfl, rfl, rfl, rfl, rfl, rfl, rfl, rfl, rfl, rfl, rfl, rfl, rfl⟩

end Sys2Proof.Machine
end

section
/-! PROOFS. The obligations on the state, the step and the host port (10_state.md). -/

namespace Sys2Proof.Machine

/-- Settles O14: each of the five host moves keeps the invariant, and taking the move off the list does not touch it. -/
theorem stepKeepsTheBlockInvariant : Obligations.StepKeepsTheBlockInvariant := by
  unfold Obligations.StepKeepsTheBlockInvariant
  intro s t hs h
  rcases step_cases h with ⟨-, rfl⟩ | ⟨m, rest, -, hm⟩
  · exact hs
  · exact takeMove_inv hm hs

/-- Settles O16: each kind of move in `takeMove_ill_cases` meets the three clauses. -/
theorem illIsStickyUntilBlockReset : Obligations.IllIsStickyUntilBlockReset := by
  unfold Obligations.IllIsStickyUntilBlockReset
  refine ⟨fun m s t h => ?_, fun s w why hw hd => ⟨_, takeMove_illegal s hw hd, raiseIllegalCommand_ill s⟩⟩
  rcases takeMove_ill_cases h with ⟨hm, e⟩ | ⟨w, why, rfl, hw, hd, ht⟩ | ⟨rfl, ht⟩
  · exact ⟨fun hs => .inl (e.trans hs), fun hs ht => by simp [e, hs] at ht, fun hr => absurd hr hm⟩
  · exact ⟨fun _ => .inl ht, fun _ _ => ⟨w, why, rfl, hw, hd⟩, nofun⟩
  · exact ⟨fun _ => .inr rfl, fun _ ht' => by simp [ht] at ht', fun _ => ht⟩

/-- Settles O20: a register outside the command's list of `writtenRegs` keeps its value, and the lists name the writers
of R31. -/
theorem resultRegistersHaveOnlyTheirWriters : Obligations.ResultRegistersHaveOnlyTheirWriters := by
  unfold Obligations.ResultRegistersHaveOnlyTheirWriters
  intro i s t h
  obtain ⟨-, -, -, -, hmfr, -⟩ := exec_frame h
  refine ⟨hmfr, fun hcal => ⟨?_, ?_⟩, fun hx => ?_, fun hd => ⟨?_, ?_⟩, fun hd hf => ⟨?_, ?_⟩, fun hx he hd => ?_,
    fun hg hc => ?_⟩ <;> apply BitVec.eq_of_toNat_eq
  · exact exec_reg h (r := .mtick) (mt mtick_mem_writtenRegs.1 hcal)
  · exact exec_reg h (r := .stick) (mt stick_mem_writtenRegs.1 hcal)
  · exact exec_reg h (r := .used) (mt used_mem_writtenRegs.1 (by simpa only [not_exists] using hx))
  · exact exec_reg h (r := .address) (mt address_mem_writtenRegs.1 (by simpa only [not_exists] using hd))
  · exact exec_reg h (r := .command) (mt command_mem_writtenRegs.1 (by simpa only [not_exists] using hd))
  · exact exec_reg h (r := .proto) (mt proto_mem_writtenRegs.1 (by simpa only [not_or, not_exists] using ⟨hd, hf⟩))
  · exact exec_reg h (r := .bits) (mt bits_mem_writtenRegs.1 (by simpa only [not_or, not_exists] using ⟨hd, hf⟩))
  · exact exec_reg h (r := .value) (mt value_mem_writtenRegs.1 (by simpa only [not_or, not_exists] using ⟨hx, he, hd⟩))
  · exact exec_reg h (r := .result) (mt result_mem_writtenRegs.1 (by simpa only [not_or, not_exists] using ⟨hg, hc⟩))

/-- Settles O22: a command ends with `ignore`, which writes STATUS alone, exactly on an input it ignores. -/
theorem ignIsSetExactlyByIgnoringSetters : Obligations.IgnIsSetExactlyByIgnoringSetters := by
  unfold Obligations.IgnIsSetExactlyByIgnoringSetters
  intro i s t h
  rw [← ignores_iff]
  rcases exec_ending h with ⟨hi, rfl⟩ | ⟨hi, ok, u, rfl⟩
  · exact ⟨by simp [hi], fun _ => ⟨writeOutcome_ok _ _ s, keepsBut_writeOutcome _ _ s,
      memoriesKept_of_eq rfl rfl rfl rfl⟩⟩
  · simp [hi]

/-- Settles O6: a legal word's move is its command, and the step takes the head of the list. -/
theorem stepRunsTheDecodedCommand : Obligations.StepRunsTheDecodedCommand := by
  unfold Obligations.StepRunsTheDecodedCommand
  have head (s : State) (m : HostMove) (rest : List HostMove) (hp : s.pending = m :: rest) :
      step s = takeMove m { s with pending := rest } := by
    simp only [step, takeTurn, hp]
  refine ⟨fun s w rest i hp hw hd => ?_, head, fun s hp => ?_⟩
  · rw [head s _ rest hp, takeMove_legal _ hw hd]
  · simp only [step, takeTurn, hp]

/-- Settles O9: row by row, the value arrives in its register or element and the frame of that one update holds. -/
theorem hostWritesReachOnlyTheirTarget : Obligations.HostWritesReachOnlyTheirTarget := by
  unfold Obligations.HostWritesReachOnlyTheirTarget
  intro s
  refine ⟨fun v hv => ?_, fun v hv => ?_, fun v hv => ?_, fun v hv hc => ?_, fun i v hi hv => ?_, fun i v hi hv => ?_⟩
  · refine ⟨_, takeWrite_of_hostWrite nofun (if_pos hv), ?_, keepsBut_value _ _, memoriesKept_of_eq rfl rfl rfl rfl⟩
    rw [toNat_append_add, toNat_highHalf, toNat_ofNat_of_lt hv]
  · refine ⟨_, takeWrite_of_hostWrite nofun (if_pos hv), ?_, keepsBut_value _ _, memoriesKept_of_eq rfl rfl rfl rfl⟩
    rw [toNat_append_add, toNat_ofNat_of_lt hv, toNat_lowHalf]
  · exact ⟨_, takeWrite_of_hostWrite nofun (if_pos hv), toNat_ofNat_of_lt hv, keepsBut_mfr _ _,
      memoriesKept_of_eq rfl rfl rfl rfl⟩
  · exact ⟨_, takeWrite_of_hostWrite nofun (if_pos ⟨hv, hc⟩), toNat_ofNat_of_lt hv, keepsBut_rawlen _ _,
      memoriesKept_of_eq rfl rfl rfl rfl⟩
  · refine ⟨_, takeWrite_of_hostWrite nofun (if_pos ⟨hv, hi⟩), ?_, fun j hj => ?_, keepsBut_raw _ _, fun _ => rfl,
      fun _ => rfl⟩
    · rw [rawEntry_write, if_pos rfl, toNat_ofNat_of_lt hv]
    · rw [rawEntry_write, if_neg hj]
  · refine ⟨_, takeWrite_of_hostWrite nofun (if_pos ⟨hv, hi⟩), ?_, fun j hj => ?_, keepsBut_dbuf _ _, fun _ => rfl,
      fun _ => rfl⟩
    · rw [dbufByte_write, if_pos rfl, toNat_ofNat_of_lt hv]
    · rw [dbufByte_write, if_neg hj]

/-- Settles O10: each row of `hostRead` is the table's, and an admitted read answers the state it found. -/
theorem hostReadsGiveTheirTargetWithoutSideEffect : Obligations.HostReadsGiveTheirTargetWithoutSideEffect := by
  unfold Obligations.HostReadsGiveTheirTargetWithoutSideEffect
  intro s
  refine ⟨rfl, rfl, rfl, rfl, rfl, rfl, rfl, rfl, rfl, rfl, rfl, rfl, congrArg some (toNat_lowHalf s.value),
    congrArg some (toNat_highHalf s.value), fun i hi => if_pos hi, fun i hi => if_pos hi, fun i hi => if_pos hi,
    fun p x hx => ?_⟩
  simp only [takeMove, takeRead, hx]

/-- Settles O12: field by field; the parameters of the reset state are the default timing. -/
theorem resetLeavesTheSpecsValues : Obligations.ResetLeavesTheSpecsValues := by
  unfold Obligations.ResetLeavesTheSpecsValues
  intro s
  refine ⟨reset_ok, reset_ign, reset_ill, rfl, rfl, rfl, rfl, rfl, rfl, rfl, rfl, rfl, rfl, rfl, rfl, rfl, rfl, rfl, rfl,
    fun i => ⟨rfl, rfl, rfl⟩, fun p hp => defaultTiming_values ?_, rfl, rfl⟩
  rcases hp with rfl | hp
  · rfl
  · exact hp

/-- Settles O15: the base case of O14. -/
theorem resetMeetsTheBlockInvariant : Obligations.ResetMeetsTheBlockInvariant := reset_inv

end Sys2Proof.Machine
end

section
/-! PROOFS. The obligations on the memories RAW, DBUF and PLAN (20_memory.md R63, R77–R79). -/

namespace Sys2Proof.Machine

/-! ### The writers of DBUF and PLAN by name -/

theorem writesDbuf_iff {i : Instr} : writesDbuf i = true ↔ (∃ b n, i = .frameDecode b n) ∨ i = .acGetRaw := by
  cases i <;> simp [writesDbuf]

theorem writesPlan_iff {i : Instr} :
    writesPlan i = true ↔ (∃ n r, i = .wordSend n r) ∨ (∃ n r, i = .frameSend n r) ∨ ∃ r, i = .acSend r := by
  cases i <;> simp [writesPlan]

/-- The memory PLAN and the register PLANLEN have the same writers (20_memory.md R79). -/
theorem planlen_mem_writtenRegs_iff_writesPlan {i : Instr} : .planlen ∈ writtenRegs i ↔ writesPlan i = true :=
  planlen_mem_writtenRegs.trans writesPlan_iff.symm

/-! ### Reads where the memory and the reset draw are kept -/

theorem rawEntry_of_eq {s t : State} (hr : t.raw = s.raw) (hm : t.memDraw = s.memDraw) (k : Nat) :
    t.rawEntry k = s.rawEntry k := by
  rw [State.rawEntry, State.rawEntry, hr, hm]

theorem sample_of_eq {s t : State} (hr : t.raw = s.raw) (hm : t.memDraw = s.memDraw) (hl : t.rawlen = s.rawlen)
    (k : Nat) : t.sample k = s.sample k := by
  rw [State.sample, State.sample, hl, rawEntry_of_eq hr hm]

theorem dbufByte_of_eq {s t : State} (hd : t.dbuf = s.dbuf) (hm : t.memDraw = s.memDraw) (k : Nat) :
    t.dbufByte k = s.dbufByte k := by
  rw [State.dbufByte, State.dbufByte, hd, hm]

theorem planEntry_of_eq {s t : State} (hp : t.plan = s.plan) (hm : t.memDraw = s.memDraw) (k : Nat) :
    t.planEntry k = s.planEntry k := by
  rw [State.planEntry, State.planEntry, hp, hm]

/-! ### A send that fails -/

theorem writePlan_of_exceeds {frame : List Nat} {r : Nat} {s : State}
    (h : s.params.planCap < frame.length * (r + 1)) : writePlan frame r s = failSend s :=
  if_pos h

/-- WORD_SEND of too many bits, or of a plan beyond PLAN_CAP, fails (41_word_codec.md R143). -/
theorem exec_wordSend_of_not_fit {s : State} {n r : Nat}
    (h : 64 < n ∨ s.params.planCap < (2 * n + 4) * (r + 1)) : exec (.wordSend n r) s = .next (failSend s) := by
  simp only [exec, execWordSend]
  split
  · rfl
  · next hn =>
    rw [writePlan_of_exceeds (by rw [length_wordFrame]; exact h.resolve_left hn)]

/-- FRAME_SEND of too few or too many bytes, or of a plan beyond PLAN_CAP, fails (42_frame_codec.md R161). -/
theorem exec_frameSend_of_not_fit {s : State} {n r : Nat}
    (h : n < 16 ∨ 27 < n ∨ s.params.planCap < (16 * n + 8) * (r + 1)) :
    exec (.frameSend n r) s = .next (failSend s) := by
  simp only [exec, execFrameSend]
  split
  · rfl
  · next hn =>
    have hlen : (s.dbufBytes n).length = n := by simp [State.dbufBytes]
    rw [writePlan_of_exceeds (by rw [length_frameSequence, hlen]; exact (or_assoc.2 h).resolve_left hn)]

/-- AC_SEND of a plan beyond PLAN_CAP fails after the checksum fix-up (44_ac_register_file.md R195). -/
theorem exec_acSend_of_not_fit {s : State} {r : Nat} (h : s.params.planCap < 440 * (r + 1)) :
    exec (.acSend r) s = .next (failSend (fixChecksum s)) := by
  simp only [exec, execAcSend]
  rw [writePlan_of_exceeds (by rw [length_frameSequence, Vector.length_toList]; exact h)]

theorem keepsBut_planlen (s : State) (x : BitVec 16) : KeepsBut [.planlen] [] s { s with planlen := x } := by
  refine ⟨fun r hr => ?_, fun _ _ => rfl, rfl, rfl⟩
  cases r
  case planlen => exact absurd (List.mem_singleton_self _) hr
  all_goals rfl

/-- A failing send writes PLANLEN and STATUS alone (20_memory.md R63). -/
theorem keepsBut_failSend (s : State) : KeepsBut [.status, .planlen] [] s (failSend s) :=
  ((keepsBut_planlen s 0).trans (keepsBut_writeOutcome false false _)).mono (by simp) (by simp)

/-- The fix-up's byte is the checksum by index (44_ac_register_file.md R192). -/
theorem toNat_acByte_fixChecksum (s : State) {f : Nat → Byte} (hf : ∀ i : Fin 27, f i = s.acByte i) :
    ((fixChecksum s).acByte 26).toNat = checksumNat f 27 := by
  rw [fixChecksum, acByte_setAc_same, toNat_checksum_ac s.ac hf]

/-! ### The obligations -/

/-- Settles O17: RAW, RAWLEN and the reset draw, from which every sample is read, are among what no command changes. -/
theorem commandsNeverWriteRaw : Obligations.CommandsNeverWriteRaw := by
  unfold Obligations.CommandsNeverWriteRaw
  intro i s t h
  obtain ⟨-, -, hraw, hlen, -, hdraw⟩ := exec_frame h
  exact ⟨rawEntry_of_eq hraw hdraw, hlen, sample_of_eq hraw hdraw hlen⟩

/-- Settles O18: a command that is none of `writesDbuf` keeps the memory DBUF and the reset draw. -/
theorem onlyFrameDecodeAndGetRawWriteDbuf : Obligations.OnlyFrameDecodeAndGetRawWriteDbuf := by
  unfold Obligations.OnlyFrameDecodeAndGetRawWriteDbuf
  intro i s t h hdecode hget
  have hw : writesDbuf i ≠ true := by
    rw [ne_eq, writesDbuf_iff]
    rintro (⟨b, n, e⟩ | e)
    · exact hdecode b n e
    · exact hget e
  obtain ⟨-, -, -, -, -, hdraw⟩ := exec_frame h
  exact dbufByte_of_eq ((exec_dbuf_plan h).1 (Bool.eq_false_of_not_eq_true hw)) hdraw

/-- Settles O19: a command that is none of `writesPlan` keeps the memory PLAN and the reset draw, and PLANLEN is not in
its list of registers. -/
theorem onlySendsWritePlan : Obligations.OnlySendsWritePlan := by
  unfold Obligations.OnlySendsWritePlan
  intro i s t h hword hframe hac
  have hw : writesPlan i ≠ true := by
    rw [ne_eq, writesPlan_iff]
    rintro (⟨n, r, e⟩ | ⟨n, r, e⟩ | ⟨r, e⟩)
    · exact hword n r e
    · exact hframe n r e
    · exact hac r e
  obtain ⟨-, -, -, -, -, hdraw⟩ := exec_frame h
  refine ⟨planEntry_of_eq ((exec_dbuf_plan h).2 (Bool.eq_false_of_not_eq_true hw)) hdraw, BitVec.eq_of_toNat_eq ?_⟩
  exact exec_reg h (r := .planlen) (mt planlen_mem_writtenRegs_iff_writesPlan.1 hw)

/-- Settles O30: each of the three sends ends in `failSend`, AC_SEND after its fix-up of byte 26. -/
theorem sendThatDoesNotFitWritesNoPlan : Obligations.SendThatDoesNotFitWritesNoPlan := by
  unfold Obligations.SendThatDoesNotFitWritesNoPlan
  refine ⟨fun s n r h => ⟨_, exec_wordSend_of_not_fit h, rfl, endsWith_writeOutcome rfl, keepsBut_failSend s,
      memoriesKept_of_eq rfl rfl rfl rfl⟩,
    fun s n r h => ⟨_, exec_frameSend_of_not_fit h, rfl, endsWith_writeOutcome rfl, keepsBut_failSend s,
      memoriesKept_of_eq rfl rfl rfl rfl⟩,
    fun s r h => ⟨_, exec_acSend_of_not_fit h, rfl, endsWith_writeOutcome rfl, fun f hf => ?_,
      (keepsBut_setAc s 26 _).trans (keepsBut_failSend _), memoriesKept_of_eq rfl rfl rfl rfl⟩⟩
  exact toNat_acByte_fixChecksum s hf

end Sys2Proof.Machine
end

section
/-! PROOFS. The ten formats both ways (30_encoding.md R94–R103): what a format's word reads back as, and the word that
the fields of a word make. -/

namespace Sys2Proof

/-! ### The opcode of a format's word -/

@[simp] theorem opcode_wordN (op : BitVec 8) : field (wordN op) 24 8 = op.toNat := by
  rw [field_eq, toNat_wordN]
  omega

@[simp] theorem opcode_wordB (op : BitVec 8) (b : Bool) : field (wordB op b) 24 8 = op.toNat := by
  rw [field_eq, toNat_wordB]
  have := b.toNat_le
  omega

@[simp] theorem opcode_wordI8 (op : BitVec 8) (x : Byte) : field (wordI8 op x) 24 8 = op.toNat := by
  rw [field_eq, toNat_wordI8]
  omega

@[simp] theorem opcode_wordT (op : BitVec 8) (t : Nat) (rem : Bool) : field (wordT op t rem) 24 8 = op.toNat := by
  rw [field_eq, toNat_wordT]
  have := rem.toNat_le
  omega

@[simp] theorem opcode_wordD (op : BitVec 8) (strict : Bool) (nbits : Nat) :
    field (wordD op strict nbits) 24 8 = op.toNat := by
  rw [field_eq, toNat_wordD]
  have := strict.toNat_le
  omega

@[simp] theorem opcode_wordW (op : BitVec 8) (nbits reps : Nat) : field (wordW op nbits reps) 24 8 = op.toNat := by
  rw [field_eq, toNat_wordW]
  omega

@[simp] theorem opcode_wordF (op : BitVec 8) (nbytes reps : Nat) : field (wordF op nbytes reps) 24 8 = op.toNat :=
  opcode_wordW op nbytes reps

@[simp] theorem opcode_wordE (op : BitVec 8) (device subdevice function : Byte) :
    field (wordE op device subdevice function) 24 8 = op.toNat := by
  rw [field_eq, toNat_wordE]
  omega

@[simp] theorem opcode_wordX (op : BitVec 8) (tsel : Bool) (n offset : Nat) :
    field (wordX op tsel n offset) 24 8 = op.toNat := by
  rw [field_eq, toNat_wordX]
  have := tsel.toNat_le
  omega

@[simp] theorem opcode_wordR (op : BitVec 8) (reps : Nat) : field (wordR op reps) 24 8 = op.toNat := by
  rw [field_eq, toNat_wordR]
  omega

/-! ### A format reads back the operands of its word -/

/-- A bit read as a one-bit field. -/
theorem getLsbD_of_field {w : BitVec 32} {lo : Nat} {b : Bool} (h : field w lo 1 = b.toNat) : w.getLsbD lo = b := by
  rw [getLsbD_eq_field, h]
  cases b <;> rfl

/-- A byte read as an eight-bit field. -/
theorem extractLsb'_of_field {w : BitVec 32} {lo : Nat} {x : Byte} (h : field w lo 8 = x.toNat) :
    w.extractLsb' lo 8 = x :=
  BitVec.eq_of_toNat_eq h

@[simp] theorem formatN_wordN (op : BitVec 8) (i : Instr) : formatN (wordN op) i = .ok i := by
  have h0 : field (wordN op) 0 24 = 0 := by
    rw [field_eq, toNat_wordN]
    omega
  rw [formatN, if_pos h0]

@[simp] theorem formatB_wordB (op : BitVec 8) (b : Bool) (k : Bool → Instr) : formatB (wordB op b) k = .ok (k b) := by
  have := b.toNat_le
  have h0 : field (wordB op b) 1 23 = 0 := by
    rw [field_eq, toNat_wordB]
    omega
  have hb : (wordB op b).getLsbD 0 = b := getLsbD_of_field (by rw [field_eq, toNat_wordB]; omega)
  rw [formatB, if_pos h0, hb]

@[simp] theorem formatI8_wordI8 (op : BitVec 8) (x : Byte) (k : Byte → Instr) :
    formatI8 (wordI8 op x) k = .ok (k x) := by
  have h0 : field (wordI8 op x) 8 16 = 0 := by
    rw [field_eq, toNat_wordI8]
    omega
  have hx : (wordI8 op x).extractLsb' 0 8 = x := extractLsb'_of_field (by rw [field_eq, toNat_wordI8]; omega)
  rw [formatI8, if_pos h0, hx]

theorem formatT_wordT (op : BitVec 8) {t : Nat} (ht : t < 2 ^ 8) (rem : Bool) (k : Nat → Bool → Instr) :
    formatT (wordT op t rem) k = .ok (k t rem) := by
  have := rem.toNat_le
  have h0 : field (wordT op t rem) 8 15 = 0 := by
    rw [field_eq, toNat_wordT]
    omega
  have hr : (wordT op t rem).getLsbD 23 = rem := getLsbD_of_field (by rw [field_eq, toNat_wordT]; omega)
  have ht : field (wordT op t rem) 0 8 = t := by
    rw [field_eq, toNat_wordT]
    omega
  rw [formatT, if_pos h0, hr, ht]

theorem formatD_wordD (op : BitVec 8) (strict : Bool) {nbits : Nat} (hn : nbits < 2 ^ 16)
    (k : Bool → Nat → Instr) : formatD (wordD op strict nbits) k = .ok (k strict nbits) := by
  have := strict.toNat_le
  have h0 : field (wordD op strict nbits) 16 7 = 0 := by
    rw [field_eq, toNat_wordD]
    omega
  have hs : (wordD op strict nbits).getLsbD 23 = strict :=
    getLsbD_of_field (by rw [field_eq, toNat_wordD]; omega)
  have hn : field (wordD op strict nbits) 0 16 = nbits := by
    rw [field_eq, toNat_wordD]
    omega
  rw [formatD, if_pos h0, hs, hn]

theorem formatW_wordW (op : BitVec 8) {nbits reps : Nat} (hn : nbits < 2 ^ 8) (hr : reps < 2 ^ 16)
    (k : Nat → Nat → Instr) : formatW (wordW op nbits reps) k = .ok (k nbits reps) := by
  have hn : field (wordW op nbits reps) 16 8 = nbits := by
    rw [field_eq, toNat_wordW]
    omega
  have hr : field (wordW op nbits reps) 0 16 = reps := by
    rw [field_eq, toNat_wordW]
    omega
  rw [formatW, hn, hr]

theorem formatF_wordF (op : BitVec 8) {nbytes reps : Nat} (hn : nbytes < 2 ^ 8) (hr : reps < 2 ^ 16)
    (k : Nat → Nat → Instr) : formatF (wordF op nbytes reps) k = .ok (k nbytes reps) :=
  formatW_wordW op hn hr k

@[simp] theorem formatE_wordE (op : BitVec 8) (device subdevice function : Byte)
    (k : Byte → Byte → Byte → Instr) :
    formatE (wordE op device subdevice function) k = .ok (k device subdevice function) := by
  have hd : (wordE op device subdevice function).extractLsb' 16 8 = device :=
    extractLsb'_of_field (by rw [field_eq, toNat_wordE]; omega)
  have hs : (wordE op device subdevice function).extractLsb' 8 8 = subdevice :=
    extractLsb'_of_field (by rw [field_eq, toNat_wordE]; omega)
  have hf : (wordE op device subdevice function).extractLsb' 0 8 = function :=
    extractLsb'_of_field (by rw [field_eq, toNat_wordE]; omega)
  rw [formatE, hd, hs, hf]

theorem formatX_wordX (op : BitVec 8) (tsel : Bool) {n offset : Nat} (hn : n < 2 ^ 7) (ho : offset < 2 ^ 16)
    (k : Bool → Nat → Nat → Instr) : formatX (wordX op tsel n offset) k = .ok (k tsel n offset) := by
  have := tsel.toNat_le
  have ht : (wordX op tsel n offset).getLsbD 23 = tsel := getLsbD_of_field (by rw [field_eq, toNat_wordX]; omega)
  have hn : field (wordX op tsel n offset) 16 7 = n := by
    rw [field_eq, toNat_wordX]
    omega
  have ho : field (wordX op tsel n offset) 0 16 = offset := by
    rw [field_eq, toNat_wordX]
    omega
  rw [formatX, ht, hn, ho]

theorem formatR_wordR (op : BitVec 8) {reps : Nat} (hr : reps < 2 ^ 16) (k : Nat → Instr) :
    formatR (wordR op reps) k = .ok (k reps) := by
  have h0 : field (wordR op reps) 16 8 = 0 := by
    rw [field_eq, toNat_wordR]
    omega
  have hr : field (wordR op reps) 0 16 = reps := by
    rw [field_eq, toNat_wordR]
    omega
  rw [formatR, if_pos h0, hr]

/-- A field is below 2 to its width (R105). -/
theorem field_lt (w : BitVec 32) (lo n : Nat) : field w lo n < 2 ^ n := (w.extractLsb' lo n).isLt

/-! ### A word whose reserved bits are 0 is the word of its own fields -/

/-- A bit of the word, as a one-bit field. -/
theorem toNat_getLsbD (w : BitVec 32) (lo : Nat) : (w.getLsbD lo).toNat = field w lo 1 := by
  rw [getLsbD_eq_field, field_eq]
  rcases Nat.mod_two_eq_zero_or_one (w.toNat / 2 ^ lo) with h | h <;> simp [h]

/-- A byte of the word, as the field it is. -/
theorem toNat_byteField (w : BitVec 32) (lo : Nat) : (w.extractLsb' lo 8).toNat = field w lo 8 := rfl

section
variable {w : BitVec 32} {op : BitVec 8} (hop : field w 24 8 = op.toNat)
include hop

theorem wordN_of_fields (h0 : field w 0 24 = 0) : wordN op = w := by
  apply BitVec.eq_of_toNat_eq
  rw [toNat_wordN, ← hop]
  simp only [field_eq] at *
  omega

theorem wordB_of_fields (h0 : field w 1 23 = 0) : wordB op (w.getLsbD 0) = w := by
  apply BitVec.eq_of_toNat_eq
  rw [toNat_wordB, ← hop, toNat_getLsbD]
  simp only [field_eq] at *
  omega

theorem wordI8_of_fields (h0 : field w 8 16 = 0) : wordI8 op (w.extractLsb' 0 8) = w := by
  apply BitVec.eq_of_toNat_eq
  rw [toNat_wordI8, ← hop, toNat_byteField]
  simp only [field_eq] at *
  omega

theorem wordT_of_fields (h0 : field w 8 15 = 0) : wordT op (field w 0 8) (w.getLsbD 23) = w := by
  apply BitVec.eq_of_toNat_eq
  rw [toNat_wordT, ← hop, toNat_getLsbD]
  simp only [field_eq] at *
  omega

theorem wordD_of_fields (h0 : field w 16 7 = 0) : wordD op (w.getLsbD 23) (field w 0 16) = w := by
  apply BitVec.eq_of_toNat_eq
  rw [toNat_wordD, ← hop, toNat_getLsbD]
  simp only [field_eq] at *
  omega

theorem wordW_of_fields : wordW op (field w 16 8) (field w 0 16) = w := by
  apply BitVec.eq_of_toNat_eq
  rw [toNat_wordW, ← hop]
  simp only [field_eq] at *
  omega

theorem wordF_of_fields : wordF op (field w 16 8) (field w 0 16) = w :=
  wordW_of_fields hop

theorem wordE_of_fields : wordE op (w.extractLsb' 16 8) (w.extractLsb' 8 8) (w.extractLsb' 0 8) = w := by
  apply BitVec.eq_of_toNat_eq
  rw [toNat_wordE, ← hop, toNat_byteField, toNat_byteField, toNat_byteField]
  simp only [field_eq] at *
  omega

theorem wordX_of_fields : wordX op (w.getLsbD 23) (field w 16 7) (field w 0 16) = w := by
  apply BitVec.eq_of_toNat_eq
  rw [toNat_wordX, ← hop, toNat_getLsbD]
  simp only [field_eq] at *
  omega

theorem wordR_of_fields (h0 : field w 16 8 = 0) : wordR op (field w 0 16) = w := by
  apply BitVec.eq_of_toNat_eq
  rw [toNat_wordR, ← hop]
  simp only [field_eq] at *
  omega

end

end Sys2Proof
end

section
/-! PROOFS. The decoder against the rows of the opcode table (30_encoding.md R104, R106, R111). -/

namespace Sys2Proof

/-! ### What decoding answers -/

/-- The command `i` is one of the mnemonic `name`, well formed, and `w` encodes it. -/
def IsCommandOf (name : String) (w : BitVec 32) (i : Instr) : Prop :=
  encode i = w ∧ i.wellFormed = true ∧ i.mnemonic = name

/-- `d` is what the row `r` says of the word `w`: a command of the row where `w` matches it, reserved bits where not. -/
def AnswersAsRow (w : BitVec 32) (d : Except IllegalWord Instr) (r : OpRow) : Prop :=
  (w &&& r.mask = r.pattern ∧ ∃ i, d = .ok i ∧ IsCommandOf r.mnemonic w i) ∨
  (w &&& r.mask ≠ r.pattern ∧ d = .error .reservedBits)

/-- `d` is what the table says of the word `w`, a word of the opcode of one of its rows. -/
def AnswersAsTable (w : BitVec 32) (d : Except IllegalWord Instr) : Prop :=
  ∃ r ∈ opcodeTable, w.extractLsb' 24 8 = r.pattern.extractLsb' 24 8 ∧ AnswersAsRow w d r

section
variable {w : BitVec 32} {name : String} (op : BitVec 8) (hop : field w 24 8 = op.toNat)
include hop

/-- The one argument behind the ten formats: with the row's opcode, a word matches the row exactly when the bits of the
mask below the opcode, the reserved ones, are 0, which is the condition `c` the format tests. -/
theorem answersAsTable_ite {mask : BitVec 32} {rest : Nat} {c : Prop} [Decidable c] {i : Instr}
    (hrow : ⟨name, wordN op, mask⟩ ∈ opcodeTable)
    (hmask : (w &&& mask).toNat = field w 24 8 * 2 ^ 24 + rest) (hrest : rest = 0 ↔ c)
    (hi : c → IsCommandOf name w i) : AnswersAsTable w (if c then .ok i else .error .reservedBits) := by
  have hopcode : w.extractLsb' 24 8 = (wordN op).extractLsb' 24 8 := by
    rw [extractLsb'_of_field hop, extractLsb'_of_field (opcode_wordN op)]
  have hmatch : w &&& mask = wordN op ↔ c := by
    rw [← hrest, ← BitVec.toNat_inj, hmask, hop, toNat_wordN]
    omega
  refine ⟨_, hrow, hopcode, ?_⟩
  by_cases hc : c
  · rw [if_pos hc]
    exact .inl ⟨hmatch.2 hc, i, rfl, hi hc⟩
  · rw [if_neg hc]
    exact .inr ⟨mt hmatch.1 hc, rfl⟩

/-- A format without reserved bits. -/
theorem answersAsTable_ok {i : Instr} (hrow : ⟨name, wordN op, 0xFF000000#32⟩ ∈ opcodeTable)
    (hi : IsCommandOf name w i) : AnswersAsTable w (.ok i) := by
  have h := answersAsTable_ite (rest := 0) (c := True) op hop hrow (by rw [toNat_and_maskOp, Nat.add_zero])
    (by simp) fun _ => hi
  rwa [if_pos trivial] at h

theorem answersAsTable_formatN {i : Instr} (hrow : ⟨name, wordN op, 0xFFFFFFFF#32⟩ ∈ opcodeTable)
    (hi : IsCommandOf name (wordN op) i) : AnswersAsTable w (formatN w i) :=
  answersAsTable_ite op hop hrow (toNat_and_maskN w) .rfl fun h0 => wordN_of_fields hop h0 ▸ hi

theorem answersAsTable_formatB {k : Bool → Instr} (hrow : ⟨name, wordN op, 0xFFFFFFFE#32⟩ ∈ opcodeTable)
    (hk : ∀ b, IsCommandOf name (wordB op b) (k b)) : AnswersAsTable w (formatB w k) :=
  answersAsTable_ite op hop hrow (toNat_and_maskB w) (by simp) fun h0 => by
    simpa only [wordB_of_fields hop h0] using hk (w.getLsbD 0)

theorem answersAsTable_formatI8 {k : Byte → Instr} (hrow : ⟨name, wordN op, 0xFFFFFF00#32⟩ ∈ opcodeTable)
    (hk : ∀ x, IsCommandOf name (wordI8 op x) (k x)) : AnswersAsTable w (formatI8 w k) :=
  answersAsTable_ite op hop hrow (toNat_and_maskI8 w) (by simp) fun h0 => by
    simpa only [wordI8_of_fields hop h0] using hk (w.extractLsb' 0 8)

theorem answersAsTable_formatT {k : Nat → Bool → Instr} (hrow : ⟨name, wordN op, 0xFF7FFF00#32⟩ ∈ opcodeTable)
    (hk : ∀ t < 2 ^ 8, ∀ rem, IsCommandOf name (wordT op t rem) (k t rem)) : AnswersAsTable w (formatT w k) :=
  answersAsTable_ite op hop hrow (toNat_and_maskT w) (by simp) fun h0 => by
    simpa only [wordT_of_fields hop h0] using hk _ (field_lt w 0 8) (w.getLsbD 23)

theorem answersAsTable_formatD {k : Bool → Nat → Instr} (hrow : ⟨name, wordN op, 0xFF7F0000#32⟩ ∈ opcodeTable)
    (hk : ∀ strict, ∀ nbits < 2 ^ 16, IsCommandOf name (wordD op strict nbits) (k strict nbits)) :
    AnswersAsTable w (formatD w k) :=
  answersAsTable_ite op hop hrow (toNat_and_maskD w) (by simp) fun h0 => by
    simpa only [wordD_of_fields hop h0] using hk (w.getLsbD 23) _ (field_lt w 0 16)

theorem answersAsTable_formatW {k : Nat → Nat → Instr} (hrow : ⟨name, wordN op, 0xFF000000#32⟩ ∈ opcodeTable)
    (hk : ∀ nbits < 2 ^ 8, ∀ reps < 2 ^ 16, IsCommandOf name (wordW op nbits reps) (k nbits reps)) :
    AnswersAsTable w (formatW w k) :=
  answersAsTable_ok op hop hrow <| by
    simpa only [wordW_of_fields hop] using hk _ (field_lt w 16 8) _ (field_lt w 0 16)

theorem answersAsTable_formatF {k : Nat → Nat → Instr} (hrow : ⟨name, wordN op, 0xFF000000#32⟩ ∈ opcodeTable)
    (hk : ∀ nbytes < 2 ^ 8, ∀ reps < 2 ^ 16, IsCommandOf name (wordF op nbytes reps) (k nbytes reps)) :
    AnswersAsTable w (formatF w k) :=
  answersAsTable_formatW op hop hrow hk

theorem answersAsTable_formatE {k : Byte → Byte → Byte → Instr}
    (hrow : ⟨name, wordN op, 0xFF000000#32⟩ ∈ opcodeTable)
    (hk : ∀ d s f, IsCommandOf name (wordE op d s f) (k d s f)) : AnswersAsTable w (formatE w k) :=
  answersAsTable_ok op hop hrow <| by
    simpa only [wordE_of_fields hop] using hk (w.extractLsb' 16 8) (w.extractLsb' 8 8) (w.extractLsb' 0 8)

theorem answersAsTable_formatX {k : Bool → Nat → Nat → Instr}
    (hrow : ⟨name, wordN op, 0xFF000000#32⟩ ∈ opcodeTable)
    (hk : ∀ tsel, ∀ n < 2 ^ 7, ∀ offset < 2 ^ 16, IsCommandOf name (wordX op tsel n offset) (k tsel n offset)) :
    AnswersAsTable w (formatX w k) :=
  answersAsTable_ok op hop hrow <| by
    simpa only [wordX_of_fields hop] using hk (w.getLsbD 23) _ (field_lt w 16 7) _ (field_lt w 0 16)

theorem answersAsTable_formatR {k : Nat → Instr} (hrow : ⟨name, wordN op, 0xFFFF0000#32⟩ ∈ opcodeTable)
    (hk : ∀ reps < 2 ^ 16, IsCommandOf name (wordR op reps) (k reps)) : AnswersAsTable w (formatR w k) :=
  answersAsTable_ite op hop hrow (toNat_and_maskR w) (by simp) fun h0 => by
    simpa only [wordR_of_fields hop h0] using hk _ (field_lt w 0 16)

end

/-- What `decode` answers for every word: the opcode map row by row, and an unused opcode where no row has the word's
opcode. -/
theorem decode_cases (w : BitVec 32) :
    AnswersAsTable w (decode w) ∨
    (decode w = .error .unusedOpcode ∧ ∀ r ∈ opcodeTable, w.extractLsb' 24 8 ≠ r.pattern.extractLsb' 24 8) := by
  unfold decode
  split
  next h => exact .inl (answersAsTable_formatN 0x01#8 h (by decide) ⟨rfl, rfl, rfl⟩)
  next h => exact .inl (answersAsTable_formatX 0x02#8 h (by decide)
      fun _ _ hn _ ho => ⟨rfl, by simpa [Instr.wellFormed] using ⟨hn, ho⟩, rfl⟩)
  next h => exact .inl (answersAsTable_formatE 0x10#8 h (by decide) fun _ _ _ => ⟨rfl, rfl, rfl⟩)
  next h => exact .inl (answersAsTable_formatW 0x11#8 h (by decide)
      fun _ hn _ hr => ⟨rfl, by simpa [Instr.wellFormed] using ⟨hn, hr⟩, rfl⟩)
  next h => exact .inl (answersAsTable_formatD 0x12#8 h (by decide) fun _ n hn => ⟨rfl, decide_eq_true hn, rfl⟩)
  next h => exact .inl (answersAsTable_formatF 0x20#8 h (by decide)
      fun _ hn _ hr => ⟨rfl, by simpa [Instr.wellFormed] using ⟨hn, hr⟩, rfl⟩)
  next h => exact .inl (answersAsTable_formatD 0x21#8 h (by decide) fun _ n hn => ⟨rfl, decide_eq_true hn, rfl⟩)
  next h => exact .inl (answersAsTable_formatI8 0x30#8 h (by decide)
      fun x => ⟨by simp [encode], decide_eq_true x.isLt, rfl⟩)
  next h => exact .inl (answersAsTable_formatI8 0x31#8 h (by decide)
      fun x => ⟨by simp [encode], decide_eq_true x.isLt, rfl⟩)
  next h => exact .inl (answersAsTable_formatN 0x40#8 h (by decide) ⟨rfl, rfl, rfl⟩)
  next h => exact .inl (answersAsTable_formatN 0x41#8 h (by decide) ⟨rfl, rfl, rfl⟩)
  next h => exact .inl (answersAsTable_formatN 0x42#8 h (by decide) ⟨rfl, rfl, rfl⟩)
  next h => exact .inl (answersAsTable_formatR 0x43#8 h (by decide) fun _ hr => ⟨rfl, decide_eq_true hr, rfl⟩)
  next h => exact .inl (answersAsTable_formatI8 0x44#8 h (by decide) fun _ => ⟨rfl, rfl, rfl⟩)
  next h => exact .inl (answersAsTable_formatN 0x45#8 h (by decide) ⟨rfl, rfl, rfl⟩)
  next h => exact .inl (answersAsTable_formatN 0x50#8 h (by decide) ⟨rfl, rfl, rfl⟩)
  next h => exact .inl (answersAsTable_formatN 0x51#8 h (by decide) ⟨rfl, rfl, rfl⟩)
  next h => exact .inl (answersAsTable_formatB 0x52#8 h (by decide) fun _ => ⟨rfl, rfl, rfl⟩)
  next h => exact .inl (answersAsTable_formatN 0x53#8 h (by decide) ⟨rfl, rfl, rfl⟩)
  next h => exact .inl (answersAsTable_formatI8 0x54#8 h (by decide) fun _ => ⟨rfl, rfl, rfl⟩)
  next h => exact .inl (answersAsTable_formatN 0x55#8 h (by decide) ⟨rfl, rfl, rfl⟩)
  next h => exact .inl (answersAsTable_formatT 0x56#8 h (by decide) fun t ht _ => ⟨rfl, decide_eq_true ht, rfl⟩)
  next h => exact .inl (answersAsTable_formatN 0x57#8 h (by decide) ⟨rfl, rfl, rfl⟩)
  next h => exact .inl (answersAsTable_formatI8 0x58#8 h (by decide)
      fun x => ⟨by simp [encode], decide_eq_true x.isLt, rfl⟩)
  next h => exact .inl (answersAsTable_formatN 0x59#8 h (by decide) ⟨rfl, rfl, rfl⟩)
  next h => exact .inl (answersAsTable_formatI8 0x5A#8 h (by decide) fun _ => ⟨rfl, rfl, rfl⟩)
  next h => exact .inl (answersAsTable_formatN 0x5B#8 h (by decide) ⟨rfl, rfl, rfl⟩)
  next h => exact .inl (answersAsTable_formatI8 0x5C#8 h (by decide)
      fun x => ⟨by simp [encode], decide_eq_true x.isLt, rfl⟩)
  next h => exact .inl (answersAsTable_formatN 0x5D#8 h (by decide) ⟨rfl, rfl, rfl⟩)
  next h => exact .inl (answersAsTable_formatB 0x5E#8 h (by decide) fun _ => ⟨rfl, rfl, rfl⟩)
  next h => exact .inl (answersAsTable_formatN 0x5F#8 h (by decide) ⟨rfl, rfl, rfl⟩)
  next h => exact .inl (answersAsTable_formatB 0x60#8 h (by decide) fun _ => ⟨rfl, rfl, rfl⟩)
  next h => exact .inl (answersAsTable_formatN 0x61#8 h (by decide) ⟨rfl, rfl, rfl⟩)
  next =>
    refine .inr ⟨rfl, fun r hr he => ?_⟩
    have hf : field w 24 8 = (r.pattern.extractLsb' 24 8).toNat := congrArg BitVec.toNat he
    fin_cases hr <;> contradiction

/-! ### The rows of the table are told apart by the opcode -/

/-- Every mask has the opcode's eight bits (R111), so that a word which matches a row has the row's opcode. -/
theorem opcode_eq_of_matches {w : BitVec 32} {r : OpRow} (hr : r ∈ opcodeTable) (h : w &&& r.mask = r.pattern) :
    w.extractLsb' 24 8 = r.pattern.extractLsb' 24 8 := by
  have hmask : ∀ r ∈ opcodeTable, r.mask.extractLsb' 24 8 = BitVec.allOnes 8 := by decide
  rw [← h, BitVec.extractLsb'_and, hmask r hr, BitVec.and_allOnes]

/-- No two rows share an opcode (R104), so a word's opcode is that of at most one row. -/
theorem row_eq_of_opcode {w : BitVec 32} {r r' : OpRow} (hr : r ∈ opcodeTable) (hr' : r' ∈ opcodeTable)
    (h : w.extractLsb' 24 8 = r.pattern.extractLsb' 24 8) (h' : w.extractLsb' 24 8 = r'.pattern.extractLsb' 24 8) :
    r' = r := by
  have hnodup : (opcodeTable.map fun r => r.pattern.extractLsb' 24 8).Nodup := by decide
  exact List.inj_on_of_nodup_map hnodup hr' hr (h'.symm.trans h)

end Sys2Proof
end

section
/-! PROOFS. The obligations on the encoding (30_encoding.md R93–R111). -/

namespace Sys2Proof

/-- Settles O1: the opcode of the command's word selects the command's format, and the format reads back the operands
that fit their fields. -/
theorem decodeOfEncodeIsTheCommand : Obligations.DecodeOfEncodeIsTheCommand := by
  unfold Obligations.DecodeOfEncodeIsTheCommand
  intro i hwf
  cases i with
  | extract tsel n offset =>
    obtain ⟨hn, ho⟩ : n < 2 ^ 7 ∧ offset < 2 ^ 16 := by simpa [Instr.wellFormed] using hwf
    simp [encode, decode, formatX_wordX _ _ hn ho]
  | wordEncode device subdevice function => simp [encode, decode]
  | wordSend nbits reps =>
    obtain ⟨hn, hr⟩ : nbits < 2 ^ 8 ∧ reps < 2 ^ 16 := by simpa [Instr.wellFormed] using hwf
    simp [encode, decode, formatW_wordW _ hn hr]
  | frameSend nbytes reps =>
    obtain ⟨hn, hr⟩ : nbytes < 2 ^ 8 ∧ reps < 2 ^ 16 := by simpa [Instr.wellFormed] using hwf
    simp [encode, decode, formatF_wordF _ hn hr]
  | wordDecode strict nbits | frameDecode strict nbits =>
    have hn : nbits < 2 ^ 16 := by simpa [Instr.wellFormed] using hwf
    simp [encode, decode, formatD_wordD _ _ hn]
  | acSend reps =>
    have hr : reps < 2 ^ 16 := by simpa [Instr.wellFormed] using hwf
    simp [encode, decode, formatR_wordR _ hr]
  | acSetTemp t rem =>
    have ht : t < 2 ^ 8 := by simpa [Instr.wellFormed] using hwf
    simp [encode, decode, formatT_wordT _ ht]
  | csumCalc x | csumValid x | acSetSwingV x | acSetFan x =>
    have hx : x < 2 ^ 8 := by simpa [Instr.wellFormed] using hwf
    simpa [encode, decode] using hx
  | acSetModel x | acSetMode x | acSetSwingH x => simp [encode, decode]
  | acSetPower b | acSetQuiet b | acSetPowerful b => simp [encode, decode]
  | cal | acReset | acGetRaw | acSetRaw | acGetModel | acOn | acOff | acGetPower | acGetMode | acGetTemp
  | acGetSwingV | acGetSwingH | acGetFan | acGetQuiet | acGetPowerful => simp [encode, decode]

/-- Settles O2: of the answers of `decode_cases`, the only command is the well-formed one that the word encodes. -/
theorem encodeOfDecodeIsTheWord : Obligations.EncodeOfDecodeIsTheWord := by
  unfold Obligations.EncodeOfDecodeIsTheWord
  intro w i h
  rcases decode_cases w with ⟨r, -, -, ⟨-, j, hj, henc, hwf, -⟩ | ⟨-, hd⟩⟩ | ⟨hd, -⟩
  · obtain rfl : j = i := Except.ok.inj (hj.symm.trans h)
    exact ⟨henc, hwf⟩
  · cases hd.symm.trans h
  · cases hd.symm.trans h

/-- Settles O3: the row a word matches is the one of its opcode. -/
theorem wordMatchesOneRowOrIsIllegal : Obligations.WordMatchesOneRowOrIsIllegal := by
  unfold Obligations.WordMatchesOneRowOrIsIllegal
  intro w
  rcases decode_cases w with ⟨r, hr, hop, hrow⟩ | ⟨hd, hnone⟩
  · have hunique : ∀ r' ∈ opcodeTable, w &&& r'.mask = r'.pattern → r' = r := fun r' hr' h =>
      row_eq_of_opcode hr hr' hop (opcode_eq_of_matches hr' h)
    rcases hrow with ⟨hmatch, i, hi, -, -, hname⟩ | ⟨hmiss, hd⟩
    · exact .inl ⟨r, hr, hmatch, hunique, i, hi, hname⟩
    · exact .inr ⟨fun r' hr' h => hmiss (hunique r' hr' h ▸ h), _, hd⟩
  · exact .inr ⟨fun r hr h => hnone r hr (opcode_eq_of_matches hr h), _, hd⟩

/-- Settles O4: the three answers of `decode_cases` exclude each other, since the row of an opcode is unique. -/
theorem illegalWordsAreUnusedOpcodesOrReservedBits : Obligations.IllegalWordsAreUnusedOpcodesOrReservedBits := by
  unfold Obligations.IllegalWordsAreUnusedOpcodesOrReservedBits
  refine ⟨fun w => ?_, fun w why s h => ?_, by decide⟩
  · rcases decode_cases w with ⟨r, hr, hop, hrow⟩ | ⟨hd, hnone⟩
    · have hused : ¬ ∀ r ∈ opcodeTable, w.extractLsb' 24 8 ≠ r.pattern.extractLsb' 24 8 := fun h => h r hr hop
      rcases hrow with ⟨hmatch, i, hi, -⟩ | ⟨hmiss, hd⟩
      · rw [hi]
        refine ⟨iff_of_false nofun hused, iff_of_false nofun ?_⟩
        rintro ⟨r', hr', hop', hmiss⟩
        exact hmiss (row_eq_of_opcode hr hr' hop hop' ▸ hmatch)
      · rw [hd]
        exact ⟨iff_of_false nofun hused, iff_of_true rfl ⟨r, hr, hop, hmiss⟩⟩
    · rw [hd]
      refine ⟨iff_of_true rfl hnone, iff_of_false nofun ?_⟩
      rintro ⟨r, hr, hop, -⟩
      exact hnone r hr hop
  · rw [Machine.issueWord, h]

/-- Settles O5: each word is evaluated. -/
theorem sampleWordsDecodeAsTheSpecEncodesThem : Obligations.SampleWordsDecodeAsTheSpecEncodesThem := by
  unfold Obligations.SampleWordsDecodeAsTheSpecEncodesThem
  decide

end Sys2Proof
end

section
/-! PROOFS. The matching primitives as windows, the template sets under the default parameters, and how CAL and EXTRACT
end (40_calibrator_extractor.md R120–R130). -/

namespace Sys2Proof.Machine

/-! ### The windows (R120–R124) -/

/-- `Low` without its division (R120). -/
theorem windowLow_le_iff {d tol m : Nat} : windowLow d tol ≤ m ↔ d * (100 - tol) < 100 * (m + 1) := by
  rw [windowLow]
  omega

/-- `High` without its division (R121). -/
theorem le_windowHigh_iff {d tol m : Nat} : m ≤ windowHigh d tol ↔ 100 * m ≤ d * (100 + tol) + 100 := by
  rw [windowHigh]
  omega

theorem windowMatch_some_iff {m d tol : Nat} :
    windowMatch (some m) d tol = true ↔ windowLow d tol ≤ m ∧ m ≤ windowHigh d tol := by
  simp only [windowMatch, Bool.and_eq_true, decide_eq_true_eq]

/-- A sample other than 0 passes the trailing gap at the low bound of the capped threshold (R124). -/
theorem matchAtLeast_some_iff {p : Config.Params} {d tol m : Nat} (hm : 0 < m) :
    matchAtLeast p (some m) d tol = true ↔ windowLow (min d p.captureTimeout) tol ≤ m := by
  simp only [matchAtLeast, Bool.or_eq_true, beq_iff_eq, Nat.pos_iff_ne_zero.1 hm, false_or, decide_eq_true_eq]

/-- Where one space window ends below the other, no sample is in both. -/
theorem not_matchSpace_both {m d e tol exc : Nat} (h : windowHigh (e - exc) tol < windowLow (d - exc) tol) :
    ¬(matchSpace (some m) d tol exc = true ∧ matchSpace (some m) e tol exc = true) := by
  rintro ⟨hd, he⟩
  obtain ⟨hlow, -⟩ := windowMatch_some_iff.1 hd
  obtain ⟨-, hhigh⟩ := windowMatch_some_iff.1 he
  omega

/-! ### The bit of a pair (R127) -/

theorem pairBit_eq_true_iff {t : Template} {m x : Option Nat} :
    pairBit t m x = some true ↔
      matchMark m t.oneMark t.tol t.exc = true ∧ matchSpace x t.oneSpace t.tol t.exc = true := by
  rw [pairBit, ← Bool.and_eq_true]
  split
  · next hone => exact iff_of_true rfl hone
  · next hone => split <;> exact iff_of_false nofun hone

theorem pairBit_eq_false_iff {t : Template} {m x : Option Nat} :
    pairBit t m x = some false ↔
      ¬(matchMark m t.oneMark t.tol t.exc = true ∧ matchSpace x t.oneSpace t.tol t.exc = true) ∧
      matchMark m t.zeroMark t.tol t.exc = true ∧ matchSpace x t.zeroSpace t.tol t.exc = true := by
  rw [pairBit, ← Bool.and_eq_true, ← Bool.and_eq_true]
  split
  · next hone => exact iff_of_false nofun fun h => h.1 hone
  · next hone =>
    split
    · next hzero => exact iff_of_true rfl ⟨hone, hzero⟩
    · next hzero => exact iff_of_false nofun fun h => hzero h.2

/-- A pair whose space lies past RAWLEN carries no bit: ⊥ matches nothing (R122). -/
theorem pairBit_none_right (t : Template) (m : Option Nat) : pairBit t m none = none := by
  simp only [pairBit, matchSpace, windowMatch, Bool.and_false, Bool.false_eq_true, if_false]

theorem sample_eq_none {s : State} {i : Nat} (h : s.rawlen.toNat ≤ i) : s.sample i = none :=
  if_neg (Nat.not_lt.2 h)

/-! ### The template sets under the default parameters (R125, R130) -/

theorem wordTemplate_of_defaultTiming {p : Config.Params} (h : DefaultTiming p) (mt st : Nat) :
    wordTemplate p mt st = ⟨1 * mt, 3 * st, 1 * mt, 1 * st, 25, 50, true⟩ := by
  rw [h]
  rfl

theorem frameTemplate_of_defaultTiming {p : Config.Params} (h : DefaultTiming p) :
    frameTemplate p = ⟨432, 1296, 432, 432, 40, 0, true⟩ := by
  rw [h]
  rfl

/-! ### How CAL and EXTRACT end (R128, R129) -/

/-- A command that does nothing but end writes nothing but STATUS. -/
theorem writeOutcome_changesOnlyStatus (ok ign : Bool) (s : State) :
    EndsWith ok ign s (writeOutcome ok ign s) ∧ KeepsBut [.status] [] s (writeOutcome ok ign s) ∧
      MemoriesKept s (writeOutcome ok ign s) :=
  ⟨endsWith_writeOutcome rfl, keepsBut_writeOutcome ok ign s, memoriesKept_of_eq rfl rfl rfl rfl⟩

/-- A command that writes none of the three memories keeps what they read. -/
theorem memoriesKept_of_untouched {s t : State} (h : Untouched s t) (hd : t.dbuf = s.dbuf) (hp : t.plan = s.plan) :
    MemoriesKept s t := by
  obtain ⟨hraw, -, -, hdraw⟩ := h
  exact memoriesKept_of_eq hraw hd hp hdraw

theorem exec_cal_of_two_le {s : State} (h : 2 ≤ s.rawlen.toNat) :
    exec .cal s = .next (writeOutcome true false
      { s with mtick := BitVec.ofNat 32 ((s.rawEntry 0).toNat / 8),
               stick := BitVec.ofNat 32 ((s.rawEntry 1).toNat / 4) }) :=
  if_neg (Nat.not_lt.2 h)

theorem exec_cal_of_lt_two {s : State} (h : s.rawlen.toNat < 2) :
    exec .cal s = .next (writeOutcome false false s) :=
  if_pos h

theorem exec_extract_of_some {s : State} {tsel : Bool} {n offset v u : Nat}
    (h : extractBits s offset n (selectTemplate tsel s) = some (v, u)) :
    exec (.extract tsel n offset) s = .next (writeOutcome true false
      { s with value := BitVec.ofNat 64 v, used := BitVec.ofNat 16 u }) := by
  obtain ⟨hn, -⟩ := extractBits_some h
  simp only [exec, execExtract, if_neg (show ¬valueBits < n from Nat.not_lt.2 hn), h, succeed_eq]

theorem exec_extract_of_none {s : State} {tsel : Bool} {n offset : Nat}
    (h : extractBits s offset n (selectTemplate tsel s) = none) :
    exec (.extract tsel n offset) s = .next (writeOutcome false false s) := by
  simp only [exec, execExtract, h, fail_eq, ite_self]

/-- An extraction of more than 64 bits, or with a pair that carries none, gives no value (R127). -/
theorem extractBits_eq_none {s : State} {off n : Nat} {t : Template}
    (h : 64 < n ∨ ∃ k, k < n ∧ pairBit t (s.sample (off + 2 * k)) (s.sample (off + 2 * k + 1)) = none) :
    extractBits s off n t = none := by
  rw [extractBits]
  split
  · rfl
  · next hn =>
    obtain ⟨k, hk, hpair⟩ := h.resolve_left hn
    rw [extractPairs_eq_none hk hpair]

end Sys2Proof.Machine
end

section
/-! PROOFS. The obligations on matching, calibration and extraction (40_calibrator_extractor.md). -/

namespace Sys2Proof.Machine

/-- Settles O26: the value of the pairs has their bits in place and fits VALUE, which EXTRACT stores with USED. -/
theorem extractPutsEachPairsBitInItsPlace : Obligations.ExtractPutsEachPairsBitInItsPlace := by
  unfold Obligations.ExtractPutsEachPairsBitInItsPlace
  intro s tsel n offset bit hn hpairs
  obtain ⟨v, hv, -, hbit⟩ := extractBits_of_pairs hn hpairs
  have hexec := exec_extract_of_some hv
  obtain ⟨hkeeps, -, huntouched, hdbuf, hplan⟩ := frame_extract tsel n offset hexec
  refine ⟨_, hexec, fun k hk => ?_, toNat_ofNat_of_lt (by omega), endsWith_writeOutcome rfl, hkeeps,
    memoriesKept_of_untouched huntouched hdbuf hplan⟩
  rw [writeOutcome_value, BitVec.getLsbD_ofNat, decide_eq_true hk, Bool.true_and, hbit]

/-- Settles O27: in each case the extraction gives no value; a pair past RAWLEN is one that matches neither template. -/
theorem extractFailsWithoutEffect : Obligations.ExtractFailsWithoutEffect := by
  unfold Obligations.ExtractFailsWithoutEffect
  intro s tsel n offset h
  have hnone : extractBits s offset n (selectTemplate tsel s) = none := by
    refine extractBits_eq_none (h.imp_right ?_)
    rintro ⟨k, hk, hpair | hpast⟩
    · exact ⟨k, hk, hpair⟩
    · exact ⟨k, hk, by rw [sample_eq_none hpast, pairBit_none_right]⟩
  exact ⟨_, exec_extract_of_none hnone, writeOutcome_changesOnlyStatus false false s⟩

/-- Settles O23: each bound of a window is its division cleared. -/
theorem matchPrimitivesAreTheToleranceWindows : Obligations.MatchPrimitivesAreTheToleranceWindows := by
  unfold Obligations.MatchPrimitivesAreTheToleranceWindows
  refine ⟨fun d tol exc m => ⟨?_, rfl, rfl, fun _ => rfl, fun h => ?_⟩, fun p d tol m => ⟨rfl, rfl, fun hm => ?_⟩,
    fun t m x => ⟨pairBit_eq_true_iff, pairBit_eq_false_iff⟩⟩
  · exact windowMatch_some_iff.trans (and_congr windowLow_le_iff le_windowHigh_iff)
  · rw [matchSpace, Nat.sub_eq_zero_of_le h]
  · exact (matchAtLeast_some_iff hm).trans windowLow_le_iff

/-- Settles O24: under the default timing each window's bounds are numbers, and the zero space's window ends below the
one space's. -/
theorem templateSetsAndTheirDefaultWindows : Obligations.TemplateSetsAndTheirDefaultWindows := by
  unfold Obligations.TemplateSetsAndTheirDefaultWindows
  refine ⟨?_, ?_, fun s => ⟨rfl, rfl⟩, fun p hp m => ?_⟩
  · rintro p mt st _ rfl
    exact ⟨Nat.one_mul mt, rfl, Nat.one_mul mt, Nat.one_mul st, rfl, rfl, rfl⟩
  · rintro p _ rfl
    exact ⟨Nat.one_mul p.tau, rfl, Nat.one_mul p.tau, Nat.one_mul p.tau, rfl, rfl, rfl⟩
  · rw [wordTemplate_of_defaultTiming hp, frameTemplate_of_defaultTiming hp]
    refine ⟨?_, ?_, ?_⟩
    · rintro _ rfl
      exact ⟨windowMatch_some_iff, windowMatch_some_iff, windowMatch_some_iff, windowMatch_some_iff⟩
    · rintro _ rfl
      exact ⟨windowMatch_some_iff, windowMatch_some_iff, windowMatch_some_iff, windowMatch_some_iff⟩
    · rintro _ (rfl | rfl)
      · exact not_matchSpace_both (by decide)
      · exact not_matchSpace_both (by decide)

/-- Settles O25: an eighth and a quarter of a 32-bit sample fit the 32 bits of a tick. -/
theorem calDerivesTicksFromTheHeader : Obligations.CalDerivesTicksFromTheHeader := by
  unfold Obligations.CalDerivesTicksFromTheHeader
  refine ⟨by decide, fun s => ⟨fun h => ?_, fun h => ?_⟩⟩
  · have hexec := exec_cal_of_two_le h
    have hfits (i c : Nat) : (s.rawEntry i).toNat / c < 2 ^ 32 :=
      Nat.lt_of_le_of_lt (Nat.div_le_self _ _) (s.rawEntry i).isLt
    obtain ⟨hkeeps, -, huntouched, hdbuf, hplan⟩ := frame_cal hexec
    exact ⟨_, hexec, toNat_ofNat_of_lt (hfits 0 8), toNat_ofNat_of_lt (hfits 1 4), endsWith_writeOutcome rfl, hkeeps,
      memoriesKept_of_untouched huntouched hdbuf hplan⟩
  · exact ⟨_, exec_cal_of_lt_two h, writeOutcome_changesOnlyStatus false false s⟩

end Sys2Proof.Machine
end

section
/-! PROOFS. WORD_DECODE's verdict check by check, and how the three word commands end (41_word_codec.md R140–R146). -/

namespace Sys2Proof.Machine

/-! ### The Command48 (R140) -/

/-- The fields of a Command48 as one number (30_encoding.md R82). -/
theorem toNat_encode48 (mfr : BitVec 16) (dev sub fn : Byte) :
    (encode48 mfr dev sub fn).toNat = mfr.toNat * 2 ^ 32 + (dev ++ sub ++ fn ++ (dev ^^^ sub ^^^ fn)).toNat := by
  simp only [encode48, toNat_append_add, BitVec.toNat_ofNat]
  omega

/-- The high half of a Command48 is the manufacturer. -/
theorem encode48_div (mfr : BitVec 16) (dev sub fn : Byte) :
    (encode48 mfr dev sub fn).toNat / 2 ^ 32 = mfr.toNat := by
  rw [toNat_encode48]
  omega

/-- The low half of a Command48 is the command with its checksum. -/
theorem encode48_mod (mfr : BitVec 16) (dev sub fn : Byte) :
    (encode48 mfr dev sub fn).toNat % 2 ^ 32 = (dev ++ sub ++ fn ++ (dev ^^^ sub ^^^ fn)).toNat := by
  rw [toNat_encode48]
  omega

theorem encode48_fields (mfr : BitVec 16) (dev sub fn : Byte) :
    (encode48 mfr dev sub fn).extractLsb' 48 16 = 0#16 ∧ (encode48 mfr dev sub fn).extractLsb' 32 16 = mfr ∧
    (encode48 mfr dev sub fn).extractLsb' 24 8 = dev ∧ (encode48 mfr dev sub fn).extractLsb' 16 8 = sub ∧
    (encode48 mfr dev sub fn).extractLsb' 8 8 = fn ∧
    (encode48 mfr dev sub fn).extractLsb' 0 8 = dev ^^^ sub ^^^ fn := by
  refine ⟨?_, ?_, ?_, ?_, ?_, ?_⟩
  all_goals
    apply BitVec.eq_of_toNat_eq
    rw [BitVec.extractLsb'_toNat, Nat.shiftRight_eq_div_pow, toNat_encode48]
    simp only [toNat_append_add, BitVec.toNat_ofNat]
    omega

/-- A Command48 has no bit from 48 up. -/
theorem getLsbD_encode48_of_le {mfr : BitVec 16} {dev sub fn : Byte} {k : Nat} (hk : 48 ≤ k) :
    (encode48 mfr dev sub fn).getLsbD k = false := by
  refine Nat.testBit_lt_two_pow (Nat.lt_of_lt_of_le ?_ (Nat.pow_le_pow_right (by decide) hk))
  rw [toNat_encode48]
  omega

/-- A value of the 48 low bits of a Command48 is the Command48. -/
theorem eq_encode48_of_lowBits {v : BitVec 64} {mfr : BitVec 16} {dev sub fn : Byte}
    (h : ∀ k, k < 64 → v.getLsbD k = (decide (k < 48) && (encode48 mfr dev sub fn).getLsbD k)) :
    v = encode48 mfr dev sub fn := by
  apply BitVec.eq_of_getLsbD_eq
  intro k hk
  rw [h k hk]
  by_cases h48 : k < 48
  · rw [decide_eq_true h48, Bool.true_and]
  · rw [decide_eq_false h48, Bool.false_and, getLsbD_encode48_of_le (Nat.not_lt.1 h48)]

/-! ### The bits of an extraction that succeeds (R127) -/

/-- Each pair of an extraction that succeeds carries the bit of the value in its place. -/
theorem pairBit_of_extractBits {s : State} {off n : Nat} {t : Template} {v u : Nat}
    (h : extractBits s off n t = some (v, u)) {k : Nat} (hk : k < n) :
    pairBit t (s.sample (off + 2 * k)) (s.sample (off + 2 * k + 1)) =
      some (v.testBit (if t.lsbFirst then k else n - 1 - k)) := by
  obtain ⟨hn, -, -⟩ := extractBits_some h
  have hsome (j : Nat) (hj : j < n) :
      pairBit t (s.sample (off + 2 * j)) (s.sample (off + 2 * j + 1)) =
        some ((pairBit t (s.sample (off + 2 * j)) (s.sample (off + 2 * j + 1))).getD false) := by
    cases hpair : pairBit t (s.sample (off + 2 * j)) (s.sample (off + 2 * j + 1)) with
    | none => cases (extractBits_eq_none (.inr ⟨j, hj, hpair⟩)).symm.trans h
    | some b => rfl
  obtain ⟨v', hv', -, hbit⟩ := extractBits_of_pairs hn hsome
  cases hv'.symm.trans h
  rw [hsome k hk, hbit]
  cases t.lsbFirst with
  | true => simp [hk]
  | false => simp [show n - 1 - k < n by omega, show n - 1 - (n - 1 - k) = k by omega]

/-! ### The checks of WORD_DECODE (R144) -/

theorem trailingGapOk_iff {s : State} {off d : Nat} :
    trailingGapOk s off d = true ↔
      (off < s.rawlen.toNat → matchAtLeast s.params (s.sample off) d s.params.tGap = true) := by
  rw [trailingGapOk, Bool.or_eq_true, decide_eq_true_eq, ← Nat.not_lt, ← imp_iff_not_or]

theorem wordStructureOk_lenient_iff {s : State} {n : Nat} :
    wordStructureOk s false n = true ↔ n ≤ 64 ∧ 2 * n + 3 ≤ s.rawlen.toNat := by
  rw [wordStructureOk, Bool.not_false, Bool.true_or, Bool.and_true, Bool.and_eq_true, decide_eq_true_eq,
    decide_eq_true_eq]
  rfl

theorem wordStructureOk_strict_iff {s : State} {n : Nat} :
    wordStructureOk s true n = true ↔ wordStructureOk s false n = true ∧ n = 48 := by
  simp [wordStructureOk, wordBits]

/-- A check whose failure ends the decode passes exactly when the decode goes on to an answer. -/
theorem check_eq_ok_iff {c : Bool} {kind : FailKind} {r : Except FailKind (BitVec 64)} {v : BitVec 64} :
    (if c then r else .error kind) = .ok v ↔ c = true ∧ r = .ok v := by
  cases c <;> simp

theorem compliance_eq_ok_iff {strict : Bool} {mfr : BitVec 16} {w v : BitVec 64} :
    (if strict && !wordCompliant w mfr then Except.error FailKind.compliance else .ok w) = .ok v ↔
      w = v ∧ (strict = true → wordCompliant v mfr = true) := by
  have hvalue : w = v ∧ (strict = true → wordCompliant v mfr = true) ↔
      w = v ∧ (strict = true → wordCompliant w mfr = true) := and_congr_right fun e => by rw [e]
  rw [hvalue]
  cases strict <;> cases wordCompliant w mfr <;> simp

/-- A decode gives `v` when every check passes, the pairs carry `v` and, in strict mode, `v` is compliant. -/
theorem wordDecode_ok_iff {s : State} {strict : Bool} {n : Nat} {v : BitVec 64} :
    wordDecode s strict n = .ok v ↔
      wordStructureOk s strict n = true ∧ wordHeaderOk s = true ∧
      (∃ x, extractBits s 2 n (wordTemplate s.params (wordTicks s).1 (wordTicks s).2) = some (x, 2 * n) ∧
        BitVec.ofNat 64 x = v) ∧
      wordFooterOk s (2 + 2 * n) = true ∧ (strict = true → wordCompliant v s.mfr = true) := by
  rw [wordDecode, check_eq_ok_iff, check_eq_ok_iff]
  refine and_congr_right fun _ => and_congr_right fun _ => ?_
  cases hx : extractBits s 2 n (wordTemplate s.params (wordTicks s).1 (wordTicks s).2) with
  | none => simp
  | some r =>
    obtain ⟨x, u⟩ := r
    obtain ⟨-, rfl, -⟩ := extractBits_some hx
    simp only [check_eq_ok_iff, compliance_eq_ok_iff, Option.some.injEq, Prod.mk.injEq, and_true, exists_eq_left']
    exact and_left_comm

/-- A strict decode is a lenient one of width 48 whose value is compliant. -/
theorem wordDecode_strict_iff {s : State} {n : Nat} {v : BitVec 64} :
    wordDecode s true n = .ok v ↔ wordDecode s false n = .ok v ∧ n = 48 ∧ wordCompliant v s.mfr = true := by
  rw [wordDecode_ok_iff, wordDecode_ok_iff, wordStructureOk_strict_iff]
  tauto

theorem wordCompliant_iff {v : BitVec 64} {mfr : BitVec 16} :
    wordCompliant v mfr = true ↔
      v.toNat / 2 ^ 32 = mfr.toNat ∧
      v.extractLsb' 0 8 = v.extractLsb' 24 8 ^^^ v.extractLsb' 16 8 ^^^ v.extractLsb' 8 8 := by
  have hlow {k : Nat} (hk : k + 8 ≤ 32) : (v.extractLsb' 0 32).extractLsb' k 8 = v.extractLsb' k 8 := by
    rw [BitVec.extractLsb'_extractLsb'_of_le hk]
  rw [wordCompliant, wordChecksumOk, Bool.and_eq_true, beq_iff_eq, beq_iff_eq, hlow (by decide), hlow (by decide),
    hlow (by decide), hlow (by decide), ← BitVec.toNat_inj, BitVec.toNat_ushiftRight, Nat.shiftRight_eq_div_pow,
    BitVec.toNat_setWidth_of_le (by decide)]

theorem le_64_of_wordDecode_ok {s : State} {strict : Bool} {n : Nat} {v : BitVec 64}
    (h : wordDecode s strict n = .ok v) : n ≤ 64 := by
  obtain ⟨-, -, ⟨x, hx, -⟩, -⟩ := wordDecode_ok_iff.1 h
  exact (extractBits_some hx).1

/-- A Command48 is compliant with its own manufacturer (R147). -/
theorem wordCompliant_encode48 (mfr : BitVec 16) (dev sub fn : Byte) :
    wordCompliant (encode48 mfr dev sub fn) mfr = true := by
  obtain ⟨-, -, hdev, hsub, hfn, hxor⟩ := encode48_fields mfr dev sub fn
  exact wordCompliant_iff.2 ⟨encode48_div mfr dev sub fn, by rw [hdev, hsub, hfn, hxor]⟩

/-! ### A matching message (R144) -/

/-- The lenient checks, one by one, are what `WordMatches` says. -/
theorem wordMatches_iff {s : State} {n : Nat} {bit : Nat → Bool} :
    WordMatches s n bit ↔
      wordStructureOk s false n = true ∧ wordHeaderOk s = true ∧
      (∀ k, k < n → pairBit (wordTemplate s.params (wordTicks s).1 (wordTicks s).2)
        (s.sample (2 + 2 * k)) (s.sample (2 + 2 * k + 1)) = some (bit k)) ∧
      wordFooterOk s (2 + 2 * n) = true := by
  simp only [WordMatches, wordStructureOk_lenient_iff, wordHeaderOk, wordFooterOk, Bool.and_eq_true, trailingGapOk_iff,
    and_assoc, Nat.add_comm 2, Nat.add_comm 3]
  rfl

/-- A lenient decode gives the bits of a matching message. -/
theorem wordDecode_of_wordMatches {s : State} {n : Nat} {bit : Nat → Bool} (h : WordMatches s n bit) :
    ∃ v, wordDecode s false n = .ok v ∧
      ∀ k, k < 64 → v.getLsbD k = (decide (k < n) && bit (if s.params.wordLsbFirst then k else n - 1 - k)) := by
  obtain ⟨hstructure, hheader, hpairs, hfooter⟩ := wordMatches_iff.1 h
  obtain ⟨x, hx, -, hbit⟩ := extractBits_of_pairs (wordStructureOk_lenient_iff.1 hstructure).1 hpairs
  refine ⟨BitVec.ofNat 64 x, wordDecode_ok_iff.2 ⟨hstructure, hheader, ⟨x, hx, rfl⟩, hfooter, nofun⟩,
    fun k hk => ?_⟩
  rw [BitVec.getLsbD_ofNat, decide_eq_true hk, Bool.true_and]
  exact hbit k

/-- A lenient decode that gives `v` read a message of the bits of `v`. -/
theorem wordMatches_of_wordDecode {s : State} {n : Nat} {v : BitVec 64} (h : wordDecode s false n = .ok v) :
    WordMatches s n (fun k => v.getLsbD (if s.params.wordLsbFirst then k else n - 1 - k)) := by
  have hn := le_64_of_wordDecode_ok h
  obtain ⟨hstructure, hheader, ⟨x, hx, rfl⟩, hfooter, -⟩ := wordDecode_ok_iff.1 h
  refine wordMatches_iff.2 ⟨hstructure, hheader, fun k hk => ?_, hfooter⟩
  have hidx : (if s.params.wordLsbFirst then k else n - 1 - k) < 64 := by split <;> omega
  simp only [BitVec.getLsbD_ofNat, decide_eq_true hidx, Bool.true_and]
  exact pairBit_of_extractBits hx hk

/-! ### How the three commands end (R141, R143, R145) -/

theorem exec_wordEncode (s : State) (dev sub fn : Byte) :
    exec (.wordEncode dev sub fn) s =
      .next (writeOutcome true false { s with value := encode48 s.mfr dev sub fn }) := rfl

theorem exec_wordDecode_of_ok {s : State} {strict : Bool} {n : Nat} {v : BitVec 64}
    (h : wordDecode s strict n = .ok v) :
    exec (.wordDecode strict n) s = .next (writeOutcome true false
      { s with value := v, address := v.extractLsb' 32 32, command := v.extractLsb' 0 32, proto := 1,
               bits := BitVec.ofNat 16 n }) := by
  simp only [exec, execWordDecode, h, succeed_eq]

theorem exec_wordDecode_of_error {s : State} {strict : Bool} {n : Nat} {kind : FailKind}
    (h : wordDecode s strict n = .error kind) :
    exec (.wordDecode strict n) s = .next (writeOutcome false false s) := by
  simp only [exec, execWordDecode, h, fail_eq]

/-- WORD_DECODE sets OK only where the decode gives a value, which VALUE then holds. -/
theorem wordDecode_of_exec_ok {s t : State} {strict : Bool} {n : Nat} (h : exec (.wordDecode strict n) s = .next t)
    (hok : t.ok = true) : wordDecode s strict n = .ok t.value := by
  cases hd : wordDecode s strict n with
  | error kind =>
    cases (exec_wordDecode_of_error hd).symm.trans h
    rw [writeOutcome_ok] at hok
    cases hok
  | ok v =>
    cases (exec_wordDecode_of_ok hd).symm.trans h
    rfl

end Sys2Proof.Machine
end

section
/-! PROOFS. The plan of WORD_SEND entry by entry, and the nominal message as WORD_DECODE reads it under the default
parameters (41_word_codec.md R142–R144, R147). -/

namespace Sys2Proof.Machine

/-! ### The word frame in PLAN (R142) -/

/-- Where the plan fits, WORD_SEND stores it. -/
theorem exec_wordSend_of_fit {s : State} {n r : Nat} (hn : n ≤ 64) (hcap : (2 * n + 4) * (r + 1) ≤ s.params.planCap) :
    exec (.wordSend n r) s =
      .next (writeOutcome true false (storePlan (repeatFrame (wordFrame s.params s.value n) r) s)) := by
  simp only [exec, execWordSend, if_neg (show ¬valueBits < n from Nat.not_lt.2 hn), writePlan, length_wordFrame,
    if_neg (Nat.not_lt.2 hcap), succeed_eq]

theorem getElem?_wordFrame_of_wordBody {p : Config.Params} {v : BitVec 64} {n i x : Nat}
    (h : (wordBody p v n)[i]? = some x) : (wordFrame p v n)[i]? = some x := by
  rw [wordFrame, List.getElem?_append_left (List.getElem?_eq_some_iff.1 h).1, h]

/-- The last entry of a word frame is its gap. -/
theorem getElem?_wordFrame_gap (p : Config.Params) (v : BitVec 64) (n : Nat) :
    (wordFrame p v n)[2 * n + 3]? =
      some (max (p.wordMingapT * p.tau) (p.wordFrameT * p.tau - (wordBody p v n).sum)) := by
  rw [← length_wordBody p v n, wordFrame, List.getElem?_concat_length]

theorem le_of_mem_bitPair {p : Config.Params} {b : Bool} {x : Nat} (h : x ∈ bitPair p b) : x ≤ 3 * p.tau := by
  cases b <;> simp only [bitPair, List.mem_cons, List.not_mem_nil, or_false] at h
  · simp only [Bool.false_eq_true, if_false] at h
    omega
  · simp only [if_true] at h
    omega

/-- The header mark and the two bounds of the gap fit the 32 bits of a PLAN entry (20_memory.md R62), and with them
every duration of a word frame. -/
def WordDurationsFit (p : Config.Params) : Prop :=
  8 * p.tau < 2 ^ 32 ∧ p.wordFrameT * p.tau < 2 ^ 32 ∧ p.wordMingapT * p.tau < 2 ^ 32

theorem wordDurationsFit_of_wf {p : Config.Params} (hp : p.wf) : WordDurationsFit p := by
  obtain ⟨-, -, -, -, htick, hframe, hgap, -, -⟩ := hp
  exact ⟨htick, hframe, hgap⟩

theorem wordDurationsFit_of_defaultTiming {p : Config.Params} (hp : DefaultTiming p) : WordDurationsFit p := by
  obtain ⟨htau, -, -, -, -, hframe, hgap, -⟩ := defaultTiming_values hp
  rw [WordDurationsFit, htau, hframe, hgap]
  decide

theorem lt_of_mem_wordFrame {p : Config.Params} {v : BitVec 64} {n x : Nat} (hp : WordDurationsFit p)
    (h : x ∈ wordFrame p v n) : x < 2 ^ 32 := by
  obtain ⟨htick, hframe, hgap⟩ := hp
  simp only [wordFrame, wordBody, List.mem_append, List.mem_flatMap, List.mem_cons, List.not_mem_nil, or_false] at h
  rcases h with (((rfl | rfl) | ⟨k, -, hpair⟩) | rfl) | rfl
  · exact htick
  · omega
  · have := le_of_mem_bitPair hpair
    omega
  · omega
  · omega

/-- Entry `i` of copy `j` of a sent frame reads back. -/
theorem planEntry_of_wordFrame {s : State} {v : BitVec 64} {n r j i x : Nat} (hp : WordDurationsFit s.params)
    (hj : j ≤ r) (hx : (wordFrame s.params v n)[i]? = some x) :
    ((storePlan (repeatFrame (wordFrame s.params v n) r) s).planEntry (j * (2 * n + 4) + i)).toNat = x := by
  rw [← length_wordFrame s.params v n]
  exact planEntry_storePlan_repeat hj hx (lt_of_mem_wordFrame hp (List.mem_of_getElem? hx))

/-- Whatever reads as header, pairs and footer of `v` has the layout of its message. -/
theorem wordLayout_of_wordBody {p : Config.Params} {v : BitVec 64} {n : Nat} {e : Nat → Nat}
    (key : ∀ i x, (wordBody p v n)[i]? = some x → e i = x) : WordLayout p v n e := by
  obtain ⟨hmark, hspace, hpairs, hfooter⟩ := wordBody_entries p v n
  exact ⟨key _ _ hmark, key _ _ hspace, fun k hk => ⟨key _ _ (hpairs k hk).1, key _ _ (hpairs k hk).2⟩,
    key _ _ hfooter⟩

/-- What reads as a list from index 0 is the list. -/
theorem map_range_eq_of_getElem? {l : List Nat} {e : Nat → Nat} (key : ∀ i x, l[i]? = some x → e i = x) :
    (List.range l.length).map e = l := by
  apply List.ext_getElem
  · simp
  · intro i h _
    simp only [List.getElem_map, List.getElem_range]
    exact key i _ (List.getElem?_eq_getElem _)

/-! ### A nominal message under the default parameters (R130, R147) -/

/-- A nominal pair carries its bit when the calibrated ticks are nominal. -/
theorem pairBit_nominal {p : Config.Params} (hp : DefaultTiming p) (b : Bool) :
    pairBit (wordTemplate p 432 432) (some 432) (some (if b then 1296 else 432)) = some b := by
  rw [wordTemplate_of_defaultTiming hp]
  cases b <;> decide

/-- A nominal message of `v` matches, whether its gap was captured or not. -/
theorem wordMatches_of_wordLayout {p : Config.Params} {u : State} {v : BitVec 64} {n : Nat} (hp : DefaultTiming p)
    (hu : DefaultTiming u.params) (hn : n ≤ 64) (hlen : 2 * n + 3 ≤ u.rawlen.toNat)
    (hl : WordLayout p v n fun i => (u.rawEntry i).toNat)
    (hgap : 2 * n + 3 < u.rawlen.toNat → 3750 ≤ (u.rawEntry (2 * n + 3)).toNat) :
    WordMatches u n fun k => v.getLsbD k := by
  have hsample (i : Nat) (hi : i < u.rawlen.toNat) : u.sample i = some (u.rawEntry i).toNat := if_pos hi
  obtain ⟨htau, -, -, -, -, -, -, -, -, -, -, -, hlsb⟩ := defaultTiming_values hp
  obtain ⟨utau, -, -, uend, utimeout, -, -, utol, uexc, -, -, ugap, -⟩ := defaultTiming_values hu
  simp only [WordLayout, htau, hlsb, if_true] at hl
  obtain ⟨hmark, hspace, hpairs, hfooter⟩ := hl
  simp only [WordMatches, hmark, hspace, utau, utol, uexc]
  refine ⟨hn, hlen, ?_, ?_, fun k hk => ?_, ?_, fun h => ?_⟩
  · rw [hsample 0 (by omega), hmark]
    decide
  · rw [hsample 1 (by omega), hspace]
    decide
  · obtain ⟨hm, hs⟩ := hpairs k hk
    rw [hsample _ (by omega), hsample _ (by omega), hm, hs]
    exact pairBit_nominal hu _
  · rw [hsample _ (by omega), hfooter]
    decide
  · have hlong := hgap h
    rw [hsample _ h, uend, ugap, matchAtLeast_some_iff (by omega), utimeout]
    exact hlong

/-- A copy of one sent frame of `v`, with or without its gap, matches. -/
theorem wordMatches_of_wordFrame {p : Config.Params} {u : State} {v : BitVec 64} {n : Nat} (hp : DefaultTiming p)
    (hu : DefaultTiming u.params) (hn : n ≤ 64) (hlen : 2 * n + 3 ≤ u.rawlen.toNat)
    (hread : ∀ i x, i < u.rawlen.toNat → (wordFrame p v n)[i]? = some x → (u.rawEntry i).toNat = x) :
    WordMatches u n fun k => v.getLsbD k := by
  refine wordMatches_of_wordLayout hp hu hn hlen (wordLayout_of_wordBody fun i x hx => ?_) fun h => ?_
  · have hi : i < 2 * n + 3 := length_wordBody p v n ▸ (List.getElem?_eq_some_iff.1 hx).1
    exact hread i x (by omega) (getElem?_wordFrame_of_wordBody hx)
  · obtain ⟨htau, -, -, -, -, -, hmingap, -⟩ := defaultTiming_values hp
    rw [hread _ _ h (getElem?_wordFrame_gap p v n), hmingap, htau]
    omega

end Sys2Proof.Machine
end

section
/-! PROOFS. The obligations on the single-word codec (41_word_codec.md). -/

namespace Sys2Proof.Machine

/-- Settles O28: the word is the encoding of the command, and the fields are those of the Command48. -/
theorem wordEncodeBuildsTheCommand48 : Obligations.WordEncodeBuildsTheCommand48 := by
  unfold Obligations.WordEncodeBuildsTheCommand48
  intro s device subdevice function
  have hexec := exec_wordEncode s device subdevice function
  obtain ⟨hkeeps, -, huntouched, hdbuf, hplan⟩ := frame_wordEncode _ _ _ hexec
  obtain ⟨hzero, hmfr, hdev, hsub, hfn, hxor⟩ := encode48_fields s.mfr device subdevice function
  exact ⟨decodeOfEncodeIsTheCommand (.wordEncode device subdevice function) rfl, _, hexec, hzero, hmfr, hdev, hsub,
    hfn, hxor, endsWith_writeOutcome rfl, hkeeps, memoriesKept_of_untouched huntouched hdbuf hplan⟩

/-- Settles O29: each copy reads as the word frame, entry by entry, and a sum of entries is the sum of the frame's. -/
theorem wordSendWritesRepeatedWordFrames : Obligations.WordSendWritesRepeatedWordFrames := by
  unfold Obligations.WordSendWritesRepeatedWordFrames
  intro s n r hp hn hcap
  have hexec := exec_wordSend_of_fit hn hcap
  obtain ⟨hkeeps, -, ⟨hraw, -, -, hdraw⟩, hdbuf⟩ := frame_wordSend n r hexec
  have hlen : (repeatFrame (wordFrame s.params s.value n) r).length = (2 * n + 4) * (r + 1) := by
    rw [length_repeatFrame, length_wordFrame]
  refine ⟨_, hexec, fun h16 => ?_, fun j hj e he => ?_, fun i hi => ?_, endsWith_writeOutcome rfl, hkeeps,
    rawEntry_of_eq hraw hdraw, dbufByte_of_eq hdbuf hdraw⟩
  · rw [writeOutcome_planlen, storePlan, hlen, if_pos h16]
    exact toNat_ofNat_of_lt h16
  · have key (i x : Nat) (hx : (wordFrame s.params s.value n)[i]? = some x) : e i = x :=
      (he i).trans (planEntry_of_wordFrame (wordDurationsFit_of_wf hp) hj hx)
    have hbody (i x : Nat) (hx : (wordBody s.params s.value n)[i]? = some x) : e i = x :=
      key i x (getElem?_wordFrame_of_wordBody hx)
    refine ⟨wordLayout_of_wordBody hbody, ?_⟩
    rw [← length_wordBody s.params s.value n, map_range_eq_of_getElem? hbody, length_wordBody]
    exact key _ _ (getElem?_wordFrame_gap _ _ _)
  · rw [planEntry_writeOutcome, planEntry_storePlan, List.getElem?_eq_none (by omega)]
    rfl

/-- Settles O31: the fields are the halves of the value, and a width that decodes fits BITS. -/
theorem wordDecodeWritesAllFieldsOrNone : Obligations.WordDecodeWritesAllFieldsOrNone := by
  unfold Obligations.WordDecodeWritesAllFieldsOrNone
  refine fun s strict n => ⟨fun v h => ?_, fun kind h => ?_⟩
  · have hexec := exec_wordDecode_of_ok h
    have hn := le_64_of_wordDecode_ok h
    obtain ⟨hkeeps, -, huntouched, hdbuf, hplan⟩ := frame_wordDecode strict n hexec
    exact ⟨_, hexec, rfl, toNat_highHalf v, toNat_lowHalf v, rfl, toNat_ofNat_of_lt (by omega),
      endsWith_writeOutcome rfl, hkeeps, memoriesKept_of_untouched huntouched hdbuf hplan⟩
  · exact ⟨_, exec_wordDecode_of_error h, writeOutcome_changesOnlyStatus false false s⟩

/-- Settles O32: the lenient checks are `WordMatches`, and what the decode gives O31 writes. -/
theorem lenientWordDecodeAcceptsExactlyMatchingMessages :
    Obligations.LenientWordDecodeAcceptsExactlyMatchingMessages := by
  unfold Obligations.LenientWordDecodeAcceptsExactlyMatchingMessages
  refine fun s n => ⟨fun bit h => ?_, fun t hexec hok => wordMatches_of_wordDecode (wordDecode_of_exec_ok hexec hok)⟩
  obtain ⟨v, hv, hbit⟩ := wordDecode_of_wordMatches h
  obtain ⟨t, hexec, rfl, haddress, hcommand, hproto, hbits, hends, -⟩ :=
    (wordDecodeWritesAllFieldsOrNone s false n).1 v hv
  exact ⟨t, hexec, hends, hbit, haddress, hcommand, hproto, hbits⟩

/-- Settles O33: a strict decode is a lenient one of width 48 whose value is compliant. -/
theorem strictWordDecodeAddsItsChecks : Obligations.StrictWordDecodeAddsItsChecks := by
  unfold Obligations.StrictWordDecodeAddsItsChecks
  intro s n v
  rw [wordDecode_strict_iff, wordCompliant_iff]

/-- Settles O34: the copy of the sent frame is a nominal message of the Command48, so a lenient decode gives the
Command48 back, and its fields pass the strict checks. -/
theorem wordRoundTripRecoversTheFields : Obligations.WordRoundTripRecoversTheFields := by
  unfold Obligations.WordRoundTripRecoversTheFields
  intro s s1 s2 u device subdevice function reps hs hcap henc hsend hu hmfr hmin hmax hcopy
  cases (exec_wordEncode s device subdevice function).symm.trans henc
  cases (exec_wordSend_of_fit (by decide) hcap).symm.trans hsend
  have hread (i x : Nat) (hi : i < u.rawlen.toNat)
      (hx : (wordFrame s.params (encode48 s.mfr device subdevice function) 48)[i]? = some x) :
      (u.rawEntry i).toNat = x := by
    have hplan := planEntry_of_wordFrame
      (s := writeOutcome true false { s with value := encode48 s.mfr device subdevice function })
      (wordDurationsFit_of_defaultTiming hs) (Nat.zero_le reps) hx
    rw [Nat.zero_mul, Nat.zero_add] at hplan
    exact (congrArg _ (hcopy i hi)).trans hplan
  obtain ⟨v, hv, hbit⟩ := wordDecode_of_wordMatches (wordMatches_of_wordFrame hs hu (by decide) hmin hread)
  obtain ⟨-, -, -, -, -, -, -, -, -, -, -, -, hlsb⟩ := defaultTiming_values hu
  simp only [hlsb, if_true] at hbit
  obtain rfl : v = encode48 s.mfr device subdevice function := eq_encode48_of_lowBits hbit
  obtain ⟨t, hexec, hvalue, haddress, hcommand, -, -, hends, -⟩ := (wordDecodeWritesAllFieldsOrNone u true 48).1 _
    (wordDecode_strict_iff.2 ⟨hv, rfl, hmfr ▸ wordCompliant_encode48 s.mfr device subdevice function⟩)
  exact ⟨t, hexec, hends, haddress.trans (encode48_div s.mfr device subdevice function),
    BitVec.eq_of_toNat_eq (hcommand.trans (encode48_mod s.mfr device subdevice function)), hvalue⟩

end Sys2Proof.Machine
end

section
/-! PROOFS. The frame that a send stores in PLAN, FRAME_DECODE's verdict check by check, and how it ends
(42_frame_codec.md R160–R175). -/

namespace Sys2Proof.Machine

/-! ### The two-section frame in PLAN (R160, R161) -/

theorem length_dbufBytes (s : State) (n : Nat) : (s.dbufBytes n).length = n := by simp [State.dbufBytes]

theorem getElem_dbufBytes (s : State) (n k : Nat) (h : k < (s.dbufBytes n).length) :
    (s.dbufBytes n)[k] = s.dbufByte k := by simp [State.dbufBytes]

theorem toNat_planlen_storePlan {p : List Nat} (h : p.length < 2 ^ 16) (s : State) :
    (storePlan p s).planlen.toNat = p.length := by
  rw [storePlan, if_pos h]
  exact toNat_ofNat_of_lt h

/-- PLAN beyond a stored plan is as it was. -/
theorem planEntry_storePlan_of_le {p : List Nat} {i : Nat} (h : p.length ≤ i) (s : State) :
    (storePlan p s).planEntry i = s.planEntry i := by
  rw [planEntry_storePlan, List.getElem?_eq_none h]
  rfl

theorem writePlan_of_fits {frame : List Nat} {r : Nat} {s : State} (h : frame.length * (r + 1) ≤ s.params.planCap) :
    writePlan frame r s = writeOutcome true false (storePlan (repeatFrame frame r) s) :=
  if_neg (Nat.not_lt.2 h)

/-- Where the plan fits, FRAME_SEND stores it. -/
theorem exec_frameSend_of_fit {s : State} {n r : Nat} (h16 : 16 ≤ n) (h27 : n ≤ 27)
    (hcap : (16 * n + 8) * (r + 1) ≤ s.params.planCap) :
    exec (.frameSend n r) s = .next (writeOutcome true false
      (storePlan (repeatFrame (frameSequence s.params (s.dbufBytes n)) r) s)) := by
  have hlen : ¬(n < frameMinLen ∨ dbufCap < n) := not_or.2 ⟨Nat.not_lt.2 h16, Nat.not_lt.2 h27⟩
  simp only [exec, execFrameSend, if_neg hlen]
  rw [writePlan_of_fits (by rwa [length_frameSequence, length_dbufBytes])]

/-- Each copy of a stored two-section sequence is a frame of its bytes. -/
theorem frameLayout_storePlan {s : State} {bs : List Byte} {b : Nat → Byte} {r j : Nat} (hp : s.params.wf)
    (hn : 8 ≤ bs.length) (hb : ∀ k, (h : k < bs.length) → bs[k] = b k) (hj : j ≤ r) :
    FrameLayout s.params b bs.length fun i =>
      ((storePlan (repeatFrame (frameSequence s.params bs) r) s).planEntry (j * (16 * bs.length + 8) + i)).toNat := by
  rw [← length_frameSequence s.params bs]
  exact frameLayout_of_frameSequence hp hn hb fun i x hx hlt => planEntry_storePlan_repeat hj hx hlt

/-! ### Bytes of a DBUF content -/

theorem dbufAt_of_stored {d i : Nat} {m : Memory 8} {x : Byte} (h : Memory.stored m i = some x) : dbufAt d m i = x := by
  rw [dbufAt, h]
  rfl

theorem dbufAt_of_stored_eq {s : State} {m : Memory 8} {i : Nat} (h : Memory.stored m i = Memory.stored s.dbuf i) :
    dbufAt s.memDraw m i = s.dbufByte i := by
  rw [State.dbufByte, dbufAt, dbufAt, h]

/-! ### The checks of FRAME_DECODE (R162–R164, R172–R174) -/

theorem frameStructureOk_iff {s : State} {strict : Bool} {nbits : Nat} :
    frameStructureOk s strict nbits = true ↔
      nbits % 8 = 0 ∧ (strict = true → nbits = 216 ∨ nbits = 128) ∧ nbits / 8 ≤ 27 ∧
        2 * nbits + 3 ≤ s.rawlen.toNat := by
  have hwidth : (!strict || nbits == 8 * acLen || nbits == 8 * acLenShort) = true ↔
      (strict = true → nbits = 216 ∨ nbits = 128) := by
    cases strict <;> simp [acLen, acLenShort]
  rw [frameStructureOk, Bool.and_eq_true, Bool.and_eq_true, Bool.and_eq_true, beq_iff_eq, decide_eq_true_eq,
    decide_eq_true_eq, hwidth, and_assoc, and_assoc]
  rfl

/-- The strict checks on the `n` bytes `b 0 .. b (n-1)`: both signatures (R172), then the checksum (R174). -/
def FrameComplies (b : Nat → Byte) (n : Nat) : Prop :=
  b 0 = 0x02#8 ∧ b 1 = 0x20#8 ∧ b 8 = 0x02#8 ∧ b 9 = 0x20#8 ∧ 2 ≤ n ∧ (b (n - 1)).toNat = checksumNat b n

/-- The strict checks judge the bytes of the buffer, those of the signatures whether decoded or not. -/
theorem frameCompliant_iff {s : State} {c : Cursor} {b : Nat → Byte}
    (h : ∀ k, k < max 10 c.count → dbufAt s.memDraw c.buf k = b k) :
    frameCompliant s c = true ↔ FrameComplies b c.count := by
  have hbytes (k : Nat) (hk : k < ((List.range c.count).map (dbufAt s.memDraw c.buf)).length) :
      ((List.range c.count).map (dbufAt s.memDraw c.buf))[k] = b k := by
    rw [List.length_map, List.length_range] at hk
    rw [List.getElem_map, List.getElem_range, h k (by omega)]
  have hsum : validChecksum ((List.range c.count).map (dbufAt s.memDraw c.buf)) = true ↔
      2 ≤ c.count ∧ (b (c.count - 1)).toNat = checksumNat b c.count := by
    rw [validChecksum_iff hbytes, List.length_map, List.length_range]
  rw [frameCompliant, Bool.and_eq_true, hsum]
  simp only [signatureOk, h 0 (by omega), h 1 (by omega), h 8 (by omega), h 9 (by omega), Bool.and_eq_true, beq_iff_eq,
    and_assoc, FrameComplies]

theorem frameDecode_of_not_structureOk {s : State} {strict : Bool} {nbits : Nat}
    (h : ¬frameStructureOk s strict nbits = true) : frameDecode s strict nbits = .error .structural :=
  if_neg h

/-- Past the structure and the timing only the strict checks can fail a decode. -/
theorem frameDecode_of_frameTiming {s : State} {strict : Bool} {nbits : Nat} {c : Cursor}
    (hs : frameStructureOk s strict nbits = true) (ht : frameTiming s nbits = .ok c) :
    frameDecode s strict nbits = if strict && !frameCompliant s c then .error .compliance else .ok c := by
  rw [frameDecode, if_pos hs, ht]

/-- A decode gives `c` when every check passes, in strict mode those of compliance too. -/
theorem frameDecode_ok_iff {s : State} {strict : Bool} {nbits : Nat} {c : Cursor} :
    frameDecode s strict nbits = .ok c ↔
      frameStructureOk s strict nbits = true ∧ frameTiming s nbits = .ok c ∧
        (strict = true → frameCompliant s c = true) := by
  by_cases hs : frameStructureOk s strict nbits = true
  · cases ht : frameTiming s nbits with
    | error kind => simp [frameDecode, hs, ht]
    | ok d =>
      have hverdict : (if strict && !frameCompliant s d then Except.error FailKind.compliance else .ok d) = .ok c ↔
          d = c ∧ (strict = true → frameCompliant s d = true) := by
        cases strict <;> cases frameCompliant s d <;> simp
      simp only [frameDecode_of_frameTiming hs ht, hverdict, Except.ok.injEq, hs, true_and]
      exact and_congr_right fun e => by rw [e]
  · simp [frameDecode_of_not_structureOk hs, hs]

/-- A strict decode is a lenient one of a strict width whose bytes comply. -/
theorem frameDecode_strict_iff {s : State} {nbits : Nat} {c : Cursor} :
    frameDecode s true nbits = .ok c ↔
      frameDecode s false nbits = .ok c ∧ (nbits = 216 ∨ nbits = 128) ∧ frameCompliant s c = true := by
  simp only [frameDecode_ok_iff, frameStructureOk_iff]
  tauto

/-- No decode gives more bytes than DBUF holds, and the bytes above those it gives stand as they did. -/
theorem frameDecode_ok_buf {s : State} {strict : Bool} {nbits : Nat} {c : Cursor}
    (h : frameDecode s strict nbits = .ok c) :
    c.count ≤ 27 ∧ ∀ k, c.count ≤ k → dbufAt s.memDraw c.buf k = s.dbufByte k := by
  obtain ⟨hs, ht, -⟩ := frameDecode_ok_iff.1 h
  obtain ⟨-, -, hwidth, -⟩ := frameStructureOk_iff.1 hs
  obtain ⟨hcount, hkept, -⟩ := frameTiming_ok ht
  exact ⟨by omega, fun k hk => dbufAt_of_stored_eq (hkept k hk)⟩

/-! ### How FRAME_DECODE ends (R175) -/

theorem exec_frameDecode_of_ok {s : State} {strict : Bool} {nbits : Nat} {c : Cursor}
    (h : frameDecode s strict nbits = .ok c) :
    exec (.frameDecode strict nbits) s = .next (writeOutcome true false
      { s with dbuf := c.buf, proto := 2, bits := BitVec.ofNat 16 (8 * c.count) }) := by
  simp only [exec, execFrameDecode, h, succeed_eq]

theorem exec_frameDecode_of_structural {s : State} {strict : Bool} {nbits : Nat}
    (h : frameDecode s strict nbits = .error .structural) :
    exec (.frameDecode strict nbits) s = .next (writeOutcome false false s) := by
  simp only [exec, execFrameDecode, h, fail_eq]

theorem exec_frameDecode_of_error {s : State} {strict : Bool} {nbits : Nat} {kind : FailKind}
    (h : frameDecode s strict nbits = .error kind) (hk : kind ≠ .structural) :
    exec (.frameDecode strict nbits) s = .next (writeOutcome false false (drawDbuf (drawnBytes nbits) s)) := by
  cases kind with
  | structural => exact absurd rfl hk
  | timing | compliance => simp only [exec, execFrameDecode, h, fail_eq]

/-- FRAME_DECODE sets OK only where the decode gives bytes, which DBUF then holds. -/
theorem frameDecode_of_exec_ok {s t : State} {strict : Bool} {nbits : Nat}
    (h : exec (.frameDecode strict nbits) s = .next t) (hok : t.ok = true) :
    ∃ c, frameDecode s strict nbits = .ok c ∧ ∀ k, t.dbufByte k = dbufAt s.memDraw c.buf k := by
  cases hd : frameDecode s strict nbits with
  | ok c =>
    cases (exec_frameDecode_of_ok hd).symm.trans h
    exact ⟨c, rfl, fun _ => rfl⟩
  | error kind =>
    by_cases hk : kind = .structural
    · subst hk
      cases (exec_frameDecode_of_structural hd).symm.trans h
      simp at hok
    · cases (exec_frameDecode_of_error hd hk).symm.trans h
      simp at hok

/-! ### A nominal frame under the default parameters (R176) -/

/-- A nominal frame of a strict width decodes leniently, and strictly when its bytes comply. -/
theorem frameDecode_nominal {u : State} {b : Nat → Byte} {n : Nat} (hd : DefaultTiming u.params)
    (hn : n = 27 ∨ n = 16) (hlen : u.rawlen.toNat = 16 * n + 8)
    (hl : FrameLayout u.params b n fun i => (u.rawEntry i).toNat) :
    ∃ c, c.count = n ∧ (∀ k, k < n → dbufAt u.memDraw c.buf k = b k) ∧ frameDecode u false (8 * n) = .ok c ∧
      (FrameComplies b n → frameDecode u true (8 * n) = .ok c) ∧
      (¬FrameComplies b n → frameDecode u true (8 * n) = .error .compliance) := by
  obtain ⟨c, ht, hcount, hstored⟩ := frameTiming_of_frameLayout hd (by omega) (.inl hlen) hl
  have hs (strict : Bool) : frameStructureOk u strict (8 * n) = true :=
    frameStructureOk_iff.2 ⟨by omega, fun _ => by omega, by omega, by omega⟩
  have hb (k : Nat) (hk : k < n) : dbufAt u.memDraw c.buf k = b k :=
    dbufAt_of_stored ((hstored k).trans (if_pos hk))
  have hcomplies : frameCompliant u c = true ↔ FrameComplies b n := by
    rw [← hcount]
    exact frameCompliant_iff fun k hk => hb k (by omega)
  refine ⟨c, hcount, hb, frameDecode_of_frameTiming (hs false) ht, fun h => ?_, fun h => ?_⟩
  · rw [frameDecode_of_frameTiming (hs true) ht, hcomplies.2 h]
    rfl
  · rw [frameDecode_of_frameTiming (hs true) ht, Bool.eq_false_of_not_eq_true (mt hcomplies.1 h)]
    rfl

/-! ### A changed byte (R176, R180) -/

/-- Two sums whose terms differ in one place differ by what the two terms do. -/
theorem sum_map_range_of_one_changed {f g : Nat → Nat} {k m : Nat} (hk : k < m) (h : ∀ i, i ≠ k → f i = g i) :
    ((List.range m).map f).sum + g k = ((List.range m).map g).sum + f k := by
  have split (e : Nat → Nat) : ((List.range m).map e).sum = ∑ i ∈ (Finset.range m).erase k, e i + e k :=
    (Finset.sum_erase_add _ e (Finset.mem_range.2 hk)).symm
  have others : ∑ i ∈ (Finset.range m).erase k, f i = ∑ i ∈ (Finset.range m).erase k, g i :=
    Finset.sum_congr rfl fun i hi => h i (Finset.ne_of_mem_erase hi)
  rw [split f, split g, others, Nat.add_right_comm]

/-- One changed byte below the last moves the checksum (43_validator.md R180). -/
theorem eq_of_checksumNat_eq {b b' : Nat → Byte} {n k : Nat} (hk : k < n - 1) (h : ∀ i, i ≠ k → b' i = b i)
    (hsum : checksumNat b' n = checksumNat b n) : b' k = b k := by
  have hchanged := sum_map_range_of_one_changed (f := fun i => (b' i).toNat) (g := fun i => (b i).toNat) hk
    fun i hi => congrArg BitVec.toNat (h i hi)
  have hb := (b k).isLt
  have hb' := (b' k).isLt
  unfold checksumNat at hsum
  apply BitVec.eq_of_toNat_eq
  omega

end Sys2Proof.Machine
end

section
/-! PROOFS. The obligations on the frame codec (42_frame_codec.md). -/

namespace Sys2Proof.Machine

/-- Settles O35: each copy of the stored sequence is a frame of the DBUF bytes, and PLAN beyond it is kept. -/
theorem frameSendWritesRepeatedFrames : Obligations.FrameSendWritesRepeatedFrames := by
  unfold Obligations.FrameSendWritesRepeatedFrames
  intro s n r hp h16 h27 hcap
  have hexec := exec_frameSend_of_fit h16 h27 hcap
  obtain ⟨hkeeps, -, ⟨hraw, -, -, hdraw⟩, hdbuf⟩ := frame_frameSend n r hexec
  have hn := length_dbufBytes s n
  have hlen : (repeatFrame (frameSequence s.params (s.dbufBytes n)) r).length = (16 * n + 8) * (r + 1) := by
    rw [length_repeatFrame, length_frameSequence, hn]
  refine ⟨_, hexec, fun hfit => ?_, fun j hj => ?_, fun i hi => ?_, endsWith_writeOutcome rfl, hkeeps,
    rawEntry_of_eq hraw hdraw, dbufByte_of_eq hdbuf hdraw⟩
  · rw [writeOutcome_planlen, toNat_planlen_storePlan (hlen ▸ hfit), hlen]
  · have hlayout := frameLayout_storePlan hp (by omega) (getElem_dbufBytes s n) hj
    rw [hn] at hlayout
    exact hlayout
  · exact planEntry_storePlan_of_le (hlen.trans_le hi) s

/-- Settles O36: each of the four causes contradicts one clause of the structural checks. -/
theorem frameDecodeFailsStructurallyFirst : Obligations.FrameDecodeFailsStructurallyFirst := by
  unfold Obligations.FrameDecodeFailsStructurallyFirst
  intro s strict nbits h
  have hbad : ¬frameStructureOk s strict nbits = true := by
    rw [frameStructureOk_iff]
    rintro ⟨h8, hstrict, h27, hlen⟩
    rcases h with h | ⟨hs, h216, h128⟩ | h | h
    · exact h h8
    · exact (hstrict hs).elim h216 h128
    · omega
    · omega
  have hd := frameDecode_of_not_structureOk hbad
  exact ⟨hd, _, exec_frameDecode_of_structural hd, writeOutcome_changesOnlyStatus false false s⟩

/-- Settles O37: the command ends in the draw of the low bytes. -/
theorem failedFrameDecodeDrawsTheLowBytes : Obligations.FailedFrameDecodeDrawsTheLowBytes := by
  unfold Obligations.FailedFrameDecodeDrawsTheLowBytes
  intro s strict nbits kind hd hkind
  refine ⟨_, exec_frameDecode_of_error hd hkind, endsWith_writeOutcome rfl,
    (keepsBut_drawDbuf _ s).trans (keepsBut_writeOutcome false false _), fun k hk => ?_, fun k hk => ?_, rfl,
    fun _ => rfl, fun _ => rfl⟩
  · exact (dbufByte_drawDbuf _ s k).trans (if_neg (Nat.not_lt.2 hk))
  · exact (dbufByte_drawDbuf _ s k).trans (if_pos hk)

/-- Settles O38: a decode that succeeds writes its buffer, and a strict one is a lenient one of a strict width whose
bytes comply. -/
theorem frameDecodeSuccessKeepsTheHighBytesAndStrictAddsItsChecks :
    Obligations.FrameDecodeSuccessKeepsTheHighBytesAndStrictAddsItsChecks := by
  unfold Obligations.FrameDecodeSuccessKeepsTheHighBytesAndStrictAddsItsChecks
  refine ⟨fun s strict nbits c hd => ?_, fun s nbits c b hb => ?_⟩
  · have hexec := exec_frameDecode_of_ok hd
    obtain ⟨hkeeps, -, ⟨hraw, -, -, hdraw⟩, hplan⟩ := frame_frameDecode strict nbits hexec
    obtain ⟨hcount, hhigh⟩ := frameDecode_ok_buf hd
    refine ⟨hcount, _, hexec, rfl, toNat_ofNat_of_lt (by omega), fun _ => rfl, hhigh, fun hstrict => ?_,
      endsWith_writeOutcome rfl, hkeeps, rawEntry_of_eq hraw hdraw, planEntry_of_eq hplan hdraw⟩
    obtain ⟨-, -, hcompliant⟩ := frameDecode_ok_iff.1 hd
    exact (frameCompliant_iff fun _ _ => rfl).1 (hcompliant hstrict)
  · rw [frameDecode_strict_iff, frameCompliant_iff fun k _ => (hb k).symm]
    rfl

/-- Settles O39: past the structural checks a lenient decode is its timing part, which accepts the matching frames. -/
theorem lenientFrameDecodeAcceptsExactlyMatchingFrames :
    Obligations.LenientFrameDecodeAcceptsExactlyMatchingFrames := by
  unfold Obligations.LenientFrameDecodeAcceptsExactlyMatchingFrames
  intro u nbits m n h8 h216 hlen hm hn
  refine ⟨fun b hmatch => ?_, fun t hexec hok => ?_⟩
  · obtain ⟨c, ht, hcount, hstored⟩ := frameTiming_of_frameMatches h216 hlen hm hn b hmatch
    have hs : frameStructureOk u false nbits = true := frameStructureOk_iff.2 ⟨h8, nofun, by omega, hlen⟩
    obtain ⟨-, t, hexec, hproto, hbits, hbuf, hhigh, -, hends, -⟩ :=
      frameDecodeSuccessKeepsTheHighBytesAndStrictAddsItsChecks.1 u false nbits c (frameDecode_of_frameTiming hs ht)
    rw [hcount] at hbits hhigh
    refine ⟨t, hexec, hends, fun k hk => ?_, hhigh, hbits, hproto⟩
    exact (hbuf k).trans (dbufAt_of_stored ((hstored k).trans (if_pos hk)))
  · obtain ⟨c, hd, hbuf⟩ := frameDecode_of_exec_ok hexec hok
    obtain ⟨-, ht, -⟩ := frameDecode_ok_iff.1 hd
    obtain ⟨-, hsome, hmatch⟩ := frameMatches_of_frameTiming h8 h216 hlen hm hn ht
    refine hmatch _ fun i hi => ?_
    obtain ⟨x, hx⟩ := hsome i hi
    rw [hx, hbuf i, dbufAt_of_stored hx]

/-- Settles O40: a nominal frame passes structure and timing, so its bytes' compliance alone decides. -/
theorem strictDecodeOfANominalFrameSucceedsExactlyWhenCompliant :
    Obligations.StrictDecodeOfANominalFrameSucceedsExactlyWhenCompliant := by
  unfold Obligations.StrictDecodeOfANominalFrameSucceedsExactlyWhenCompliant
  intro u b n hd hn hlen hl
  obtain ⟨c, hcount, hb, -, hyes, hno⟩ := frameDecode_nominal hd hn hlen hl
  have hsplit : FrameComplies b n ↔ b 0 = 0x02#8 ∧ b 1 = 0x20#8 ∧ b 8 = 0x02#8 ∧ b 9 = 0x20#8 ∧
      (b (n - 1)).toNat = checksumNat b n := by
    simp only [FrameComplies, show 2 ≤ n by omega, true_and]
  rw [← hsplit]
  by_cases h : FrameComplies b n
  · obtain ⟨-, t, hexec, hproto, hbits, hbuf, -, -, ⟨hok, -⟩, -⟩ :=
      frameDecodeSuccessKeepsTheHighBytesAndStrictAddsItsChecks.1 u true (8 * n) c (hyes h)
    have hbytes (k : Nat) (hk : k < n) : t.dbufByte k = b k := (hbuf k).trans (hb k hk)
    exact ⟨t, hexec, iff_of_true hok h, fun _ => ⟨hbytes, hcount ▸ hbits, hproto⟩⟩
  · obtain ⟨t, hexec, ⟨hok, -⟩, -⟩ := failedFrameDecodeDrawsTheLowBytes u true (8 * n) _ (hno h) nofun
    exact ⟨t, hexec, iff_of_false (by simp [hok]) h, fun h' => by simp [hok] at h'⟩

/-- Settles O41: the changed byte is one of the sum and not the checksum, so the two no longer agree. -/
theorem oneChangedByteFailsOnlyTheStrictDecode : Obligations.OneChangedByteFailsOnlyTheStrictDecode := by
  unfold Obligations.OneChangedByteFailsOnlyTheStrictDecode
  intro u b hd hlen h0 h1 h8 h9 hsum
  refine ⟨fun hl => ?_, fun k x hk hx hl => ?_⟩
  · obtain ⟨c, -, -, -, hyes, -⟩ := frameDecode_nominal hd (.inl rfl) hlen hl
    exact ⟨_, exec_frameDecode_of_ok (hyes ⟨h0, h1, h8, h9, by decide, hsum⟩), endsWith_writeOutcome rfl⟩
  · obtain ⟨c, -, -, hlenient, -, hno⟩ := frameDecode_nominal hd (.inl rfl) hlen hl
    have hbad : ¬FrameComplies (fun i => if i = k then x else b i) 27 := by
      rintro ⟨-, -, -, -, -, hsum'⟩
      have hlast : (if 26 = k then x else b 26) = b 26 := if_neg (by omega)
      have hchanged := eq_of_checksumNat_eq (b := b) hk (fun i hi => if_neg hi)
        (hsum'.symm.trans ((congrArg BitVec.toNat hlast).trans hsum))
      exact hx ((if_pos rfl).symm.trans hchanged)
    exact ⟨hno hbad, ⟨_, exec_frameDecode_of_error (hno hbad) nofun, endsWith_writeOutcome rfl⟩,
      _, exec_frameDecode_of_ok hlenient, endsWith_writeOutcome rfl⟩

end Sys2Proof.Machine
end

section
/-! PROOFS. The checksum of the first bytes of DBUF, and how CSUM_CALC and CSUM_VALID end (43_validator.md
R180–R183). -/

namespace Sys2Proof.Machine

/-! ### The checksum over DBUF (R180, R181) -/

theorem toNat_checksum_dbufBytes (s : State) (len : Nat) :
    (checksum (s.dbufBytes len)).toNat = checksumNat s.dbufByte len := by
  rw [toNat_checksum (getElem_dbufBytes s len), length_dbufBytes]

theorem validChecksum_dbufBytes_iff {s : State} {len : Nat} :
    validChecksum (s.dbufBytes len) = true ↔
      2 ≤ len ∧ (s.dbufByte (len - 1)).toNat = checksumNat s.dbufByte len := by
  rw [validChecksum_iff (getElem_dbufBytes s len), length_dbufBytes]

/-! ### How the two commands end (R182, R183) -/

theorem exec_csumCalc_of_le {s : State} {len : Nat} (h : len ≤ 27) :
    exec (.csumCalc len) s =
      .next (writeOutcome true false { s with result := checksum (s.dbufBytes len) }) :=
  if_neg (Nat.not_lt.2 h)

theorem exec_csumCalc_of_lt {s : State} {len : Nat} (h : 27 < len) :
    exec (.csumCalc len) s = .next (writeOutcome false false s) :=
  if_pos h

/-- What CSUM_VALID tests: 2 to 27 bytes in DBUF, of which the last is the checksum of the others. -/
def DbufEndsInChecksum (s : State) (len : Nat) : Prop :=
  2 ≤ len ∧ len ≤ 27 ∧ (s.dbufByte (len - 1)).toNat = checksumNat s.dbufByte len

theorem exec_csumValid_of_valid {s : State} {len : Nat} (h : DbufEndsInChecksum s len) :
    exec (.csumValid len) s = .next (writeOutcome true false s) := by
  obtain ⟨h2, h27, hsum⟩ := h
  have hvalid : validChecksum (s.dbufBytes len) = true := validChecksum_dbufBytes_iff.2 ⟨h2, hsum⟩
  exact (if_neg (Nat.not_lt.2 h27)).trans (if_pos hvalid)

/-- Too many bytes and a checksum that is not valid end alike. -/
theorem exec_csumValid_of_not_valid {s : State} {len : Nat} (h : ¬DbufEndsInChecksum s len) :
    exec (.csumValid len) s = .next (writeOutcome false false s) := by
  by_cases h27 : len ≤ 27
  · have hvalid : ¬validChecksum (s.dbufBytes len) = true := fun hv =>
      have ⟨h2, hsum⟩ := validChecksum_dbufBytes_iff.1 hv
      h ⟨h2, h27, hsum⟩
    exact (if_neg (Nat.not_lt.2 h27)).trans (if_neg hvalid)
  · exact if_pos (Nat.lt_of_not_le h27)

end Sys2Proof.Machine
end

section
/-! PROOFS. The obligations on the validator (43_validator.md). -/

namespace Sys2Proof.Machine

/-- Settles O42: up to 27 bytes RESULT takes the checksum of the bytes by index, above 27 the command only ends. -/
theorem csumCalcSumsAllButTheLastByte : Obligations.CsumCalcSumsAllButTheLastByte := by
  unfold Obligations.CsumCalcSumsAllButTheLastByte
  refine ⟨fun x => ?_, fun s len => ⟨fun h => ?_, fun h => ?_⟩⟩
  · simpa [encode, wordI8] using decodeOfEncodeIsTheCommand (.csumCalc x.toNat) (decide_eq_true x.isLt)
  · have hexec := exec_csumCalc_of_le (s := s) h
    obtain ⟨hkeeps, -, huntouched, hdbuf, hplan⟩ := frame_csumCalc len hexec
    exact ⟨_, hexec, toNat_checksum_dbufBytes s len, endsWith_writeOutcome rfl, hkeeps,
      memoriesKept_of_untouched huntouched hdbuf hplan⟩
  · exact ⟨_, exec_csumCalc_of_lt h, writeOutcome_changesOnlyStatus false false s⟩

/-- Settles O43: the command's two endings are those of its test, and each writes nothing but STATUS. -/
theorem csumValidChecksTheLastByte : Obligations.CsumValidChecksTheLastByte := by
  unfold Obligations.CsumValidChecksTheLastByte
  refine ⟨fun x => ?_, fun s len => ⟨fun h => ?_, fun h => ?_⟩⟩
  · simpa [encode, wordI8] using decodeOfEncodeIsTheCommand (.csumValid x.toNat) (decide_eq_true x.isLt)
  · exact ⟨_, exec_csumValid_of_valid h, writeOutcome_changesOnlyStatus true false s⟩
  · exact ⟨_, exec_csumValid_of_not_valid h, writeOutcome_changesOnlyStatus false false s⟩

end Sys2Proof.Machine
end

section
/-! PROOFS. Which commands write the A/C file, what its classification rests on, and the states the commands on the
whole file leave (44_ac_register_file.md R190–R199). -/

namespace Sys2Proof.Machine

/-! ### Who writes the A/C file (R190) -/

/-- A byte that `writtenBytes` does not list keeps its value. -/
theorem exec_acByte {i : Instr} {s t : State} (h : exec i s = .next t) {k : Fin 27} (hk : k ∉ writtenBytes i) :
    t.acByte k = s.acByte k := by
  obtain ⟨⟨-, hbytes, -⟩, -⟩ := exec_frame h
  exact hbytes k hk

theorem ac_eq_of_acByte {s t : State} (h : ∀ k, t.acByte k = s.acByte k) : t.ac = s.ac :=
  Vector.ext fun k hk => h ⟨k, hk⟩

theorem byte26_mem_writtenBytes {i : Instr} :
    26 ∈ writtenBytes i ↔ i ∈ [.acReset, .acSetRaw, .acGetRaw] ∨ ∃ reps, i = .acSend reps := by
  cases i <;> simp [writtenBytes]

/-- The commands that are not of the A/C file, and the getters of its fields, by their mnemonics in the opcode table. -/
def acReaders : List String :=
  ["CAL", "EXTRACT", "WORD_ENCODE", "WORD_SEND", "WORD_DECODE", "FRAME_SEND", "FRAME_DECODE", "CSUM_CALC", "CSUM_VALID",
    "AC_GET_MODEL", "AC_GET_POWER", "AC_GET_MODE", "AC_GET_TEMP", "AC_GET_SWINGV", "AC_GET_SWINGH", "AC_GET_FAN",
    "AC_GET_QUIET", "AC_GET_POWERFUL"]

theorem writtenBytes_of_mem_acReaders {i : Instr} (h : i.mnemonic ∈ acReaders) : writtenBytes i = [] := by
  cases i <;> simp_all [Instr.mnemonic, writtenBytes, acReaders]

theorem caches_not_mem_writtenRegs_of_mem_acReaders {i : Instr} (h : i.mnemonic ∈ acReaders) :
    .tempCache ∉ writtenRegs i ∧ .swinghCache ∉ writtenRegs i := by
  cases i <;> simp_all [Instr.mnemonic, writtenRegs, acReaders]

theorem exec_tempCache {i : Instr} {s t : State} (h : exec i s = .next t) (hw : .tempCache ∉ writtenRegs i) :
    t.tempCache = s.tempCache :=
  BitVec.eq_of_toNat_eq (exec_reg h hw)

theorem exec_swinghCache {i : Instr} {s t : State} (h : exec i s = .next t) (hw : .swinghCache ∉ writtenRegs i) :
    t.swinghCache = s.swinghCache :=
  BitVec.eq_of_toNat_eq (exec_reg h hw)

/-! ### The signatures of the variants (R196) -/

/-- JKE: byte 17 is 0 and bit 7 of byte 23 is set. -/
abbrev JkeSignature (ac : Vector Byte 27) : Prop := ac[17] = 0x00#8 ∧ 128 ≤ ac[23].toNat

/-- LKE: byte 17 is 0x06 and the low nibble of byte 13 is 2. -/
abbrev LkeSignature (ac : Vector Byte 27) : Prop := ac[17] = 0x06#8 ∧ ac[13].toNat % 16 = 2

/-- DKE: byte 23 holds the DKE marker. -/
abbrev DkeSignature (ac : Vector Byte 27) : Prop := ac[23] = 0x01#8

/-- NKE: byte 17 is 0x06. -/
abbrev NkeSignature (ac : Vector Byte 27) : Prop := ac[17] = 0x06#8

theorem getLsbD_seven_iff : ∀ x : Byte, x.getLsbD 7 = true ↔ 128 ≤ x.toNat := by decide

theorem lowNibble_eq_two_iff (x : Byte) : x &&& 0x0F#8 = 0x02#8 ↔ x.toNat % 16 = 2 := by
  rw [← toNat_lowNibble, ← BitVec.toNat_inj]
  rfl

/-- The classification by the signatures: it takes the first that holds. -/
theorem classify_eq (ac : Vector Byte 27) :
    classify ac =
      if JkeSignature ac then .jke else if LkeSignature ac then .lke else if DkeSignature ac then .dke
      else if NkeSignature ac then .nke else .unknown := by
  simp only [classify, Bool.and_eq_true, beq_iff_eq, getLsbD_seven_iff, lowNibble_eq_two_iff]

/-- The signatures read the low nibble of byte 13 and the bytes 17 and 23 (70_reset_and_hazards.md R268). -/
theorem classify_congr {ac ac' : Vector Byte 27} (h13 : ac[13].toNat % 16 = ac'[13].toNat % 16)
    (h17 : ac[17] = ac'[17]) (h23 : ac[23] = ac'[23]) : classify ac = classify ac' := by
  simp only [classify_eq, JkeSignature, LkeSignature, DkeSignature, NkeSignature, h13, h17, h23]

theorem lkeSignature_of_classify {ac : Vector Byte 27} (h : classify ac = .lke) : LkeSignature ac := by
  rw [classify_eq] at h
  split_ifs at h with _ hlke
  exact hlke

/-- Setting the power bit makes the low nibble of byte 13 odd, which breaks the LKE signature (R199). -/
theorem classify_powerOn_of_lke {s : State} (h : classify s.ac = .lke) (h23 : s.acByte 23 ≠ 0x01#8) :
    classify (powerOn s).ac = .nke := by
  obtain ⟨h17, -⟩ := lkeSignature_of_classify h
  have e13 : (powerOn s).ac[13].toNat = s.ac[13].toNat / 2 * 2 + 1 :=
    (congrArg BitVec.toNat (acByte_powerOn s 13)).trans (toNat_setBit0 _)
  have e17 : (powerOn s).ac[17] = 0x06#8 := (acByte_powerOn s 17).trans h17
  have e23 : (powerOn s).ac[23] ≠ 0x01#8 := fun e => h23 ((acByte_powerOn s 23).symm.trans e)
  have hjke : ¬JkeSignature (powerOn s).ac := fun ⟨h0, _⟩ => absurd (e17.symm.trans h0) (by decide)
  have hlke : ¬LkeSignature (powerOn s).ac := fun ⟨_, h2⟩ => by omega
  rw [classify_eq, if_neg hjke, if_neg hlke, if_neg e23, if_pos e17]

/-! ### The setters that never move the classification -/

theorem shiftLeft_four_eq_lowNibble : ∀ m : Byte, m <<< 4 = BitVec.ofNat 8 (m.toNat % 16) <<< 4 := by decide

theorem lowNibble_setModeNibble (m : Byte) (s : State) :
    ((setModeNibble m s).acByte 13).toNat % 16 = (s.acByte 13).toNat % 16 := by
  have hn : m.toNat % 16 < 16 := Nat.mod_lt _ (by decide)
  rw [acByte_setModeNibble, if_pos rfl, shiftLeft_four_eq_lowNibble, toNat_writeHighNibble _ ⟨_, hn⟩]
  omega

/-- AC_SET_MODE keeps the low nibble of byte 13 (45_ac_accessors.md R217). -/
theorem exec_acSetMode_lowNibble {m : Byte} {s t : State} (h : exec (.acSetMode m) s = .next t) :
    (t.acByte 13).toNat % 16 = (s.acByte 13).toNat % 16 := by
  simp only [exec, execAcSetMode] at h
  repeat' split at h
  all_goals
    cases h
    exact (lowNibble_setModeNibble _ _).trans (by simp)

/-- The setters whose fields stand outside the variant bytes, by their mnemonics in the opcode table. -/
def classificationKeepers : List String :=
  ["AC_SET_MODE", "AC_SET_TEMP", "AC_SET_SWINGV", "AC_SET_FAN", "AC_SET_QUIET", "AC_SET_POWERFUL"]

/-- Of the variant bytes these setters write byte 13 alone, and only AC_SET_MODE does. -/
theorem variantBytes_of_mem_classificationKeepers {i : Instr} (h : i.mnemonic ∈ classificationKeepers) :
    17 ∉ writtenBytes i ∧ 23 ∉ writtenBytes i ∧ ((∃ m, i = .acSetMode m) ∨ 13 ∉ writtenBytes i) := by
  cases i <;> simp_all [Instr.mnemonic, writtenBytes, classificationKeepers]

theorem exec_classify_of_mem_classificationKeepers {i : Instr} {s t : State}
    (hi : i.mnemonic ∈ classificationKeepers) (h : exec i s = .next t) : classify t.ac = classify s.ac := by
  obtain ⟨h17, h23, h13⟩ := variantBytes_of_mem_classificationKeepers hi
  have e13 : (t.acByte 13).toNat % 16 = (s.acByte 13).toNat % 16 := by
    rcases h13 with ⟨m, rfl⟩ | h13
    · exact exec_acSetMode_lowNibble h
    · rw [exec_acByte h h13]
  exact classify_congr e13 (exec_acByte h h17) (exec_acByte h h23)

/-! ### The checksum fix-up (R192) -/

/-- The checksum does not read the byte it is written to. -/
theorem checksum_fixChecksum (s : State) : checksum (fixChecksum s).ac.toList = checksum s.ac.toList := by
  have hdrop : (fixChecksum s).ac.toList.dropLast = s.ac.toList.dropLast := by
    simp [fixChecksum, Vector.toList_set, List.dropLast_eq_take, List.take_set_of_le]
  rw [checksum, checksum, hdrop]

theorem validChecksum_fixChecksum (s : State) : validChecksum (fixChecksum s).ac.toList = true := by
  have hlast : (fixChecksum s).ac.toList.getLast? = some (checksum s.ac.toList) := by
    rw [List.getLast?_eq_getElem?]
    simp [fixChecksum, Vector.toList_set]
  simp [validChecksum, hlast, checksum_fixChecksum]

/-- The template's own byte 26 is stale: its checksum is not 0 (70_reset_and_hazards.md R261). -/
theorem checksum_acTemplate : checksum acTemplate.toList = 0xF5#8 := by decide

/-! ### The file copied to and from DBUF (R193, R194) -/

theorem acByte_dbufAsAc (s : State) (i : Fin 27) : (dbufAsAc s)[i] = s.dbufByte i := by
  simp [dbufAsAc, State.dbufBytes]

theorem dbufByte_storeDbuf_ac (s : State) (ac : Vector Byte 27) (i : Fin 27) :
    (s.storeDbuf ac.toList).dbufByte i = ac[i] := by
  simp [dbufByte_storeDbuf]

theorem dbufByte_storeDbuf_ac_of_le (s : State) (ac : Vector Byte 27) {i : Nat} (h : 27 ≤ i) :
    (s.storeDbuf ac.toList).dbufByte i = s.dbufByte i := by
  rw [dbufByte_storeDbuf, List.getElem?_eq_none (by simpa using h)]
  rfl

theorem dbufBytes_storeDbuf_ac (s : State) (ac : Vector Byte 27) : (s.storeDbuf ac.toList).dbufBytes 27 = ac.toList := by
  apply List.ext_getElem
  · simp [length_dbufBytes]
  · intro k hk hk'
    rw [getElem_dbufBytes]
    exact dbufByte_storeDbuf_ac s ac ⟨k, by simpa using hk'⟩

/-! ### AC_SEND where its plan fits (R195) -/

theorem exec_acSend_of_fit {s : State} {r : Nat} (h : 440 * (r + 1) ≤ s.params.planCap) :
    exec (.acSend r) s = .next (writeOutcome true false
      (storePlan (repeatFrame (frameSequence s.params (fixChecksum s).ac.toList) r) (fixChecksum s))) := by
  simp only [exec, execAcSend]
  rw [writePlan_of_fits (by rw [length_frameSequence, Vector.length_toList]; exact h)]

/-! ### The writes of AC_SET_MODEL (R198) -/

theorem acByte_setLke (s : State) (j : Fin 27) :
    (setLke s).acByte j = if j = 17 then 0x06#8 else if j = 13 then s.acByte 13 ||| 0x02#8 else s.acByte j := by
  rw [setLke, acByte_setAc, acByte_setAc]

theorem acByte_setNke (s : State) (j : Fin 27) :
    (setNke s).acByte j = if j = 17 then 0x06#8 else s.acByte j := acByte_setAc _ _ _ _

@[simp] theorem clearVariant_status (s : State) : (clearVariant s).status = s.status := rfl

@[simp] theorem setLke_status (s : State) : (setLke s).status = s.status := rfl

@[simp] theorem setNke_status (s : State) : (setNke s).status = s.status := rfl

@[simp] theorem setDke_status (s : State) : (setDke s).status = s.status := by rw [setDke_eq]

/-- The bytes of `t` after AC_SET_MODEL with the variant code `m` on `s` (R198, 30_encoding.md R90). -/
def HasVariantBytes (m : Byte) (s t : State) : Prop :=
  (t.acByte 13).toNat = (s.acByte 13).toNat / 16 * 16 + (if m = 1#8 then 2 else 0) ∧
  t.acByte 17 = (if m = 3#8 then s.swinghCache else if m = 4#8 then 0x00#8 else 0x06#8) ∧
  t.acByte 23 = (if m = 3#8 then 0x01#8 else 0x81#8) ∧
  t.acByte 25 = (if m = 3#8 then 0x06#8 else 0x00#8)

theorem hasVariantBytes_setLke (s : State) : HasVariantBytes 1#8 s (setLke (clearVariant s)) := by
  have h13 : ((setLke (clearVariant s)).acByte 13).toNat = (s.acByte 13).toNat / 16 * 16 + 2 := by
    simpa [acByte_setLke] using toNat_writeLowNibble (s.acByte 13) 2
  exact ⟨h13, by simp [acByte_setLke], by simp [acByte_setLke], by simp [acByte_setLke]⟩

theorem hasVariantBytes_setNke (s : State) : HasVariantBytes 2#8 s (setNke (clearVariant s)) := by
  have h13 : ((setNke (clearVariant s)).acByte 13).toNat = (s.acByte 13).toNat / 16 * 16 := by
    simpa [acByte_setNke] using toNat_keepHighNibble (s.acByte 13)
  exact ⟨h13, by simp [acByte_setNke], by simp [acByte_setNke], by simp [acByte_setNke]⟩

theorem hasVariantBytes_setDke {s : State} (hc : swinghCodes.contains s.swinghCache = true) :
    HasVariantBytes 3#8 s (setDke (clearVariant s)) := by
  have h := acByte_setDke (clearVariant s) (by simp) hc
  have h13 : ((setDke (clearVariant s)).acByte 13).toNat = (s.acByte 13).toNat / 16 * 16 := by
    simpa [h] using toNat_keepHighNibble (s.acByte 13)
  exact ⟨h13, by simp [h], by simp [h], by simp [h]⟩

theorem hasVariantBytes_clearVariant (s : State) : HasVariantBytes 4#8 s (clearVariant s) := by
  have h13 : ((clearVariant s).acByte 13).toNat = (s.acByte 13).toNat / 16 * 16 := by
    simpa using toNat_keepHighNibble (s.acByte 13)
  exact ⟨h13, by simp, by simp, by simp⟩

/-- For a variant's code AC_SET_MODEL leaves STATUS to its end and writes the variant's bytes. -/
theorem exec_acSetModel_of_variant {m : Byte} {s : State} (hm : m ∈ [1#8, 2#8, 3#8, 4#8])
    (hc : swinghCodes.contains s.swinghCache = true) :
    ∃ u, exec (.acSetModel m) s = .next (writeOutcome true false u) ∧ u.status = s.status ∧
      HasVariantBytes m s u := by
  simp only [List.mem_cons, List.not_mem_nil, or_false] at hm
  rcases hm with rfl | rfl | rfl | rfl
  · exact ⟨setLke (clearVariant s), rfl, by simp, hasVariantBytes_setLke s⟩
  · exact ⟨setNke (clearVariant s), rfl, by simp, hasVariantBytes_setNke s⟩
  · exact ⟨setDke (clearVariant s), rfl, by simp, hasVariantBytes_setDke hc⟩
  · exact ⟨clearVariant s, rfl, by simp, hasVariantBytes_clearVariant s⟩

/-- R199 (a): the variant's signature is the first that holds of its bytes. -/
theorem code_classify_of_hasVariantBytes {m : Byte} {s t : State} (hm : m ∈ [1#8, 2#8, 3#8, 4#8])
    (h : HasVariantBytes m s t) : (classify t.ac).code = m := by
  obtain ⟨h13, h17, h23, -⟩ := h
  have e13 : t.ac[13].toNat % 16 = if m = 1#8 then 2 else 0 := by
    have e : t.ac[13].toNat = _ := h13
    split_ifs at e ⊢ <;> omega
  have e17 : t.ac[17] = _ := h17
  have e23 : t.ac[23] = _ := h23
  rw [classify_eq]
  simp only [List.mem_cons, List.not_mem_nil, or_false] at hm
  rcases hm with rfl | rfl | rfl | rfl <;>
    simp [JkeSignature, LkeSignature, DkeSignature, NkeSignature, e13, e17, e23, Variant.code]

end Sys2Proof.Machine
end

section
/-! PROOFS. The obligations on the A/C register file (44_ac_register_file.md). -/

namespace Sys2Proof.Machine

/-- Settles O21: the mnemonics name commands whose lists of written bytes and caches are empty, byte 26 stands in the
lists of the four commands alone, and so does each cache in its own commands'. -/
theorem acFileHasOnlyItsWriters : Obligations.AcFileHasOnlyItsWriters := by
  unfold Obligations.AcFileHasOnlyItsWriters
  intro i s t h
  refine ⟨fun hi => ?_, fun hraw hsend => ?_, fun hreset htemp hmode => ?_, fun hreset hdir _ => ?_⟩
  · have hbytes : writtenBytes i = [] := writtenBytes_of_mem_acReaders hi
    obtain ⟨htemp, hswing⟩ := caches_not_mem_writtenRegs_of_mem_acReaders hi
    exact ⟨ac_eq_of_acByte fun k => exec_acByte h (by simp [hbytes]), exec_tempCache h htemp, exec_swinghCache h hswing⟩
  · exact exec_acByte h (mt byte26_mem_writtenBytes.1 (by simpa only [not_or, not_exists] using ⟨hraw, hsend⟩))
  · exact exec_tempCache h (mt tempCache_mem_writtenRegs.1
      (by simpa only [not_or, not_exists] using ⟨hreset, hmode, htemp⟩))
  · exact exec_swinghCache h (mt swinghCache_mem_writtenRegs.1
      (by simpa only [not_or, not_exists] using ⟨hreset, hdir⟩))

/-- Settles O45: DBUF takes the bytes of the fixed file, whose last is the checksum. -/
theorem acGetRawFixesTheChecksumAndCopies : Obligations.AcGetRawFixesTheChecksumAndCopies := by
  unfold Obligations.AcGetRawFixesTheChecksumAndCopies
  refine ⟨rfl, fun s => ?_⟩
  have hexec : exec .acGetRaw s =
      .next (writeOutcome true false ((fixChecksum s).storeDbuf (fixChecksum s).ac.toList)) := rfl
  obtain ⟨hkeeps, -, ⟨hraw, -, -, hdraw⟩, hplan⟩ := frame_acGetRaw hexec
  refine ⟨_, hexec, fun f hf => toNat_acByte_fixChecksum s hf, dbufByte_storeDbuf_ac _ _,
    fun i hi => dbufByte_storeDbuf_ac_of_le _ _ hi, ?_, endsWith_writeOutcome rfl, hkeeps,
    rawEntry_of_eq hraw hdraw, planEntry_of_eq hplan hdraw⟩
  exact (congrArg validChecksum (dbufBytes_storeDbuf_ac _ _)).trans (validChecksum_fixChecksum s)

/-- Settles O47: each copy of the stored sequence is a frame of the fixed file, and PLAN beyond it is kept. -/
theorem acSendFixesTheChecksumAndWritesThePlan : Obligations.AcSendFixesTheChecksumAndWritesThePlan := by
  unfold Obligations.AcSendFixesTheChecksumAndWritesThePlan
  intro s r hp hcap
  have hexec := exec_acSend_of_fit hcap
  obtain ⟨hkeeps, -, ⟨hraw, -, -, hdraw⟩, hdbuf⟩ := frame_acSend r hexec
  have hn : (fixChecksum s).ac.toList.length = 27 := Vector.length_toList
  have hlen : (repeatFrame (frameSequence s.params (fixChecksum s).ac.toList) r).length = 440 * (r + 1) := by
    rw [length_repeatFrame, length_frameSequence, hn]
  refine ⟨_, hexec, fun hfit => ?_, fun f hf => toNat_acByte_fixChecksum s hf, fun f hf j hj => ?_, fun i hi => ?_,
    endsWith_writeOutcome rfl, hkeeps, rawEntry_of_eq hraw hdraw, dbufByte_of_eq hdbuf hdraw⟩
  · rw [writeOutcome_planlen, toNat_planlen_storePlan (hlen ▸ hfit), hlen]
  · have hbytes : ∀ k, (h : k < (fixChecksum s).ac.toList.length) → (fixChecksum s).ac.toList[k] = f k :=
      fun k h => (Vector.getElem_toList h).trans (hf ⟨k, hn ▸ h⟩).symm
    have hlayout := frameLayout_storePlan (s := fixChecksum s) hp (by omega) hbytes hj
    rw [hn] at hlayout
    exact hlayout
  · exact planEntry_storePlan_of_le (hlen.trans_le hi) (fixChecksum s)

/-- Settles O48: RESULT is the code of the first signature that holds, and the five codes differ. -/
theorem acGetModelTakesTheFirstSignature : Obligations.AcGetModelTakesTheFirstSignature := by
  unfold Obligations.AcGetModelTakesTheFirstSignature
  refine ⟨rfl, fun s => ?_⟩
  have hexec : exec .acGetModel s = .next (writeOutcome true false { s with result := (classify s.ac).code }) := rfl
  obtain ⟨hkeeps, -, huntouched, hdbuf, hplan⟩ := frame_acGetModel hexec
  refine ⟨_, hexec, fun jke lke dke nke hj hl hd hn => ?_, endsWith_writeOutcome rfl, hkeeps,
    memoriesKept_of_untouched huntouched hdbuf hplan⟩
  rw [writeOutcome_result, classify_eq]
  split_ifs with h1 h2 h3 h4
  · simp [hj.2 h1, Variant.code]
  · simp [mt hj.1 h1, hl.2 h2, Variant.code]
  · simp [mt hj.1 h1, mt hl.1 h2, hd.2 h3, Variant.code]
  · simp [mt hj.1 h1, mt hl.1 h2, mt hd.1 h3, hn.2 h4, Variant.code]
  · simp [mt hj.1 h1, mt hl.1 h2, mt hd.1 h3, mt hn.1 h4, Variant.code]

/-- Settles O49: AC_SET_MODEL writes the variant's bytes, and their signature is the variant's. -/
theorem acSetModelWritesTheVariantBytes : Obligations.AcSetModelWritesTheVariantBytes := by
  unfold Obligations.AcSetModelWritesTheVariantBytes
  intro s m hm hc
  obtain ⟨u, hexec, hstatus, hbytes⟩ := exec_acSetModel_of_variant hm hc
  obtain ⟨hkeeps, -, huntouched, hdbuf, hplan⟩ := frame_acSetModel m hexec
  have hclass : (classify u.ac).code = m := code_classify_of_hasVariantBytes hm hbytes
  obtain ⟨h13, h17, h23, h25⟩ := hbytes
  exact ⟨_, hexec, h13, h17, h23, h25, hclass, endsWith_writeOutcome hstatus, hkeeps,
    memoriesKept_of_untouched huntouched hdbuf hplan⟩

/-- Settles O50: the signatures read the variant bytes alone, LKE's wants an even byte 13 which AC_ON makes odd, and the
six setters keep the variant bytes. -/
theorem onlyVariantBytesMoveTheClassification : Obligations.OnlyVariantBytesMoveTheClassification := by
  unfold Obligations.OnlyVariantBytesMoveTheClassification
  refine ⟨fun ac ac' => classify_congr, fun ac h => ?_, fun s h h23 => ⟨_, rfl, classify_powerOn_of_lke h h23⟩,
    fun i s t hi h => exec_classify_of_mem_classificationKeepers hi h⟩
  obtain ⟨-, h13⟩ := lkeSignature_of_classify h
  simp only [BitVec.getLsbD, Nat.testBit_zero, decide_eq_false_iff_not]
  omega

/-- Settles O44: field by field; block reset leaves the same file and caches. -/
theorem acResetLoadsTheTemplate : Obligations.AcResetLoadsTheTemplate := by
  unfold Obligations.AcResetLoadsTheTemplate
  refine ⟨rfl, fun s => ?_⟩
  have hexec : exec .acReset s = .next (writeOutcome true false
      { s with ac := acTemplate, tempCache := tempCacheReset, swinghCache := swinghMiddle }) := rfl
  obtain ⟨hkeeps, -, huntouched, hdbuf, hplan⟩ := frame_acReset hexec
  exact ⟨_, hexec, rfl, rfl, rfl, endsWith_writeOutcome rfl, hkeeps,
    memoriesKept_of_untouched huntouched hdbuf hplan, rfl, rfl, rfl, checksum_acTemplate⟩

/-- Settles O46: the new file is DBUF byte by byte, and the caches are not among the registers written. -/
theorem acSetRawCopiesDbufAndKeepsTheCaches : Obligations.AcSetRawCopiesDbufAndKeepsTheCaches := by
  unfold Obligations.AcSetRawCopiesDbufAndKeepsTheCaches
  refine ⟨rfl, fun s => ?_⟩
  have hexec : exec .acSetRaw s = .next (writeOutcome true false { s with ac := dbufAsAc s }) := rfl
  obtain ⟨hkeeps, -, huntouched, hdbuf, hplan⟩ := frame_acSetRaw hexec
  exact ⟨_, hexec, acByte_dbufAsAc s, endsWith_writeOutcome rfl, hkeeps,
    memoriesKept_of_untouched huntouched hdbuf hplan⟩

end Sys2Proof.Machine
end

section
/-! PROOFS. How the A/C accessors end, the fields of the bytes they write, and what keeps the direction cache along a
run of commands (45_ac_accessors.md R210–R233). -/

namespace Sys2Proof.Machine

/-! ### The frame of an accessor -/

/-- A command that writes neither DBUF nor PLAN changes STATUS by its ending, and else the registers and bytes of its
own lists at most. -/
theorem accessor_frame {i : Instr} {s u : State} {ok ign : Bool} (h : exec i s = .next (writeOutcome ok ign u))
    (hstatus : u.status = s.status) (hdbuf : writesDbuf i = false) (hplan : writesPlan i = false) :
    EndsWith ok ign s (writeOutcome ok ign u) ∧
      KeepsBut (writtenRegs i) (writtenBytes i) s (writeOutcome ok ign u) ∧ MemoriesKept s (writeOutcome ok ign u) := by
  obtain ⟨hkeeps, -, huntouched⟩ := exec_frame h
  obtain ⟨hd, hp⟩ := exec_dbuf_plan h
  exact ⟨endsWith_writeOutcome hstatus, hkeeps, memoriesKept_of_untouched huntouched (hd hdbuf) (hp hplan)⟩

/-! ### Power (R210–R213) -/

theorem toNat_acByte_powerOn (s : State) : ((powerOn s).acByte 13).toNat = (s.acByte 13).toNat / 2 * 2 + 1 := by
  rw [acByte_powerOn, if_pos rfl, toNat_setBit0]

theorem toNat_acByte_powerOff (s : State) : ((powerOff s).acByte 13).toNat = (s.acByte 13).toNat / 2 * 2 := by
  rw [acByte_powerOff, if_pos rfl, toNat_clearBit0]

/-! ### Temperature (R214–R216) -/

theorem toNat_acByte_setTemp (x : Nat) (rem : Bool) (s : State) :
    ((setTemp x rem s).acByte 14).toNat = 2 * min (max x 16) 30 := by
  rw [acByte_setTemp, if_pos rfl, toNat_ofNat_of_lt (by omega)]

theorem acByte13_setTemp (x : Nat) (rem : Bool) (s : State) : (setTemp x rem s).acByte 13 = s.acByte 13 := by
  rw [acByte_setTemp, if_neg (by decide)]

theorem toNat_tempCache_setTemp (x : Nat) (rem : Bool) (s : State) :
    (setTemp x rem s).tempCache.toNat = if rem then min (max x 16) 30 else s.tempCache.toNat := by
  rw [tempCache_setTemp]
  split_ifs
  · exact toNat_ofNat_of_lt (by omega)
  · rfl

theorem toNat_shiftRight_one (x : Byte) : (x >>> 1).toNat = x.toNat / 2 := by
  rw [BitVec.toNat_ushiftRight, Nat.shiftRight_eq_div_pow, Nat.pow_one]

/-! ### Mode (R217, R218) -/

theorem toNat_acByte_setModeNibble {m : Byte} (hm : m.toNat < 16) (s : State) :
    ((setModeNibble m s).acByte 13).toNat = m.toNat * 16 + (s.acByte 13).toNat % 16 := by
  rw [acByte_setModeNibble, if_pos rfl, shiftLeft_four_eq_lowNibble, Nat.mod_eq_of_lt hm]
  exact toNat_writeHighNibble _ ⟨_, hm⟩

theorem acByte14_setModeNibble (m : Byte) (s : State) : (setModeNibble m s).acByte 14 = s.acByte 14 := by
  rw [acByte_setModeNibble, if_neg (by decide)]

/-- The recognised modes (30_encoding.md R84) are those that restore the temperature, and fan. -/
theorem mem_recognisedModes_iff {d : Byte} :
    d ∈ [0#8, 2#8, 3#8, 4#8, 6#8] ↔ d ∈ [0#8, 2#8, 3#8, 4#8] ∨ d = 6#8 := by
  simp only [List.mem_cons, List.not_mem_nil, or_false, or_assoc]

theorem exec_acSetMode_fan (s : State) :
    exec (.acSetMode 6#8) s = .next (writeOutcome true false (setModeNibble 6#8 (setTemp 27 false s))) := rfl

theorem exec_acSetMode_of_restoring {d : Byte} (hd : d ∈ [0#8, 2#8, 3#8, 4#8]) (s : State) :
    exec (.acSetMode d) s =
      .next (writeOutcome true false (setModeNibble d (setTemp s.tempCache.toNat true s))) := by
  simp only [List.mem_cons, List.not_mem_nil, or_false] at hd
  rcases hd with rfl | rfl | rfl | rfl <;> rfl

theorem exec_acSetMode_of_unrecognised {d : Byte} (hd : d ∉ [0#8, 2#8, 3#8, 4#8, 6#8]) (s : State) :
    exec (.acSetMode d) s = .next (writeOutcome true false (setModeNibble 0#8 s)) := by
  simp only [List.mem_cons, List.not_mem_nil, or_false, not_or] at hd
  obtain ⟨hauto, hdry, hcool, hheat, hfan⟩ := hd
  simp [exec, execAcSetMode, modeAuto, modeDry, modeCool, modeHeat, modeFan, hauto, hdry, hcool, hheat, hfan]

/-! ### Vertical swing (R219, R220) -/

theorem swingvNibble_eq (e : Nat) : swingvNibble e = BitVec.ofNat 8 (if e = 15 then 15 else min (max e 1) 5) := by
  unfold swingvNibble swingvAuto swingvUp swingvDown
  split_ifs with h
  · rw [h]
  · rfl

theorem toNat_write_swingvNibble (x : Byte) (e : Nat) :
    (x &&& 0xF0#8 ||| swingvNibble e).toNat = x.toNat / 16 * 16 + (if e = 15 then 15 else min (max e 1) 5) := by
  have hnibble : (if e = 15 then 15 else min (max e 1) 5) < 16 := by split <;> omega
  rw [swingvNibble_eq]
  exact toNat_writeLowNibble x ⟨_, hnibble⟩

/-! ### Horizontal swing (R221–R223) -/

theorem contains_swinghCodes_iff {d : Byte} :
    swinghCodes.contains d = true ↔ d ∈ [0x0D#8, 0x06#8, 0x09#8, 0x0A#8, 0x0B#8, 0x0C#8] := List.contains_iff_mem

/-- The capability table (30_encoding.md R87) by the variant codes: what byte 17 holds after a valid request, `x` where
it is not written. -/
theorem getD_swinghWritten (v : Variant) (d x : Byte) :
    (swinghWritten v d).getD x = if v.code = 3#8 then d else if v.code = 2#8 ∨ v.code = 1#8 then 0x06#8 else x := by
  cases v <;> rfl

theorem exec_acSetSwingH_of_valid {d : Byte} (hd : d ∈ [0x0D#8, 0x06#8, 0x09#8, 0x0A#8, 0x0B#8, 0x0C#8]) (s : State) :
    ∃ u, exec (.acSetSwingH d) s = .next (writeOutcome true false u) ∧ u.status = s.status ∧ u.swinghCache = d ∧
      u.acByte 17 = (swinghWritten (classify s.ac) d).getD (s.acByte 17) := by
  simp only [exec, execAcSetSwingH]
  rcases setSwingH_cases d s with ⟨hinvalid, -⟩ | ⟨-, hwritten, e⟩ | ⟨-, x, hwritten, e⟩
  · rw [contains_swinghCodes_iff.2 hd] at hinvalid
    cases hinvalid
  · rw [e, hwritten]
    exact ⟨_, rfl, rfl, rfl, rfl⟩
  · rw [e, hwritten]
    exact ⟨_, rfl, rfl, rfl, acByte_setAc_same _ _ _⟩

theorem exec_acSetSwingH_of_invalid {d : Byte} (hd : d ∉ [0x0D#8, 0x06#8, 0x09#8, 0x0A#8, 0x0B#8, 0x0C#8])
    (s : State) : exec (.acSetSwingH d) s = .next (writeOutcome true true s) := by
  simp only [exec, execAcSetSwingH]
  rcases setSwingH_cases d s with ⟨-, e⟩ | ⟨hvalid, -⟩ | ⟨hvalid, -⟩
  · rw [e]
    rfl
  all_goals exact absurd (contains_swinghCodes_iff.1 hvalid) hd

/-! ### Fan (R224, R225) -/

theorem exec_acSetFan_of_accepted {n : Nat} (hn : n ≤ 4 ∨ n = 7) (s : State) :
    exec (.acSetFan n) s = .next (writeOutcome true false
      (s.setAc 16 (s.acByte 16 &&& 0x0F#8 ||| BitVec.ofNat 8 (((n + 3) % 16) <<< 4)))) := if_pos hn

theorem exec_acSetFan_of_ignored {n : Nat} (h4 : 4 < n) (h7 : n ≠ 7) (s : State) :
    exec (.acSetFan n) s = .next (writeOutcome true true s) := if_neg (not_or.2 ⟨Nat.not_le.2 h4, h7⟩)

theorem toNat_write_fanNibble (x : Byte) {n : Nat} (hn : n ≤ 4 ∨ n = 7) :
    (x &&& 0x0F#8 ||| BitVec.ofNat 8 (((n + 3) % 16) <<< 4)).toNat = (n + 3) * 16 + x.toNat % 16 := by
  have hnibble : n + 3 < 16 := by omega
  rw [Nat.mod_eq_of_lt hnibble, toNat_shiftedNibble ⟨_, hnibble⟩]
  exact toNat_writeHighNibble x ⟨_, hnibble⟩

/-! ### Quiet and powerful (R226–R232) -/

/-- Setting quiet writes bit 0 and clears bit 5, clearing it writes bit 0 alone. -/
theorem getLsbD_acByte_setQuiet (b : Bool) (s : State) (k : Nat) :
    ((setQuiet b s).acByte 21).getLsbD k =
      if k = 0 then b else if k = 5 then !b && (s.acByte 21).getLsbD 5 else (s.acByte 21).getLsbD k := by
  rw [acByte_setQuiet, if_pos rfl]
  obtain hk | hk : k < 8 ∨ 8 ≤ k := by omega
  · interval_cases k <;> cases b <;> simp
  · rw [BitVec.getLsbD_of_ge _ _ hk, BitVec.getLsbD_of_ge _ _ hk, if_neg (by omega), if_neg (by omega)]

/-- Setting powerful writes bit 5 and clears bit 0, clearing it writes bit 5 alone. -/
theorem getLsbD_acByte_setPowerful (b : Bool) (s : State) (k : Nat) :
    ((setPowerful b s).acByte 21).getLsbD k =
      if k = 5 then b else if k = 0 then !b && (s.acByte 21).getLsbD 0 else (s.acByte 21).getLsbD k := by
  rw [acByte_setPowerful, if_pos rfl]
  obtain hk | hk : k < 8 ∨ 8 ≤ k := by omega
  · interval_cases k <;> cases b <;> simp
  · rw [BitVec.getLsbD_of_ge _ _ hk, BitVec.getLsbD_of_ge _ _ hk, if_neg (by omega), if_neg (by omega)]

@[simp] theorem setQuiet_status (b : Bool) (s : State) : (setQuiet b s).status = s.status := by cases b <;> rfl

@[simp] theorem setPowerful_status (b : Bool) (s : State) : (setPowerful b s).status = s.status := by cases b <;> rfl

/-- Quiet and powerful are both set in byte 21, the pair that no setter makes (R232). -/
def QuietAndPowerful (s : State) : Prop := (s.acByte 21).getLsbD 0 = true ∧ (s.acByte 21).getLsbD 5 = true

theorem quietAndPowerful_congr {s t : State} (h : t.acByte 21 = s.acByte 21) :
    QuietAndPowerful t ↔ QuietAndPowerful s := by
  rw [QuietAndPowerful, QuietAndPowerful, h]

theorem not_quietAndPowerful_setQuiet (b : Bool) (s : State) : ¬QuietAndPowerful (setQuiet b s) := by
  rintro ⟨hquiet, hpowerful⟩
  rw [getLsbD_acByte_setQuiet] at hquiet hpowerful
  obtain rfl : b = true := hquiet
  cases hpowerful

theorem not_quietAndPowerful_setPowerful (b : Bool) (s : State) : ¬QuietAndPowerful (setPowerful b s) := by
  rintro ⟨hquiet, hpowerful⟩
  rw [getLsbD_acByte_setPowerful] at hquiet hpowerful
  obtain rfl : b = true := hpowerful
  cases hquiet

theorem not_quietAndPowerful_reset : ¬QuietAndPowerful State.reset := fun ⟨hquiet, _⟩ => absurd hquiet (by decide)

theorem byte21_mem_writtenBytes {i : Instr} :
    21 ∈ writtenBytes i ↔ i = .acReset ∨ i = .acSetRaw ∨ (∃ b, i = .acSetQuiet b) ∨ ∃ b, i = .acSetPowerful b := by
  cases i <;> simp [writtenBytes]

theorem exec_not_quietAndPowerful {i : Instr} {s t : State} (h : exec i s = .next t) (hraw : i ≠ .acSetRaw)
    (hs : ¬QuietAndPowerful s) : ¬QuietAndPowerful t := by
  by_cases h21 : 21 ∈ writtenBytes i
  · rcases byte21_mem_writtenBytes.1 h21 with rfl | rfl | ⟨b, rfl⟩ | ⟨b, rfl⟩
    · cases h
      exact mt (quietAndPowerful_congr rfl).1 not_quietAndPowerful_reset
    · exact absurd rfl hraw
    · cases h
      exact not_quietAndPowerful_setQuiet b s
    · cases h
      exact not_quietAndPowerful_setPowerful b s
  · exact mt (quietAndPowerful_congr (exec_acByte h h21)).1 hs

/-- R232 over the moves of the host: a move that makes the pair is an AC_SET_RAW. -/
theorem acSetRaw_of_takeMove_quietAndPowerful {m : HostMove} {s t : State} (h : takeMove m s = .next t)
    (hs : ¬QuietAndPowerful s) (ht : QuietAndPowerful t) :
    ∃ w, m = .write .cmd w ∧ w < 2 ^ 32 ∧ decode (BitVec.ofNat 32 w) = .ok .acSetRaw := by
  rcases takeMove_cases h with ⟨w, i, hm, hw, hdecode, hexec⟩ | ⟨w, why, -, -, -, rfl⟩ | ⟨p, v, -, hwrite⟩ |
    ⟨p, -, rfl⟩ | ⟨-, rfl⟩
  · by_cases hi : i = .acSetRaw
    · exact ⟨w, hm, hw, hi ▸ hdecode⟩
    · exact absurd ht (exec_not_quietAndPowerful hexec hi hs)
  · exact absurd ht hs
  · have hbyte : t.acByte 21 = s.acByte 21 := by
      rcases hostWrite_cases hwrite with ⟨_, rfl⟩ | ⟨_, rfl⟩ | ⟨_, _, rfl⟩ | ⟨_, _, rfl⟩ | ⟨_, _, rfl⟩ <;> rfl
    exact absurd ((quietAndPowerful_congr hbyte).1 ht) hs
  · exact absurd ht hs
  · exact absurd ((quietAndPowerful_congr rfl).1 ht) not_quietAndPowerful_reset

/-! ### The direction cache along a run of commands (R233) -/

theorem runCommands_cons_eq_next_iff {i : Instr} {is : List Instr} {s u : State} :
    runCommands (i :: is) s = .next u ↔ ∃ t, exec i s = .next t ∧ runCommands is t = .next u := by
  rw [runCommands]
  cases exec i s <;> simp

/-- What every command of a run keeps, the run keeps. -/
theorem runCommands_keeps {P : State → Prop} {is : List Instr}
    (hstep : ∀ i ∈ is, ∀ s t, exec i s = .next t → P s → P t) {s u : State} (h : runCommands is s = .next u)
    (hs : P s) : P u := by
  induction is generalizing s with
  | nil =>
    cases h
    exact hs
  | cons i is ih =>
    obtain ⟨t, hexec, hrun⟩ := runCommands_cons_eq_next_iff.1 h
    exact ih (fun j hj => hstep j (List.mem_cons_of_mem i hj)) hrun (hstep i List.mem_cons_self s t hexec hs)

/-- Only AC_RESET and an accepted AC_SET_SWINGH write the direction cache. -/
theorem exec_swinghCache_of_not_accepted {i : Instr} {s t : State} (h : exec i s = .next t) (hreset : i ≠ .acReset)
    (hdir : ∀ d, i = .acSetSwingH d → d ∉ [0x0D#8, 0x06#8, 0x09#8, 0x0A#8, 0x0B#8, 0x0C#8]) :
    t.swinghCache = s.swinghCache := by
  by_cases hw : .swinghCache ∈ writtenRegs i
  · rcases swinghCache_mem_writtenRegs.1 hw with rfl | ⟨d, rfl⟩
    · exact absurd rfl hreset
    · cases (exec_acSetSwingH_of_invalid (hdir d rfl) s).symm.trans h
      rfl
  · exact exec_swinghCache h hw

end Sys2Proof.Machine
end

section
/-! PROOFS. The obligations on the A/C accessors (45_ac_accessors.md). -/

namespace Sys2Proof.Machine

/-- Settles O53: AC_SET_MODE's three cases are fan, a mode that restores the temperature, and an unrecognised one; the
nibble is written last and leaves the temperature. -/
theorem modeCommandsFollowTheFanRule : Obligations.ModeCommandsFollowTheFanRule := by
  unfold Obligations.ModeCommandsFollowTheFanRule
  refine ⟨fun x => decodeOfEncodeIsTheCommand (.acSetMode x) rfl, rfl, fun s => ⟨fun d => ?_, _, rfl,
    toNat_highNibble _, accessor_frame (i := .acGetMode) rfl rfl rfl rfl⟩⟩
  by_cases hfan : d = 6#8
  · subst hfan
    have hexec := exec_acSetMode_fan s
    refine ⟨_, hexec, ?_, fun _ => ⟨?_, rfl⟩, fun h => absurd h (by decide), fun h => absurd h (by decide),
      accessor_frame hexec rfl rfl rfl⟩
    · rw [if_pos (by decide), acByte_writeOutcome, toNat_acByte_setModeNibble (by decide), acByte13_setTemp]
    · rw [acByte_writeOutcome, acByte14_setModeNibble]
      exact toNat_acByte_setTemp 27 false s
  by_cases hd : d ∈ [0#8, 2#8, 3#8, 4#8]
  · have hexec := exec_acSetMode_of_restoring hd s
    have hmem : d ∈ [0#8, 2#8, 3#8, 4#8, 6#8] := mem_recognisedModes_iff.2 (.inl hd)
    have hnibble : d.toNat < 16 := (by decide : ∀ d ∈ [0#8, 2#8, 3#8, 4#8], d.toNat < 16) d hd
    refine ⟨_, hexec, ?_, fun h => absurd h hfan, fun _ => ⟨?_, ?_⟩, fun h => absurd hmem h,
      accessor_frame hexec rfl rfl rfl⟩
    · rw [if_pos hmem, acByte_writeOutcome, toNat_acByte_setModeNibble hnibble, acByte13_setTemp]
    · rw [acByte_writeOutcome, acByte14_setModeNibble, toNat_acByte_setTemp]
    · exact toNat_tempCache_setTemp _ true s
  · have hmem : d ∉ [0#8, 2#8, 3#8, 4#8, 6#8] := mt mem_recognisedModes_iff.1 (not_or.2 ⟨hd, hfan⟩)
    have hexec := exec_acSetMode_of_unrecognised hmem s
    refine ⟨_, hexec, ?_, fun h => absurd h hfan, fun h => absurd h hd, fun _ => ⟨acByte14_setModeNibble _ _, rfl⟩,
      accessor_frame hexec rfl rfl rfl⟩
    rw [if_neg hmem, acByte_writeOutcome, toNat_acByte_setModeNibble (by decide)]
    rfl

/-- Settles O55: a valid direction is cached and byte 17 takes the capability table's entry, an invalid one is
ignored. -/
theorem swingHCommandsFollowTheCapabilityTable : Obligations.SwingHCommandsFollowTheCapabilityTable := by
  unfold Obligations.SwingHCommandsFollowTheCapabilityTable
  refine ⟨fun x => decodeOfEncodeIsTheCommand (.acSetSwingH x) rfl, rfl, fun s => ⟨fun d hd => ?_, fun d hd => ?_, _,
    rfl, rfl, accessor_frame (i := .acGetSwingH) rfl rfl rfl rfl⟩⟩
  · obtain ⟨u, hexec, hstatus, hcache, hbyte⟩ := exec_acSetSwingH_of_valid hd s
    exact ⟨_, hexec, hcache, hbyte.trans (getD_swinghWritten _ _ _), accessor_frame hexec hstatus rfl rfl⟩
  · exact ⟨_, exec_acSetSwingH_of_invalid hd s, writeOutcome_changesOnlyStatus true true s⟩

/-- Settles O57: bit by bit of byte 21 after each setter. -/
theorem quietAndPowerfulCommandsExcludeEachOther : Obligations.QuietAndPowerfulCommandsExcludeEachOther := by
  unfold Obligations.QuietAndPowerfulCommandsExcludeEachOther
  refine ⟨fun b => decodeOfEncodeIsTheCommand (.acSetQuiet b) rfl, rfl,
    fun b => decodeOfEncodeIsTheCommand (.acSetPowerful b) rfl, rfl, fun s => ⟨fun b => ?_, fun b => ?_,
    ⟨_, rfl, toNat_bit0 _, accessor_frame (i := .acGetQuiet) rfl rfl rfl rfl⟩,
    _, rfl, toNat_bit5 _, accessor_frame (i := .acGetPowerful) rfl rfl rfl rfl⟩⟩
  · have hbit := getLsbD_acByte_setQuiet b s
    exact ⟨_, rfl, hbit 0, hbit 5, fun k h0 h5 => (hbit k).trans ((if_neg h0).trans (if_neg h5)),
      accessor_frame (i := .acSetQuiet b) rfl (setQuiet_status b s) rfl rfl⟩
  · have hbit := getLsbD_acByte_setPowerful b s
    exact ⟨_, rfl, hbit 5, hbit 0, fun k h0 h5 => (hbit k).trans ((if_neg h5).trans (if_neg h0)),
      accessor_frame (i := .acSetPowerful b) rfl (setPowerful_status b s) rfl rfl⟩

/-- Settles O58: the pair comes by AC_SET_RAW alone, and the second setter's two bits are its own. -/
theorem onlySetRawLoadsQuietAndPowerfulTogether : Obligations.OnlySetRawLoadsQuietAndPowerfulTogether := by
  unfold Obligations.OnlySetRawLoadsQuietAndPowerfulTogether
  refine ⟨fun m s t h hs hquiet hpowerful => acSetRaw_of_takeMove_quietAndPowerful h hs ⟨hquiet, hpowerful⟩,
    fun s => ?_, fun s => ?_⟩
  · have hbit := getLsbD_acByte_setQuiet true (writeOutcome true false (setPowerful true s))
    exact ⟨_, _, rfl, rfl, hbit 0, hbit 5⟩
  · have hbit := getLsbD_acByte_setPowerful true (writeOutcome true false (setQuiet true s))
    exact ⟨_, _, rfl, rfl, hbit 0, hbit 5⟩

/-- Settles O60: JKE's entry of the capability table is empty, the run keeps the cache, and the DKE writes end with
it. -/
theorem swingDirectionSurvivesUntilDke : Obligations.SwingDirectionSurvivesUntilDke := by
  unfold Obligations.SwingDirectionSurvivesUntilDke
  intro s d hjke hd
  obtain ⟨u₀, hexec, -, hcache, hbyte⟩ := exec_acSetSwingH_of_valid hd s
  rw [hjke] at hbyte
  refine ⟨_, hexec, hbyte, hcache, fun between u hbetween hrun => ?_⟩
  have hu : u.swinghCache = d := runCommands_keeps (P := fun v => v.swinghCache = d)
    (fun i hi _ _ h hv => (exec_swinghCache_of_not_accepted h (hbetween i hi).1 (hbetween i hi).2).trans hv) hrun hcache
  obtain ⟨v, hmodel, -, -, h17, -⟩ := exec_acSetModel_of_variant (m := 3#8) (s := u) (by decide)
    (contains_swinghCodes_iff.2 (hu.symm ▸ hd))
  have hdir : v.acByte 17 = d := h17.trans hu
  exact ⟨_, _, hmodel, hdir, rfl, hdir⟩

/-- Settles O51: the power bit is the parity of byte 13. -/
theorem powerCommandsMoveOneBit : Obligations.PowerCommandsMoveOneBit := by
  unfold Obligations.PowerCommandsMoveOneBit
  refine ⟨rfl, rfl, fun b => decodeOfEncodeIsTheCommand (.acSetPower b) rfl, rfl, fun s => ⟨?_, _, rfl, toNat_bit0 _,
    accessor_frame (i := .acGetPower) rfl rfl rfl rfl⟩⟩
  rintro i b (⟨rfl, rfl⟩ | ⟨rfl, rfl⟩ | rfl)
  · exact ⟨_, rfl, toNat_acByte_powerOn s, accessor_frame (i := .acOn) rfl rfl rfl rfl⟩
  · exact ⟨_, rfl, toNat_acByte_powerOff s, accessor_frame (i := .acOff) rfl rfl rfl rfl⟩
  · cases b with
    | false => exact ⟨_, rfl, toNat_acByte_powerOff s, accessor_frame (i := .acSetPower false) rfl rfl rfl rfl⟩
    | true => exact ⟨_, rfl, toNat_acByte_powerOn s, accessor_frame (i := .acSetPower true) rfl rfl rfl rfl⟩

/-- Settles O52: SetTemp's byte and cache are those of the clamped temperature. -/
theorem tempCommandsClampAndRemember : Obligations.TempCommandsClampAndRemember := by
  unfold Obligations.TempCommandsClampAndRemember
  refine ⟨fun x rem => ?_, rfl, fun s => ⟨fun x rem => ?_, _, rfl, toNat_shiftRight_one _,
    accessor_frame (i := .acGetTemp) rfl rfl rfl rfl⟩⟩
  · simpa [encode, wordT] using decodeOfEncodeIsTheCommand (.acSetTemp x.toNat rem) (decide_eq_true x.isLt)
  · exact ⟨_, rfl, toNat_acByte_setTemp x rem s, toNat_tempCache_setTemp x rem s,
      accessor_frame (i := .acSetTemp x rem) rfl rfl rfl rfl⟩

/-- Settles O54: the clamped request is a nibble, written under the fan nibble. -/
theorem swingVCommandsClampAllButAuto : Obligations.SwingVCommandsClampAllButAuto := by
  unfold Obligations.SwingVCommandsClampAllButAuto
  refine ⟨fun x => ?_, rfl, fun s => ⟨fun e => ?_, _, rfl, toNat_lowNibble _,
    accessor_frame (i := .acGetSwingV) rfl rfl rfl rfl⟩⟩
  · simpa [encode, wordI8] using decodeOfEncodeIsTheCommand (.acSetSwingV x.toNat) (decide_eq_true x.isLt)
  · refine ⟨_, rfl, ?_, accessor_frame (i := .acSetSwingV e) rfl rfl rfl rfl⟩
    rw [succeed_eq, acByte_writeOutcome, acByte_setAc_same, toNat_write_swingvNibble]

/-- Settles O56: an accepted speed with its offset is a nibble, written over the swing nibble, and another is
ignored. -/
theorem fanCommandsOffsetAndIgnore : Obligations.FanCommandsOffsetAndIgnore := by
  unfold Obligations.FanCommandsOffsetAndIgnore
  refine ⟨fun x => ?_, rfl, fun s => ⟨fun n hn => ?_, fun n h4 h7 => ?_, _, rfl, BitVec.toNat_ofNat _ _,
    accessor_frame (i := .acGetFan) rfl rfl rfl rfl⟩⟩
  · simpa [encode, wordI8] using decodeOfEncodeIsTheCommand (.acSetFan x.toNat) (decide_eq_true x.isLt)
  · have hexec := exec_acSetFan_of_accepted hn s
    refine ⟨_, hexec, ?_, accessor_frame hexec rfl rfl rfl⟩
    rw [acByte_writeOutcome, acByte_setAc_same, toNat_write_fanNibble _ hn]
  · exact ⟨_, exec_acSetFan_of_ignored h4 h7 s, writeOutcome_changesOnlyStatus true true s⟩

/-- Settles O59: fan leaves the cache, and cool stores the cached temperature, which the clamp does not move. -/
theorem fanThenCoolRestoresTheTemperature : Obligations.FanThenCoolRestoresTheTemperature := by
  unfold Obligations.FanThenCoolRestoresTheTemperature
  intro s hmin hmax
  have hclamp : min (max s.tempCache.toNat 16) 30 = s.tempCache.toNat := by omega
  refine ⟨_, _, exec_acSetMode_fan s, exec_acSetMode_of_restoring (by decide) _, ?_, BitVec.eq_of_toNat_eq ?_⟩
  · rw [acByte_writeOutcome, acByte14_setModeNibble, toNat_acByte_setTemp]
    exact congrArg (2 * ·) hclamp
  · rw [writeOutcome_tempCache, tempCache_setModeNibble, toNat_tempCache_setTemp, if_pos rfl]
    exact hclamp

end Sys2Proof.Machine
end

section
/-! PROOFS. The obligations on the exceptions (60_exceptions.md): what IllegalCommand leaves unchanged (R244), and that
every command ends in a next state (R243, R247, R248). -/

namespace Sys2Proof.Machine

/-! ### IllegalCommand (R244) -/

/-- Among the registers IllegalCommand writes STATUS alone. -/
theorem keepsBut_raiseIllegalCommand (s : State) : KeepsBut [.status] [] s (raiseIllegalCommand s) := by
  refine ⟨fun r hr => ?_, fun _ _ => rfl, rfl, rfl⟩
  cases r
  case status => exact absurd (List.mem_singleton_self _) hr
  all_goals rfl

/-- Settles O7: the illegal word raises IllegalCommand, which writes the low three bits of STATUS and nothing else. -/
theorem illegalWordOnlyWritesThreeStatusBits : Obligations.IllegalWordOnlyWritesThreeStatusBits := by
  unfold Obligations.IllegalWordOnlyWritesThreeStatusBits
  intro s w why hw hd
  refine ⟨_, takeMove_illegal s hw hd, raiseIllegalCommand_ill s, raiseIllegalCommand_ok s, raiseIllegalCommand_ign s,
    fun b hb => ?_, keepsBut_raiseIllegalCommand s, memoriesKept_of_eq rfl rfl rfl rfl⟩
  rw [status_raiseIllegalCommand_getLsbD, if_neg (Nat.not_lt.2 hb)]

/-! ### Every command completes (R243, R247, R248) -/

/-- FRAME_DECODE ends with the decoded bytes, with nothing but STATUS, or with a draw of the low bytes
(42_frame_codec.md R175). -/
theorem exists_exec_frameDecode (strict : Bool) (nbits : Nat) (s : State) :
    ∃ t, exec (.frameDecode strict nbits) s = .next t := by
  cases hd : frameDecode s strict nbits with
  | ok c => exact ⟨_, exec_frameDecode_of_ok hd⟩
  | error kind =>
    by_cases hk : kind = .structural
    · exact ⟨_, exec_frameDecode_of_structural (hk ▸ hd)⟩
    · exact ⟨_, exec_frameDecode_of_error hd hk⟩

/-- AC_SET_MODE ends on fan, on a mode that restores the temperature, and on an unrecognised one (45_ac_accessors.md
R217). -/
theorem exists_exec_acSetMode (mode : Byte) (s : State) : ∃ t, exec (.acSetMode mode) s = .next t := by
  by_cases hmode : mode ∈ [0#8, 2#8, 3#8, 4#8, 6#8]
  · rcases mem_recognisedModes_iff.1 hmode with hrestoring | rfl
    · exact ⟨_, exec_acSetMode_of_restoring hrestoring s⟩
    · exact ⟨_, exec_acSetMode_fan s⟩
  · exact ⟨_, exec_acSetMode_of_unrecognised hmode s⟩

/-- AC_SET_SWINGH ends on a valid direction and on an ignored one (45_ac_accessors.md R222). -/
theorem exists_exec_acSetSwingH (dir : Byte) (s : State) : ∃ t, exec (.acSetSwingH dir) s = .next t := by
  by_cases hdir : dir ∈ [0x0D#8, 0x06#8, 0x09#8, 0x0A#8, 0x0B#8, 0x0C#8]
  · obtain ⟨u, hexec, -⟩ := exec_acSetSwingH_of_valid hdir s
    exact ⟨_, hexec⟩
  · exact ⟨_, exec_acSetSwingH_of_invalid hdir s⟩

/-- Settles O8: a command that tests its input or the state ends in a next state on each side of its test, and every
other command is a next state as it stands. -/
theorem everyCommandEndsInANextState : Obligations.EveryCommandEndsInANextState := by
  unfold Obligations.EveryCommandEndsInANextState
  intro i s
  cases i
  case cal =>
    obtain hfew | htwo := Nat.lt_or_ge s.rawlen.toNat 2
    · exact ⟨_, exec_cal_of_lt_two hfew⟩
    · exact ⟨_, exec_cal_of_two_le htwo⟩
  case extract tsel n offset =>
    cases hx : extractBits s offset n (selectTemplate tsel s) with
    | none => exact ⟨_, exec_extract_of_none hx⟩
    | some vu => exact ⟨_, exec_extract_of_some hx⟩
  case wordSend nbits reps =>
    by_cases hwide : valueBits < nbits
    · exact ⟨_, if_pos hwide⟩
    · exact ⟨_, if_neg hwide⟩
  case wordDecode strict nbits =>
    cases hd : wordDecode s strict nbits with
    | error kind => exact ⟨_, exec_wordDecode_of_error hd⟩
    | ok v => exact ⟨_, exec_wordDecode_of_ok hd⟩
  case frameSend nbytes reps =>
    by_cases hlen : nbytes < frameMinLen ∨ dbufCap < nbytes
    · exact ⟨_, if_pos hlen⟩
    · exact ⟨_, if_neg hlen⟩
  case frameDecode strict nbits => exact exists_exec_frameDecode strict nbits s
  case csumCalc len =>
    obtain hlong | hshort := Nat.lt_or_ge 27 len
    · exact ⟨_, exec_csumCalc_of_lt hlong⟩
    · exact ⟨_, exec_csumCalc_of_le hshort⟩
  case csumValid len =>
    by_cases hsum : DbufEndsInChecksum s len
    · exact ⟨_, exec_csumValid_of_valid hsum⟩
    · exact ⟨_, exec_csumValid_of_not_valid hsum⟩
  case acSetModel variant =>
    rcases execAcSetModel_ending variant s with ⟨-, hexec⟩ | ⟨-, u, hexec⟩
    · exact ⟨_, hexec⟩
    · exact ⟨_, hexec⟩
  case acSetMode mode => exact exists_exec_acSetMode mode s
  case acSetSwingH dir => exact exists_exec_acSetSwingH dir s
  case acSetFan speed =>
    by_cases hspeed : speed ≤ fanMax ∨ speed = fanAuto
    · exact ⟨_, if_pos hspeed⟩
    · exact ⟨_, if_neg hspeed⟩
  all_goals exact ⟨_, rfl⟩

end Sys2Proof.Machine
end


section
/-! PROOFS. The obligations on resets and hazards (70_reset_and_hazards.md): the accesses the host port refuses (R266),
and block reset from every state (R260). -/

namespace Sys2Proof.Machine

/-! ### Refused accesses (R266) -/

/-- A read the table does not admit is refused. -/
theorem takeRead_refused {p : Port} {s : State} (h : hostRead p s = none) :
    takeRead p s = .refused (.hostAccess (.read p)) := by
  simp only [takeRead, h]

/-- Off `CMD` a write the table does not admit is refused. -/
theorem takeWrite_refused {p : Port} {v : Nat} {s : State} (hp : p ≠ .cmd) (h : hostWrite p v s = none) :
    takeWrite p v s = .refused (.hostAccess (.write p v)) := by
  simp only [takeWrite, hp, false_and, if_false, h]

/-- The registers and caches that the table of R31 gives the host no write of. -/
theorem hostWrite_readOnly {p : Port} (v : Nat) (s : State)
    (hp : p ∈ [Port.status, .proto, .bits, .address, .command, .mtick, .stick, .used, .result, .planlen,
      .tempCache, .swinghCache]) : hostWrite p v s = none := by
  simp only [List.mem_cons, List.not_mem_nil, or_false] at hp
  rcases hp with rfl | rfl | rfl | rfl | rfl | rfl | rfl | rfl | rfl | rfl | rfl | rfl <;> rfl

/-- A RAWLEN above `RAW_CAP` is not admitted, whether or not 16 bits hold it. -/
theorem hostWrite_rawlen_of_cap_lt {v : Nat} {s : State} (hv : s.params.rawCap < v) :
    hostWrite .rawlen v s = none :=
  if_neg fun hadmitted => Nat.not_le.2 hv hadmitted.2

theorem hostWrite_raw_of_cap_le {i : Nat} {s : State} (v : Nat) (hi : s.params.rawCap ≤ i) :
    hostWrite (.raw i) v s = none :=
  if_neg fun hadmitted => Nat.not_lt.2 hi hadmitted.2

theorem hostWrite_dbuf_of_cap_le {i : Nat} (v : Nat) (s : State) (hi : 27 ≤ i) : hostWrite (.dbuf i) v s = none :=
  if_neg fun hadmitted => Nat.not_lt.2 hi hadmitted.2

/-- Settles O11: in each listed case the table's row is `none`, for a memory because the index is not below its
capacity, and no listed write is one of `CMD`. -/
theorem hostAccessOutsideTheTableIsRefused : Obligations.HostAccessOutsideTheTableIsRefused := by
  unfold Obligations.HostAccessOutsideTheTableIsRefused
  refine fun s => ⟨fun p hp => takeRead_refused ?_, fun p v hp => ?_⟩
  · rcases hp with rfl | rfl | rfl | ⟨i, rfl⟩ | ⟨i, rfl, hi⟩ | ⟨i, rfl, hi⟩ | ⟨i, rfl, hi⟩
    case inl | inr.inl | inr.inr.inl | inr.inr.inr.inl => rfl
    all_goals exact if_neg (Nat.not_lt.2 hi)
  · rcases hp with hp | ⟨i, rfl⟩ | ⟨i, rfl⟩ | ⟨rfl, hv⟩ | ⟨i, rfl, hi⟩ | ⟨i, rfl, hi⟩
    · refine takeWrite_refused ?_ (hostWrite_readOnly v s hp)
      rintro rfl
      exact absurd hp (by decide)
    · exact takeWrite_refused nofun rfl
    · exact takeWrite_refused nofun rfl
    · exact takeWrite_refused nofun (hostWrite_rawlen_of_cap_lt hv)
    · exact takeWrite_refused nofun (hostWrite_raw_of_cap_le v hi)
    · exact takeWrite_refused nofun (hostWrite_dbuf_of_cap_le v s hi)

/-! ### Block reset (R260) -/

/-- Every register takes its reset value, whatever the state before. -/
theorem reg_applyBlockReset (s : State) (r : Reg) : (applyBlockReset s).reg r = State.reset.reg r := by
  cases r <;> rfl

/-- No memory element is written after block reset, so each reads the draw that the counter numbered (10_state.md
R52). -/
theorem memories_applyBlockReset (s : State) (i : Nat) :
    (applyBlockReset s).rawEntry i = Config.rawDraw s.draws i ∧
      (applyBlockReset s).dbufByte i = Config.dbufDraw s.draws i ∧
      (applyBlockReset s).planEntry i = Config.planDraw s.draws i :=
  ⟨rfl, rfl, rfl⟩

/-- Settles O13: the reset state by register and by memory element; `takeMove_draws` says how every host move moves the
draws. -/
theorem blockResetGivesTheResetState : Obligations.BlockResetGivesTheResetState := by
  unfold Obligations.BlockResetGivesTheResetState
  exact ⟨fun s => ⟨applyBlockReset s, rfl, reg_applyBlockReset s, rfl, rfl, rfl, rfl, rfl, memories_applyBlockReset s⟩,
    fun _ _ _ h => takeMove_draws h⟩

end Sys2Proof.Machine
end
